-- ==== Sys2Proof/Word.lean ====
section
/-! DEFINITION. The word types of the HCC: the byte that is a symbol (R9, SYM_W = 8), the 32-bit word of the
register window (R50) and the 9-bit node id (R111). Every value is unsigned (R11). -/

namespace Sys2Proof

/-- A byte: a symbol, a data byte, or an 8-bit field of a command word. -/
abbrev Byte := BitVec 8

/-- A word of the register window; also a command word. -/
abbrev Word := BitVec 32

/-- The index of a node in the NODE file (R111). -/
abbrev NodeId := BitVec 9

end Sys2Proof
end

