-- ==== Sys2Proof/Config.lean ====
section
/-! DEFINITION. What one implementation fixes: the parameters of rule R9 (00_scope.md) that are open or that a model
may take as arguments, and the window's base address (R61). A state carries them (log entry 1), so every statement
about all states is a statement about all parameter values. There is no free value in this model. -/

namespace Sys2Proof

/-- The parameters (R9, R61; U6, U7). -/
structure Params where
  /-- PBUF_BYTES, the size of the packed buffer in bytes; 1 to 2^28. -/
  pbufBytes : Nat
  /-- OBUF_BYTES, the size of the decode output buffer in bytes; 1 to 2^28. -/
  obufBytes : Nat
  /-- MAX_CODE_LEN, the longest code BUILD accepts; 1 to 255, and 255 for this hardware. -/
  maxCodeLen : Nat
  /-- HCC_BASE, where the platform puts the register window. -/
  hccBase : Nat
  deriving DecidableEq, Repr

/-- The ranges of rule R9. -/
abbrev Params.valid (p : Params) : Prop :=
  (1 ≤ p.pbufBytes ∧ p.pbufBytes ≤ 2 ^ 28) ∧ (1 ≤ p.obufBytes ∧ p.obufBytes ≤ 2 ^ 28) ∧
    (1 ≤ p.maxCodeLen ∧ p.maxCodeLen ≤ 255)

/-- DESIGN CHOICE (log entry 1): the parameters of `State.reset`, the sizes that 95_test_vectors.md works with, the
MAX_CODE_LEN of this hardware, and a window at address 0. -/
def Params.reference : Params := ⟨64, 64, 255, 0⟩

end Sys2Proof
end

