-- ==== Sys2Proof/Syntax.lean ====
section
/-! DEFINITION. The commands of the HCC (R76, 30_encoding.md), one constructor per row of spec/opcode_table.json, and
the reasons a word is no command (R71, R78). -/

namespace Sys2Proof

/-- A command with the fields its opcode uses. `sym` is the SYM field (for PBWR the data byte, R72); `aux` is the AUX
field, whose legal range `Instr.wellFormed` gives (R73). -/
inductive Instr where
  | nop
  | clear
  | errclr
  | setf (sym : Byte)
  | cnt (sym : Byte)
  | rdfreq (sym : Byte)
  | build
  | rdnode (aux : Byte)
  | rdlen (sym : Byte)
  | rdcode (sym aux : Byte)
  | encb
  | encs (sym : Byte)
  | encp (aux : Byte)
  | ence
  | pbwr (data : Byte)
  | pbrd
  | dec (aux : Byte)
  | ord
  deriving DecidableEq, Repr

/-- Why a command word is illegal, in the order in which R71 tests it. The hardware reports all of them as
ILLEGAL_COMMAND. -/
inductive Illegal where
  /-- RSV ≠ 0. -/
  | rsvNonzero
  /-- OPC is one of the reserved opcodes 0x12 to 0xFF (R77). -/
  | reservedOpcode
  /-- SYM ≠ 0 in a command that does not use SYM. -/
  | unusedSym
  /-- AUX ≠ 0 in a command that does not use AUX. -/
  | unusedAux
  /-- AUX is outside the range that R76 gives the opcode. -/
  | auxOutOfRange
  deriving DecidableEq, Repr

/-- One row of spec/opcode_table.json: the words of a command are those `w` with `w &&& mask = pattern`. -/
structure OpcodeRow where
  mnemonic : String
  pattern : Word
  mask : Word
  deriving DecidableEq, Repr

end Sys2Proof
end

