-- ==== Sys2Proof/WellFormed.lean ====
section
/-! DEFINITION. Which terms of `Instr` are commands: the AUX field is in the range that R76 gives the opcode
(R73, R78). Every value of SYM is legal (R72). -/

namespace Sys2Proof

/-- The AUX range of each command that has one (R73). -/
def Instr.wellFormed : Instr → Bool
  | .rdnode aux => decide (aux.toNat ≤ 2)
  | .rdcode _ aux => decide (aux.toNat ≤ 7)
  | .encp aux => decide (1 ≤ aux.toNat) && decide (aux.toNat ≤ 32)
  | .dec aux => decide (aux.toNat ≤ 1)
  | .nop | .clear | .errclr | .setf _ | .cnt _ | .rdfreq _ | .build | .rdlen _ | .encb | .encs _ | .ence | .pbwr _
  | .pbrd | .ord => true

end Sys2Proof
end

