-- ==== Sys2Proof/Decode.lean ====
section
/-! DEFINITION. The command format C32 (R70) and the opcode map (R76): the decoder, total on every 32-bit word and
rejecting by name (R71, R81), and after it the encoder and the rows of spec/opcode_table.json. -/

namespace Sys2Proof

/-- OPC, bits 7:0 (R70). -/
def fieldOpc (w : Word) : Byte := w.extractLsb' 0 8
/-- SYM, bits 15:8 (R70). -/
def fieldSym (w : Word) : Byte := w.extractLsb' 8 8
/-- AUX, bits 23:16 (R70). -/
def fieldAux (w : Word) : Byte := w.extractLsb' 16 8
/-- RSV, bits 31:24 (R70). -/
def fieldRsv (w : Word) : Byte := w.extractLsb' 24 8

/-- The opcodes of R76 are 0x00 to 0x11; 0x12 to 0xFF are reserved (R77). -/
def isOpcode (opc : Byte) : Bool := decide (opc.toNat ≤ 0x11)

/-- The opcodes whose SYM column of R76 is not "—". -/
def usesSym (opc : Byte) : Bool :=
  [0x03, 0x04, 0x05, 0x08, 0x09, 0x0B, 0x0E].contains opc.toNat

/-- The opcodes whose AUX column of R76 is not "—". -/
def usesAux (opc : Byte) : Bool :=
  [0x07, 0x09, 0x0C, 0x10].contains opc.toNat

/-- AUX_RANGE of R71, from the AUX column of R76, for the opcodes that use AUX. -/
def auxInRange (opc aux : Byte) : Bool :=
  match opc.toNat with
  | 0x07 => decide (aux.toNat ≤ 2)
  | 0x09 => decide (aux.toNat ≤ 7)
  | 0x0C => decide (1 ≤ aux.toNat) && decide (aux.toNat ≤ 32)
  | 0x10 => decide (aux.toNat ≤ 1)
  | _ => true

/-- The command of an opcode with its fields (R76). -/
def commandOf (opc sym aux : Byte) : Except Illegal Instr :=
  match opc.toNat with
  | 0x00 => .ok .nop
  | 0x01 => .ok .clear
  | 0x02 => .ok .errclr
  | 0x03 => .ok (.setf sym)
  | 0x04 => .ok (.cnt sym)
  | 0x05 => .ok (.rdfreq sym)
  | 0x06 => .ok .build
  | 0x07 => .ok (.rdnode aux)
  | 0x08 => .ok (.rdlen sym)
  | 0x09 => .ok (.rdcode sym aux)
  | 0x0A => .ok .encb
  | 0x0B => .ok (.encs sym)
  | 0x0C => .ok (.encp aux)
  | 0x0D => .ok .ence
  | 0x0E => .ok (.pbwr sym)
  | 0x0F => .ok .pbrd
  | 0x10 => .ok (.dec aux)
  | 0x11 => .ok .ord
  | _ => .error .reservedOpcode

/-- R71: the checks in its order, then the command. -/
def decode (w : Word) : Except Illegal Instr :=
  if fieldRsv w ≠ 0 then .error .rsvNonzero
  else if !isOpcode (fieldOpc w) then .error .reservedOpcode
  else if !usesSym (fieldOpc w) && fieldSym w != 0 then .error .unusedSym
  else if !usesAux (fieldOpc w) && fieldAux w != 0 then .error .unusedAux
  else if !auxInRange (fieldOpc w) (fieldAux w) then .error .auxOutOfRange
  else commandOf (fieldOpc w) (fieldSym w) (fieldAux w)

/-- The word with the given fields and RSV = 0 (R70, R82). -/
def assemble (opc sym aux : Byte) : Word := 0#8 ++ aux ++ sym ++ opc

/-- The command word of a command: unused fields and RSV are 0 (R82). -/
def encode : Instr → Word
  | .nop => assemble 0x00 0 0
  | .clear => assemble 0x01 0 0
  | .errclr => assemble 0x02 0 0
  | .setf sym => assemble 0x03 sym 0
  | .cnt sym => assemble 0x04 sym 0
  | .rdfreq sym => assemble 0x05 sym 0
  | .build => assemble 0x06 0 0
  | .rdnode aux => assemble 0x07 0 aux
  | .rdlen sym => assemble 0x08 sym 0
  | .rdcode sym aux => assemble 0x09 sym aux
  | .encb => assemble 0x0A 0 0
  | .encs sym => assemble 0x0B sym 0
  | .encp aux => assemble 0x0C 0 aux
  | .ence => assemble 0x0D 0 0
  | .pbwr data => assemble 0x0E data 0
  | .pbrd => assemble 0x0F 0 0
  | .dec aux => assemble 0x10 0 aux
  | .ord => assemble 0x11 0 0

/-- The AUX field of a command is in its opcode's range: the part of R71 that a term of `Instr` can fail. -/
def auxLegal : Instr → Bool
  | .rdnode aux => auxInRange 0x07 aux
  | .rdcode _ aux => auxInRange 0x09 aux
  | .encp aux => auxInRange 0x0C aux
  | .dec aux => auxInRange 0x10 aux
  | .nop | .clear | .errclr | .setf _ | .cnt _ | .rdfreq _ | .build | .rdlen _ | .encb | .encs _ | .ence | .pbwr _
  | .pbrd | .ord => true

/-- The row of spec/opcode_table.json that a command belongs to: mnemonic, match and mask. -/
def opcodeRow : Instr → OpcodeRow
  | .nop => ⟨"NOP", 0x00000000, 0xFFFFFFFF⟩
  | .clear => ⟨"CLEAR", 0x00000001, 0xFFFFFFFF⟩
  | .errclr => ⟨"ERRCLR", 0x00000002, 0xFFFFFFFF⟩
  | .setf _ => ⟨"SETF", 0x00000003, 0xFFFF00FF⟩
  | .cnt _ => ⟨"CNT", 0x00000004, 0xFFFF00FF⟩
  | .rdfreq _ => ⟨"RDFREQ", 0x00000005, 0xFFFF00FF⟩
  | .build => ⟨"BUILD", 0x00000006, 0xFFFFFFFF⟩
  | .rdnode _ => ⟨"RDNODE", 0x00000007, 0xFFFCFFFF⟩
  | .rdlen _ => ⟨"RDLEN", 0x00000008, 0xFFFF00FF⟩
  | .rdcode _ _ => ⟨"RDCODE", 0x00000009, 0xFFF800FF⟩
  | .encb => ⟨"ENCB", 0x0000000A, 0xFFFFFFFF⟩
  | .encs _ => ⟨"ENCS", 0x0000000B, 0xFFFF00FF⟩
  | .encp _ => ⟨"ENCP", 0x0000000C, 0xFF00FFFF⟩
  | .ence => ⟨"ENCE", 0x0000000D, 0xFFFFFFFF⟩
  | .pbwr _ => ⟨"PBWR", 0x0000000E, 0xFFFF00FF⟩
  | .pbrd => ⟨"PBRD", 0x0000000F, 0xFFFFFFFF⟩
  | .dec _ => ⟨"DEC", 0x00000010, 0xFFFEFFFF⟩
  | .ord => ⟨"ORD", 0x00000011, 0xFFFFFFFF⟩

/-- The instruction the decoder reads from an instruction whose bits are `w`, of which the table gives `nbits`. A
command is one 32-bit word (R80), so the table's bit n is the word's bit n; bits at or above `nbits` are 0. -/
def decodeTableWord (nbits w : Nat) : Option Instr :=
  if w % 2 ^ nbits < 2 ^ 32 then
    match decode (BitVec.ofNat 32 (w % 2 ^ nbits)) with
    | .ok i => some i
    | .error _ => none
  else none

end Sys2Proof
end

