-- ==== Sys2Proof/Machine/State.lean ====
section
/-! DEFINITION. The state of the HCC (R47), as plain data, the state after hard reset (R46), and the reasons a step
stops. -/

namespace Sys2Proof.Machine

open Sys2Proof

/-- STATUS.KIND: the result case of the session's BUILD (R30, R110). -/
inductive Kind where
  /-- No BUILD has succeeded in this session (BUILT = 0). -/
  | none
  /-- k = 0: no tree, no codes. -/
  | empty
  /-- k = 1: one leaf. -/
  | degenerate
  /-- k ≥ 2: the greedy construction. -/
  | general
  deriving DecidableEq, Repr

/-- The error codes 0 to 8 of R185; 9 to 255 are never raised (U11). -/
inductive ErrorCode where
  | none
  | illegalCommand
  | phaseError
  | freqOverflow
  | codeLengthOverflow
  | unknownSymbol
  | malformedEncodedData
  | capacityExceeded
  | addressRange
  deriving DecidableEq, Repr

/-- The two byte spaces (R50). -/
inductive Buffer where
  | pbuf
  | obuf
  deriving DecidableEq, Repr

/-- A byte space: (address, byte) pairs with strictly rising addresses. An address that is not listed was never
written since hard reset and has no value (R42, log entry 4): the list is the contents and the written-mask in one. -/
abbrev Memory := List Host.Cell

/-- An entry of NODE (R38). -/
structure Node where
  leaf : Bool
  sym : Byte
  nfreq : BitVec 40
  left : NodeId
  right : NodeId
  deriving DecidableEq, Repr

/-- An entry of CT (R39): LEN = 0 means absent; CODE is right-aligned. -/
structure CodeEntry where
  len : Byte
  code : BitVec 255
  deriving DecidableEq, Repr

/-- What a host access does. -/
inductive AccessKind where
  | read
  | write (value : Word)
  deriving DecidableEq, Repr

/-- A host access: the platform address, the width in bytes, and what it does. Only 4 bytes at a word-aligned offset
of the window are inside the interface (R51). -/
structure HostAccess where
  addr : Nat
  bytes : Nat
  kind : AccessKind
  deriving DecidableEq, Repr

/-- What the outside world can do to the HCC: an access by the host (R20) or an assertion of the reset input
(R210). -/
inductive HostInput where
  | access (a : HostAccess)
  | hardReset
  deriving DecidableEq, Repr

/-- Where a step stops with a fault. -/
inductive Fault where
  /-- A read of a buffer byte never written since hard reset: `UninitRead` of R55 and R57, a model fault (R202).
  Raised by the read of one byte, so by PBRD and DEC (and, in states no run reaches, ORD, ENCS and ENCP). Safe: the
  hardware goes on with an unspecified byte, and no claim can depend on it (U1). -/
  | uninitRead (buffer : Buffer) (addr : Nat)
  deriving DecidableEq, Repr

/-- Where a step has no meaning. -/
inductive Refusal where
  /-- An instruction that has no meaning yet; raised by no arm of `exec` now. Safe. -/
  | notModelled (mnemonic : String)
  /-- A host access of another width or alignment: `Refused(access)` of R51, a model fault (R202, U2). Raised by the
  host port. Safe: no claim is provable about a run that makes such an access. -/
  | hostAccess (a : HostAccess)
  deriving DecidableEq, Repr

/-- The machine (R47), with the hidden registers of R40 and R41, the parameters (log entry 1) and the host side of the
window (log entries 2 and 3). -/
structure State where
  /-- The parameters of R9; no step changes them. -/
  params : Params
  /-- CMD (R25). -/
  cmd : Word
  /-- OPA (R26). -/
  opa : Word
  /-- RES (R29). -/
  res : Word
  /-- STATUS.BUILT (R30). -/
  built : Bool
  /-- STATUS.KIND (R30). -/
  kind : Kind
  /-- STATUS.ENC_OPEN (R30). -/
  encOpen : Bool
  /-- STATUS.ENC_DONE (R30). -/
  encDone : Bool
  /-- STATUS.DEC_DONE (R30). -/
  decDone : Bool
  /-- STATUS.LAST_FAIL (R30). -/
  lastFail : Bool
  /-- STATUS.ERR_VALID (R30). -/
  errValid : Bool
  /-- STATUS.ERR_LOST (R30). -/
  errLost : Bool
  /-- ERR (R31). -/
  err : Word
  /-- ERRINFO (R32). -/
  errInfo : Word
  /-- TOTAL_BITS (R33). -/
  totalBits : BitVec 48
  /-- NSYM (R34). -/
  nsym : BitVec 9
  /-- NNODE (R34). -/
  nnode : BitVec 10
  /-- ROOT (R34). -/
  root : NodeId
  /-- ENC_BITS (R35). -/
  encBits : Word
  /-- DEC_BUDGET (R36). -/
  decBudget : Word
  /-- DEC_POS (R36). -/
  decPos : Word
  /-- OUT_LEN (R36). -/
  outLen : Word
  /-- FREQ[0..255] (R37). -/
  freq : Vector Word 256
  /-- NODE[0..510] (R38). -/
  node : Vector Node 511
  /-- CT[0..255] (R39). -/
  ct : Vector CodeEntry 256
  /-- HEAP[0..255] (R40); between commands, what the last BUILD left (log entry 6). -/
  heap : Vector NodeId 256
  /-- HSIZE (R40). -/
  hsize : BitVec 9
  /-- CUR (R41); between commands, what the last walk left (log entry 6). -/
  cur : NodeId
  /-- PBUF and PBUF_W (R42). -/
  pbuf : Memory
  /-- OBUF and OBUF_W (R42). -/
  obuf : Memory
  /-- The MODEL's own: the host inputs not yet taken, in issue order (R63). -/
  pending : List HostInput
  /-- The MODEL's own: the words that host reads returned, oldest first (R52). -/
  reads : List Word
  deriving DecidableEq, Repr

/-- Every field of an entry 0: what an invalid NODE entry holds at reset (log entry 7). -/
def Node.zero : Node := ⟨false, 0, 0, 0, 0⟩

/-- The absent code-table entry (R39). -/
def CodeEntry.absent : CodeEntry := ⟨0, 0⟩

/-- The state after hard reset, a function of the parameters (R46, R210). -/
def State.resetWith (p : Params) : State where
  params := p
  cmd := 0
  opa := 0
  res := 0
  built := false
  kind := .none
  encOpen := false
  encDone := false
  decDone := false
  lastFail := false
  errValid := false
  errLost := false
  err := 0
  errInfo := 0
  totalBits := 0
  nsym := 0
  nnode := 0
  root := 0
  encBits := 0
  decBudget := 0
  decPos := 0
  outLen := 0
  freq := Vector.replicate 256 0
  node := Vector.replicate 511 Node.zero
  ct := Vector.replicate 256 CodeEntry.absent
  heap := Vector.replicate 256 0
  hsize := 0
  cur := 0
  pbuf := []
  obuf := []
  pending := []
  reads := []

/-- The state after hard reset at the reference parameters (log entry 1), with no host input waiting. -/
def State.reset : State := State.resetWith Params.reference

end Sys2Proof.Machine
end

