-- ==== Sys2Proof/Machine/Flags.lean ====
section
/-! DEFINITION. STATUS as the read view of its fields (R30), the numbers of the error codes and the ERR word (R31,
R185), and the state preconditions of the commands (R86). There are no condition codes (R43). -/

namespace Sys2Proof.Machine

open Sys2Proof

/-- The number of a KIND in STATUS[2:1] (R30). -/
def kindBits : Kind → BitVec 2
  | .none => 0
  | .empty => 1
  | .degenerate => 2
  | .general => 3

/-- The STATUS word: bit 0 BUILT, 2:1 KIND, 3 ENC_OPEN, 4 ENC_DONE, 5 DEC_DONE, 6 LAST_FAIL, 7 ERR_VALID, 8 ERR_LOST,
31:9 zero (R30). -/
def State.statusWord (s : State) : Word :=
  0#23 ++ BitVec.ofBool s.errLost ++ BitVec.ofBool s.errValid ++ BitVec.ofBool s.lastFail ++
    BitVec.ofBool s.decDone ++ BitVec.ofBool s.encDone ++ BitVec.ofBool s.encOpen ++ kindBits s.kind ++
    BitVec.ofBool s.built

/-- The number of an error code (R185). -/
def errorNumber : ErrorCode → Byte
  | .none => 0
  | .illegalCommand => 1
  | .phaseError => 2
  | .freqOverflow => 3
  | .codeLengthOverflow => 4
  | .unknownSymbol => 5
  | .malformedEncodedData => 6
  | .capacityExceeded => 7
  | .addressRange => 8

/-- The ERR word of a failing command word: AUX, SYM, OPC of the word, then the code (R31, R187). -/
def errWord (w : Word) (e : ErrorCode) : Word :=
  fieldAux w ++ fieldSym w ++ fieldOpc w ++ errorNumber e

/-- The precondition table of R86. -/
def phaseOk (s : State) : Instr → Bool
  | .nop | .clear | .errclr | .rdfreq _ | .pbrd | .ord => true
  | .setf _ | .cnt _ => !s.built
  | .build => !s.built && !s.encOpen
  | .rdnode _ | .rdlen _ | .rdcode _ _ => s.built
  | .encb => !s.encOpen
  | .encs _ => s.encOpen && s.built
  | .encp _ | .ence => s.encOpen
  | .pbwr _ => !s.encOpen
  | .dec _ => s.built && !s.encOpen

end Sys2Proof.Machine
end

