-- ==== Sys2Proof/Machine/Operands.lean ====
section
/-! DEFINITION. Operand assembly (R74, R75) and the words that read commands return: fields are zero-extended, every
32-bit operand is OPA, entries of FREQ and CT are named by SYM, entries of NODE by OPA. -/

namespace Sys2Proof.Machine

open Sys2Proof

/-- zext_32 of a byte (R74, R92). -/
def zextByte (b : Byte) : Word := b.setWidth 32

/-- Entry SYM of a 256-entry register file (R75). -/
def entry {α : Type} (v : Vector α 256) (sym : Byte) : α := v[sym.toNat]'sym.isLt

/-- Write of entry SYM of a 256-entry register file. -/
def setEntry {α : Type} (v : Vector α 256) (sym : Byte) (x : α) : Vector α 256 := v.set sym.toNat x sym.isLt

/-- Entry n of NODE. The file has 511 entries; an index at or beyond 511 names none and reads as a zero entry, which
no command can reach (log entry 8). -/
def nodeAt (v : Vector Node 511) (n : Nat) : Node := (v[n]?).getD Node.zero

/-- OPA as an address, index or node id (R74, R92). -/
def State.opaIndex (s : State) : Nat := s.opa.toNat

/-- The size of PBUF in bits, the bound of R147 and R172. -/
def State.pbufBits (s : State) : Nat := 8 * s.params.pbufBytes

/-- The budget of DEC: TOTAL_BITS when AUX = 0, zext_48(OPA) when AUX = 1 (R172). -/
def decodeBudget (aux : Byte) (s : State) : Nat :=
  if aux = 0 then s.totalBits.toNat else s.opa.toNat

/-- The low L bits of a code value, most significant bit first: c[L − 1] down to c[0] (R146). -/
def codeBits {w : Nat} (c : BitVec w) : Nat → List Bool
  | 0 => []
  | l + 1 => c.getLsbD l :: codeBits c l

/-- The word that RDNODE returns for field selector f (R120): 0 is LEAF, 00000, RIGHT, LEFT, SYM; 1 is NFREQ[31:0];
2 is NFREQ[39:32]. -/
def nodeField (e : Node) (f : Byte) : Word :=
  if f = 0 then BitVec.ofBool e.leaf ++ 0#5 ++ e.right ++ e.left ++ e.sym
  else if f = 1 then e.nfreq.extractLsb' 0 32
  else (e.nfreq.extractLsb' 32 8).setWidth 32

/-- Word w of a code value: zext_256(CODE)[32w + 31 : 32w] (R138). -/
def codeWord (c : BitVec 255) (w : Byte) : Word :=
  (c.setWidth 256).extractLsb' (32 * w.toNat) 32

/-- ceil(n / 8), the bytes that n stream bits take (R12, R35). -/
def bytesFor (n : Nat) : Nat := (n + 7) / 8

end Sys2Proof.Machine
end

