-- ==== Sys2Proof/Machine/Ops.lean ====
section
/-! DEFINITION. The shared operations: the byte spaces and the bit stream over PBUF (R55 to R57), the reporting frame
(`ok` of R186, `raise` of R187, and the acknowledgement that undoes a report, R90), and the frame every command runs
in (R71, R86, R189). -/

namespace Sys2Proof.Machine

open Sys2Proof

/-! ### Byte spaces -/

/-- The byte at an address, if it was written since hard reset. -/
def Memory.read? : Memory → Nat → Option Byte
  | [], _ => none
  | c :: m, a => if c.1 = a then some c.2 else Memory.read? m a

/-- The written-mask of a byte space (R42). -/
def Memory.written (m : Memory) (a : Nat) : Bool := (m.read? a).isSome

/-- MemWrite of one byte (R55): the list stays in rising order of address. -/
def Memory.write : Memory → Nat → Byte → Memory
  | [], a, v => [(a, v)]
  | c :: m, a, v =>
    if a < c.1 then (a, v) :: c :: m
    else if a = c.1 then (a, v) :: m
    else c :: Memory.write m a v

/-- The canonical form: strictly rising addresses. A listed byte is a written byte and an unlisted address has no
value, so no entry equals what an unlisted address reads as. -/
def Memory.wf : Memory → Bool
  | [] => true
  | [_] => true
  | c :: d :: m => decide (c.1 < d.1) && Memory.wf (d :: m)

/-- Every listed address lies in a buffer of the given size. -/
def Memory.below (m : Memory) (size : Nat) : Bool := m.all fun c => decide (c.1 < size)

/-- MemRead of one byte (R55, R57): a byte never written raises the model fault `UninitRead`. -/
def memRead (b : Buffer) (m : Memory) (a : Nat) : Except Fault Byte :=
  match m.read? a with
  | some v => .ok v
  | none => .error (.uninitRead b a)

/-- MemWrite of consecutive bytes from an address upward (the commit loop of R176). -/
def Memory.writeAll : Memory → Nat → List Byte → Memory
  | m, _, [] => m
  | m, a, v :: vs => Memory.writeAll (m.write a v) (a + 1) vs

/-! ### The bit stream (R56) -/

/-- The bit of a byte that stream bit p names: bit 7 − (p mod 8). -/
def streamBitOf (v : Byte) (p : Nat) : Bool := v.getLsbD (7 - p % 8)

/-- The byte with stream bit p's bit set to b and its other bits kept. -/
def withStreamBit (v : Byte) (p : Nat) (b : Bool) : Byte :=
  (v &&& ~~~(1#8 <<< (7 - p % 8))) ||| ((BitVec.ofBool b).setWidth 8 <<< (7 - p % 8))

/-- BitRead(p). -/
def bitRead (m : Memory) (p : Nat) : Except Fault Bool :=
  match memRead .pbuf m (p / 8) with
  | .ok v => .ok (streamBitOf v p)
  | .error e => .error e

/-- BitWrite(p, b): the first bit of a byte writes the whole byte, its other seven bits 0. -/
def bitWrite (m : Memory) (p : Nat) (b : Bool) : Except Fault Memory :=
  if p % 8 = 0 then .ok (m.write (p / 8) ((BitVec.ofBool b).setWidth 8 <<< 7))
  else
    match memRead .pbuf m (p / 8) with
    | .ok v => .ok (m.write (p / 8) (withStreamBit v p b))
    | .error e => .error e

/-- Append (R146), with the code given as its bits, the first to be packed first: BitWrite at the end of the stream,
then one more bit. -/
def appendBits : Memory → Nat → List Bool → Except Fault Memory
  | m, _, [] => .ok m
  | m, p, b :: bs =>
    match bitWrite m p b with
    | .ok m' => appendBits m' (p + 1) bs
    | .error e => .error e

/-! ### The reporting frame -/

/-- `ok` (R186): LAST_FAIL <- 0, the report kept. -/
def State.ok (s : State) : State := { s with lastFail := false }

/-- `raise E(info)` for the failing command word w (R187). This is the whole of what the hardware does instead of
taking an exception: it saves no state and transfers no control (R192). -/
def State.raise (w : Word) (e : ErrorCode) (info : Word) (s : State) : State :=
  { s with
    lastFail := true
    errLost := s.errLost || s.errValid
    err := errWord w e
    errInfo := info
    errValid := true }

/-- The acknowledgement of a report (R90, R193): ERR, ERRINFO, ERR_VALID and ERR_LOST are cleared. -/
def State.clearReport (s : State) : State :=
  { s with err := 0, errInfo := 0, errValid := false, errLost := false }

/-- A command that succeeds, leaving `s` but for the frame. -/
def done (s : State) : Host.Outcome State Fault Refusal := .next s.ok

/-- A command that fails with error `e`, leaving `s` but for the frame: R187 with the failing word of the command
(log entry 9). -/
def fail (i : Instr) (e : ErrorCode) (info : Word) (s : State) : Host.Outcome State Fault Refusal :=
  .next (s.raise (encode i) e info)

/-- The checks in front of every command's own rule, in the order of R189: an AUX outside the opcode's range fails
with ILLEGAL_COMMAND, whose ERRINFO is the command word (R71, R185); a precondition of R86 that does not hold fails
with PHASE_ERROR, whose ERRINFO is STATUS at issue (R86, R185). -/
def guarded (i : Instr) (s : State) (rule : State → Host.Outcome State Fault Refusal) :
    Host.Outcome State Fault Refusal :=
  if !auxLegal i then fail i .illegalCommand (encode i) s
  else if !phaseOk s i then fail i .phaseError s.statusWord s
  else rule s

/-- A word that is no command: ILLEGAL_COMMAND with the whole word as ERRINFO (R71, R77, R78, R185). -/
def illegalWord (w : Word) (s : State) : Host.Outcome State Fault Refusal :=
  .next (s.raise w .illegalCommand w)

/-- A read command's success: RES <- v (R29, R87). -/
def State.setRes (v : Word) (s : State) : State := { s with res := v }

/-- FREQ[sym] <- v (R103, R104). -/
def State.setFreq (sym : Byte) (v : Word) (s : State) : State := { s with freq := setEntry s.freq sym v }

/-- The end of an encode session in failure (R147): the bytes already packed stay. -/
def State.abortEncode (s : State) : State := { s with encOpen := false, encDone := false, encBits := 0 }

/-- The stream after an Append: PBUF and the new ENC_BITS (R146). -/
def State.setStream (m : Memory) (bits : Nat) (s : State) : State :=
  { s with pbuf := m, encBits := BitVec.ofNat 32 bits }

end Sys2Proof.Machine
end

