-- ==== Sys2Proof/Machine/CodeTable.lean ====
section
/-! DEFINITION. The code-table generator (R130 to R134) and the commands RDLEN (R137) and RDCODE (R138). A code is
derived with exact numbers and narrowed to the fields of CT when it is stored; the check of R134 is made on the exact
length. -/

namespace Sys2Proof.Machine

open Sys2Proof

/-- A derived code: its length and its value (R131), before it is stored in CT. -/
structure PathCode where
  len : Nat
  code : Nat
  deriving DecidableEq, Repr

/-- The derived code of a symbol; (0, 0) where there is none. -/
def pathAt (table : Vector PathCode 256) (sym : Nat) : PathCode := (table[sym]?).getD ⟨0, 0⟩

/-- `walk(n, code, len)` of R131: a leaf's accumulated path is its symbol's code; a left step appends 0, a right step
1. A child's id is below its parent's (R117), so a path has at most 511 nodes; that bounds the recursion (log
entry 10). -/
def walkTree (node : Vector Node 511) : Nat → Nat → Nat → Nat → Vector PathCode 256 → Vector PathCode 256
  | 0, _, _, _, table => table
  | fuel + 1, n, code, len, table =>
    if (nodeAt node n).leaf then setEntry table (nodeAt node n).sym ⟨len, code⟩
    else
      walkTree node fuel (nodeAt node n).right.toNat (2 * code + 1) (len + 1)
        (walkTree node fuel (nodeAt node n).left.toNat (2 * code) (len + 1) table)

/-- `Derive(root)` of R131: from a table with every entry absent. -/
def derive (node : Vector Node 511) (root : Nat) : Vector PathCode 256 :=
  walkTree node 511 root 0 0 (Vector.replicate 256 ⟨0, 0⟩)

/-- The least symbol whose code is longer than MAX_CODE_LEN, if there is one (R134). -/
def firstTooLong (maxLen : Nat) (table : Vector PathCode 256) : Option Nat :=
  table.toList.findIdx? fun e => decide (maxLen < e.len)

/-- The derived table in the fields of CT (R39). -/
def storeTable (table : Vector PathCode 256) : Vector CodeEntry 256 :=
  table.map fun e => ⟨BitVec.ofNat 8 e.len, BitVec.ofNat 255 e.code⟩

/-- The code table of a tree that is one leaf: LEN 1, CODE 0 for its symbol (R132). -/
def degenerateTable (sym : Byte) : Vector CodeEntry 256 :=
  setEntry (Vector.replicate 256 CodeEntry.absent) sym ⟨1, 0⟩

/-- Σ FREQ[s] × CT[s].LEN over two lists of entries (R133). -/
def weightedSum : List Word → List CodeEntry → Nat
  | f :: fs, e :: es => f.toNat * e.len.toNat + weightedSum fs es
  | _, _ => 0

/-- TOTAL_BITS (R133): the exact sum, which fits in 48 bits (R10). -/
def totalBitsOf (freq : Vector Word 256) (ct : Vector CodeEntry 256) : BitVec 48 :=
  BitVec.ofNat 48 (weightedSum freq.toList ct.toList)

/-- RDLEN (R137): RES <- zext_32(CT[s].LEN). -/
def execRdlen (sym : Byte) (s : State) : Host.Outcome State Fault Refusal :=
  guarded (.rdlen sym) s fun s => done (s.setRes (zextByte (entry s.ct sym).len))

/-- RDCODE (R138): word AUX of the zero-extended code value. -/
def execRdcode (sym aux : Byte) (s : State) : Host.Outcome State Fault Refusal :=
  guarded (.rdcode sym aux) s fun s => done (s.setRes (codeWord (entry s.ct sym).code aux))

end Sys2Proof.Machine
end

