-- ==== Sys2Proof/Machine/Decoder.lean ====
section
/-! DEFINITION. The bit reader and tree-walker decoder: the walk (R170 to R174) and the commands DEC (R176) and ORD
(R177). -/

namespace Sys2Proof.Machine

open Sys2Proof

/-- How a walk ends (R173), with the walk state CUR it leaves (R41): all bits consumed at the root, with the output;
a failure with its error and DEC_POS; or the model fault of a read of a byte never written (R55). -/
inductive WalkResult where
  | decoded (out : List Byte) (cur : NodeId)
  | failed (e : ErrorCode) (pos : Nat) (cur : NodeId)
  | faulted (f : Fault)
  deriving DecidableEq, Repr

/-- The child that bit b leads to (R171). -/
def childOf (e : Node) (b : Bool) : NodeId := if b then e.right else e.left

/-- `Walk` of R173: `n` bits are still to be read, the next is stream bit `p`; `cur` and `out` are its variables. A
KIND that is neither EMPTY nor DEGENERATE takes the general branch. -/
def walk (s : State) : Nat → Nat → NodeId → List Byte → WalkResult
  | 0, p, cur, out => if cur ≠ s.root then .failed .malformedEncodedData p cur else .decoded out cur
  | n + 1, p, cur, out =>
    if s.kind = .empty then .failed .malformedEncodedData p cur
    else
      match bitRead s.pbuf p with
      | .error f => .faulted f
      | .ok b =>
        if s.kind = .degenerate then
          if b then .failed .malformedEncodedData (p + 1) cur
          else if out.length = s.params.obufBytes then .failed .capacityExceeded (p + 1) cur
          else walk s n (p + 1) cur (out ++ [(nodeAt s.node 0).sym])
        else
          if (nodeAt s.node (childOf (nodeAt s.node cur.toNat) b).toNat).leaf then
            if out.length = s.params.obufBytes then
              .failed .capacityExceeded (p + 1) (childOf (nodeAt s.node cur.toNat) b)
            else
              walk s n (p + 1) s.root
                (out ++ [(nodeAt s.node (childOf (nodeAt s.node cur.toNat) b).toNat).sym])
          else walk s n (p + 1) (childOf (nodeAt s.node cur.toNat) b) out

/-- `DEC_DONE <- 0; OUT_LEN <- 0`, the writes that come before DEC's entry check (R176). -/
def State.beginDecode (s : State) : State := { s with decDone := false, outLen := 0 }

/-- A walk that failed at `pos` (R174, R176): DEC_BUDGET and DEC_POS are set, and CUR holds the walk's last state. -/
def State.setWalk (budget pos : Nat) (cur : NodeId) (s : State) : State :=
  { s with decBudget := BitVec.ofNat 32 budget, decPos := BitVec.ofNat 32 pos, cur := cur }

/-- The commit of a walk that succeeded (R175, R176). -/
def State.commitDecode (budget : Nat) (out : List Byte) (cur : NodeId) (s : State) : State :=
  { s.setWalk budget budget cur with
    obuf := s.obuf.writeAll 0 out
    outLen := BitVec.ofNat 32 out.length
    decDone := true }

/-- DEC with its budget known (R176): `i` is the command being run. -/
def decodeBits (i : Instr) (budget : Nat) (s : State) : Host.Outcome State Fault Refusal :=
  if budget > s.pbufBits then
    fail i .capacityExceeded (BitVec.ofNat 32 (min budget 0xFFFFFFFF)) s.beginDecode
  else
    match walk s budget 0 s.root [] with
    | .decoded out cur => done (s.commitDecode budget out cur)
    | .failed e pos cur => fail i e (BitVec.ofNat 32 pos) (s.beginDecode.setWalk budget pos cur)
    | .faulted f => .fault f

/-- DEC (R176): decode `budget` bits of PBUF into OBUF. -/
def execDec (aux : Byte) (s : State) : Host.Outcome State Fault Refusal :=
  guarded (.dec aux) s fun s => decodeBits (.dec aux) (decodeBudget aux s) s

/-- ORD (R177): RES <- the OBUF byte at index OPA, below OUT_LEN. -/
def execOrd (s : State) : Host.Outcome State Fault Refusal :=
  guarded .ord s fun s =>
    if s.opaIndex ≥ s.outLen.toNat then fail .ord .addressRange s.opa s
    else
      match memRead .obuf s.obuf s.opaIndex with
      | .ok v => done (s.setRes (zextByte v))
      | .error f => .fault f

end Sys2Proof.Machine
end

