-- ==== Sys2Proof/Machine/Frequency.lean ====
section
/-! DEFINITION. The frequency table commands SETF, CNT and RDFREQ (41_frequency.md). -/

namespace Sys2Proof.Machine

open Sys2Proof

/-- SETF (R103): FREQ[s] <- OPA. -/
def execSetf (sym : Byte) (s : State) : Host.Outcome State Fault Refusal :=
  guarded (.setf sym) s fun s => done (s.setFreq sym s.opa)

/-- CNT (R104): one more occurrence; a frequency of 2^32 − 1 fails and is unchanged (R102). -/
def execCnt (sym : Byte) (s : State) : Host.Outcome State Fault Refusal :=
  guarded (.cnt sym) s fun s =>
    if entry s.freq sym = 0xFFFFFFFF then fail (.cnt sym) .freqOverflow (zextByte sym) s
    else done (s.setFreq sym (entry s.freq sym + 1))

/-- RDFREQ (R105): RES <- FREQ[s]. -/
def execRdfreq (sym : Byte) (s : State) : Host.Outcome State Fault Refusal :=
  guarded (.rdfreq sym) s fun s => done (s.setRes (entry s.freq sym))

end Sys2Proof.Machine
end

