-- ==== Sys2Proof/Machine/Packer.lean ====
section
/-! DEFINITION. The bit packer and the encode session: ENCB, ENCS, ENCP, ENCE, PBWR and PBRD (44_bit_packer.md). -/

namespace Sys2Proof.Machine

open Sys2Proof

/-- The part that ENCS and ENCP share (R146, R147): `need` is computed before any abort (C11); too many bits abort the
session with CAPACITY_EXCEEDED(need); otherwise the bits are appended. `i` is the command being run. -/
def packBits (i : Instr) (bits : List Bool) (s : State) : Host.Outcome State Fault Refusal :=
  if s.encBits.toNat + bits.length > s.pbufBits then
    fail i .capacityExceeded (BitVec.ofNat 32 (s.encBits.toNat + bits.length)) s.abortEncode
  else
    match appendBits s.pbuf s.encBits.toNat bits with
    | .ok m => done (s.setStream m (s.encBits.toNat + bits.length))
    | .error e => .fault e

/-- ENCB (R148): open an encode session. -/
def execEncb (s : State) : Host.Outcome State Fault Refusal :=
  guarded .encb s fun s => done { s with encOpen := true, encDone := false, encBits := 0 }

/-- ENCS (R149): encode one symbol through the code table; a symbol with no entry aborts the session. -/
def execEncs (sym : Byte) (s : State) : Host.Outcome State Fault Refusal :=
  guarded (.encs sym) s fun s =>
    if (entry s.ct sym).len = 0 then fail (.encs sym) .unknownSymbol (zextByte sym) s.abortEncode
    else packBits (.encs sym) (codeBits (entry s.ct sym).code (entry s.ct sym).len.toNat) s

/-- ENCP (R150): pack the low AUX bits of OPA; the bits above are ignored. -/
def execEncp (aux : Byte) (s : State) : Host.Outcome State Fault Refusal :=
  guarded (.encp aux) s fun s => packBits (.encp aux) (codeBits s.opa aux.toNat) s

/-- ENCE (R151): close the encode session; ENC_BITS is kept and no PBUF byte is written. -/
def execEnce (s : State) : Host.Outcome State Fault Refusal :=
  guarded .ence s fun s => done { s with encOpen := false, encDone := true }

/-- PBWR (R152): store the data byte at PBUF address OPA; ENC_DONE is cleared. -/
def execPbwr (data : Byte) (s : State) : Host.Outcome State Fault Refusal :=
  guarded (.pbwr data) s fun s =>
    if s.opaIndex ≥ s.params.pbufBytes then fail (.pbwr data) .addressRange s.opa s
    else done { s with pbuf := s.pbuf.write s.opaIndex data, encDone := false }

/-- PBRD (R153): RES <- the PBUF byte at address OPA. -/
def execPbrd (s : State) : Host.Outcome State Fault Refusal :=
  guarded .pbrd s fun s =>
    if s.opaIndex ≥ s.params.pbufBytes then fail .pbrd .addressRange s.opa s
    else
      match memRead .pbuf s.pbuf s.opaIndex with
      | .ok v => done (s.setRes (zextByte v))
      | .error e => .fault e

end Sys2Proof.Machine
end

