-- ==== Sys2Proof/Machine/Session.lean ====
section
/-! DEFINITION. The session commands NOP, CLEAR and ERRCLR (40_session.md). -/

namespace Sys2Proof.Machine

open Sys2Proof

/-- NOP (R88): only the frame effect LAST_FAIL <- 0. -/
def execNop (s : State) : Host.Outcome State Fault Refusal :=
  guarded .nop s done

/-- The session state at the start of a session (R89). NODE, HEAP, HSIZE and CUR keep their now invalid contents; CMD,
OPA, RES and the buffers are unchanged (R212). -/
def State.clearSession (s : State) : State :=
  { s with
    freq := Vector.replicate 256 0
    ct := Vector.replicate 256 CodeEntry.absent
    built := false
    kind := .none
    nsym := 0
    nnode := 0
    root := 0
    totalBits := 0
    encOpen := false
    encDone := false
    encBits := 0
    decDone := false
    decBudget := 0
    decPos := 0
    outLen := 0 }

/-- CLEAR (R89): a new session, with no error report. -/
def execClear (s : State) : Host.Outcome State Fault Refusal :=
  guarded .clear s fun s => done s.clearSession.clearReport

/-- ERRCLR (R90): acknowledge the error report. -/
def execErrclr (s : State) : Host.Outcome State Fault Refusal :=
  guarded .errclr s fun s => done s.clearReport

end Sys2Proof.Machine
end

