-- ==== Sys2Proof/Machine/Heap.lean ====
section
/-! DEFINITION. The priority queue of the tree builder: the array HEAP as a binary min-heap of node ids under the key
(NFREQ, node id) (R112). The loops of `insert` and `removeMin` move one level of the array a pass, so HSIZE passes are
enough for either; that number bounds the recursion (log entry 10). -/

namespace Sys2Proof.Machine

open Sys2Proof

/-- The registers BUILD works on: NODE, HEAP, HSIZE and the next node id. -/
structure Builder where
  node : Vector Node 511
  heap : Vector NodeId 256
  hsize : Nat
  next : Nat
  deriving DecidableEq, Repr

/-- The strict total order of the queue (R112). -/
def less (node : Vector Node 511) (a b : NodeId) : Bool :=
  decide ((nodeAt node a.toNat).nfreq < (nodeAt node b.toNat).nfreq) ||
    (decide ((nodeAt node a.toNat).nfreq = (nodeAt node b.toNat).nfreq) && decide (a < b))

/-- HEAP[i]. -/
def heapAt (heap : Vector NodeId 256) (i : Nat) : NodeId := (heap[i]?).getD 0

/-- swap(HEAP[i], HEAP[j]). -/
def heapSwap (heap : Vector NodeId 256) (i j : Nat) : Vector NodeId 256 :=
  (heap.setIfInBounds i (heapAt heap j)).setIfInBounds j (heapAt heap i)

/-- The loop of `insert` from position i: swap with the parent (i − 1) >> 1 while the entry is less (R112). -/
def siftUp (node : Vector Node 511) : Nat → Vector NodeId 256 → Nat → Vector NodeId 256
  | 0, heap, _ => heap
  | fuel + 1, heap, i =>
    if i = 0 then heap
    else if less node (heapAt heap i) (heapAt heap ((i - 1) / 2)) then
      siftUp node fuel (heapSwap heap i ((i - 1) / 2)) ((i - 1) / 2)
    else heap

/-- `insert(n)` of R112. -/
def Builder.insert (b : Builder) (n : NodeId) : Builder :=
  { b with heap := siftUp b.node b.hsize (b.heap.setIfInBounds b.hsize n) b.hsize, hsize := b.hsize + 1 }

/-- The position of the least of HEAP[i] and its children below `size` (R112). -/
def leastChild (node : Vector Node 511) (heap : Vector NodeId 256) (size i : Nat) : Nat :=
  let l := 2 * i + 1
  let r := 2 * i + 2
  let m := if l < size ∧ less node (heapAt heap l) (heapAt heap i) = true then l else i
  if r < size ∧ less node (heapAt heap r) (heapAt heap m) = true then r else m

/-- The loop of `removeMin` from position i: swap with the lesser child while there is one (R112). -/
def siftDown (node : Vector Node 511) (size : Nat) : Nat → Vector NodeId 256 → Nat → Vector NodeId 256
  | 0, heap, _ => heap
  | fuel + 1, heap, i =>
    if leastChild node heap size i = i then heap
    else siftDown node size fuel (heapSwap heap i (leastChild node heap size i)) (leastChild node heap size i)

/-- The top of the queue, what `removeMin` returns (R112). -/
def Builder.top (b : Builder) : NodeId := heapAt b.heap 0

/-- The queue after `removeMin()` (R112). -/
def Builder.pop (b : Builder) : Builder :=
  { b with
    heap := siftDown b.node (b.hsize - 1) b.hsize (b.heap.setIfInBounds 0 (heapAt b.heap (b.hsize - 1))) 0
    hsize := b.hsize - 1 }

end Sys2Proof.Machine
end

