-- ==== Sys2Proof/Machine/Tree.lean ====
section
/-! DEFINITION. The code tree builder: the merge loop (R111 to R116) and the commands BUILD (R119) and RDNODE
(R120). -/

namespace Sys2Proof.Machine

open Sys2Proof

/-- The node with id n is written (R114). -/
def Builder.setNode (b : Builder) (n : Nat) (e : Node) : Builder := { b with node := b.node.setIfInBounds n e }

/-- The leaf of a present symbol (R113, R114). -/
def leafNode (sym : Byte) (f : Word) : Node := ⟨true, sym, f.setWidth 40, 0, 0⟩

/-- The internal node over two nodes: NFREQ is the sum of the children's, the first is LEFT (R113, R115). -/
def internalNode (node : Vector Node 511) (a b : NodeId) : Node :=
  ⟨false, 0, (nodeAt node a.toNat).nfreq + (nodeAt node b.toNat).nfreq, a, b⟩

/-- NODE[id] <- e; insert(id); id = id + 1 (R114). -/
def Builder.addNode (b : Builder) (e : Node) : Builder :=
  { ((b.setNode b.next e).insert (BitVec.ofNat 9 b.next)) with next := b.next + 1 }

/-- The first loop of R114, over the frequencies of the symbols from `sym` upward: a leaf for each present symbol, in
ascending order of symbol (R111). -/
def loadLeaves : List Word → Nat → Builder → Builder
  | [], _, b => b
  | f :: fs, sym, b => loadLeaves fs (sym + 1) (if f ≠ 0 then b.addNode (leafNode (BitVec.ofNat 8 sym) f) else b)

/-- One pass of the merge loop of R114: the first node removed becomes LEFT, the second RIGHT (R115). -/
def Builder.merge (b : Builder) : Builder :=
  b.pop.pop.addNode (internalNode b.node b.top b.pop.top)

/-- `while HSIZE > 1` of R114, at most `fuel` passes. -/
def mergeLoop : Nat → Builder → Builder
  | 0, b => b
  | fuel + 1, b => if b.hsize ≤ 1 then b else mergeLoop fuel b.merge

/-- The builder after the merge loop, from the registers of `s`: HSIZE <- 0, id = 0, the leaves, the merges. There are
at most 256 leaves, so 256 passes are enough (log entry 10). -/
def buildTree (s : State) : Builder :=
  mergeLoop 256 (loadLeaves s.freq.toList 0 ⟨s.node, s.heap, 0, 0⟩)

/-- k, the number of symbols with a non-zero frequency (R110). -/
def symbolCount (freq : Vector Word 256) : Nat := freq.toList.countP fun f => f != 0

/-- The least symbol with a non-zero frequency: for k = 1 the only one (R119). -/
def firstSymbol (freq : Vector Word 256) : Byte := BitVec.ofNat 8 (freq.toList.findIdx fun f => f != 0)

/-- The registers a successful BUILD writes (R119), from the tree's nodes, the kind, k, NNODE, ROOT and the code
table. -/
def State.setTree (node : Vector Node 511) (kind : Kind) (k nnode : Nat) (root : NodeId)
    (ct : Vector CodeEntry 256) (s : State) : State :=
  { s with
    node := node
    ct := ct
    totalBits := totalBitsOf s.freq ct
    kind := kind
    nsym := BitVec.ofNat 9 k
    nnode := BitVec.ofNat 10 nnode
    root := root
    built := true }

/-- The hidden queue registers as BUILD's merge loop leaves them (R40, log entry 6). -/
def State.setQueue (b : Builder) (s : State) : State := { s with heap := b.heap, hsize := BitVec.ofNat 9 b.hsize }

/-- `Derive(root)` on the builder's tree, whose root is the one node left in the queue (R114, R131). -/
def Builder.table (b : Builder) : Vector PathCode 256 := derive b.node b.top.toNat

/-- The end of a GENERAL build (R119): a code longer than MAX_CODE_LEN fails with CODE_LENGTH_OVERFLOW (R134), and then
only the invalid NODE entries and the queue hold anything new (R187); otherwise the tree and the table are stored. -/
def finishBuild (b : Builder) (s : State) : Host.Outcome State Fault Refusal :=
  match firstTooLong s.params.maxCodeLen b.table with
  | some sym =>
    fail .build .codeLengthOverflow (0#16 ++ BitVec.ofNat 8 (pathAt b.table sym).len ++ BitVec.ofNat 8 sym)
      { s.setQueue b.pop with node := b.node }
  | none =>
    done ((s.setQueue b.pop).setTree b.node .general (symbolCount s.freq) (2 * symbolCount s.freq - 1) b.top
      (storeTable b.table))

/-- BUILD (R119): the three cases of R110. -/
def execBuild (s : State) : Host.Outcome State Fault Refusal :=
  guarded .build s fun s =>
    if symbolCount s.freq = 0 then
      done (s.setTree s.node .empty 0 0 0 (Vector.replicate 256 CodeEntry.absent))
    else if symbolCount s.freq = 1 then
      done (s.setTree
        (s.node.setIfInBounds 0 (leafNode (firstSymbol s.freq) (entry s.freq (firstSymbol s.freq))))
        .degenerate 1 1 0 (degenerateTable (firstSymbol s.freq)))
    else finishBuild (buildTree s) s

/-- RDNODE (R120): one field word of node OPA. -/
def execRdnode (aux : Byte) (s : State) : Host.Outcome State Fault Refusal :=
  guarded (.rdnode aux) s fun s =>
    if s.opaIndex ≥ s.nnode.toNat then fail (.rdnode aux) .addressRange s.opa s
    else done (s.setRes (nodeField (nodeAt s.node s.opaIndex) aux))

end Sys2Proof.Machine
end

