-- ==== Sys2Proof/Machine/Dispatch.lean ====
section
/-! DEFINITION. One arm per command (R76): its meaning. -/

namespace Sys2Proof.Machine

open Sys2Proof

def exec (i : Instr) (s : State) : Host.Outcome State Fault Refusal :=
  match i with
  | .nop => Sys2Proof.Machine.execNop s
  | .clear => Sys2Proof.Machine.execClear s
  | .errclr => Sys2Proof.Machine.execErrclr s
  | .setf sym => Sys2Proof.Machine.execSetf sym s
  | .cnt sym => Sys2Proof.Machine.execCnt sym s
  | .rdfreq sym => Sys2Proof.Machine.execRdfreq sym s
  | .build => Sys2Proof.Machine.execBuild s
  | .rdnode aux => Sys2Proof.Machine.execRdnode aux s
  | .rdlen sym => Sys2Proof.Machine.execRdlen sym s
  | .rdcode sym aux => Sys2Proof.Machine.execRdcode sym aux s
  | .encb => Sys2Proof.Machine.execEncb s
  | .encs sym => Sys2Proof.Machine.execEncs sym s
  | .encp aux => Sys2Proof.Machine.execEncp aux s
  | .ence => Sys2Proof.Machine.execEnce s
  | .pbwr data => Sys2Proof.Machine.execPbwr data s
  | .pbrd => Sys2Proof.Machine.execPbrd s
  | .dec aux => Sys2Proof.Machine.execDec aux s
  | .ord => Sys2Proof.Machine.execOrd s

end Sys2Proof.Machine
end

