-- ==== Sys2Proof/Machine/HostPort.lean ====
section
/-! DEFINITION. The host register window (R22, R51 to R54): its map, reads, writes, and the command that a write to CMD
runs. -/

namespace Sys2Proof.Machine

open Sys2Proof

/-- The identification word (R27). -/
def idWord : Word := 0x48434301

/-- CAP2: MAX_CODE_LEN, FREQ_W = 32, TB_W = 48, zero (R28). -/
def cap2Word (p : Params) : Word := 0#8 ++ 48#8 ++ 32#8 ++ BitVec.ofNat 8 p.maxCodeLen

/-- A host read of the register at a word-aligned offset (R22, R52); reserved offsets read 0 (R53). -/
def readReg (s : State) (offset : Nat) : Word :=
  match offset with
  | 0x000 => idWord
  | 0x004 => BitVec.ofNat 32 s.params.pbufBytes
  | 0x008 => BitVec.ofNat 32 s.params.obufBytes
  | 0x00C => cap2Word s.params
  | 0x010 => s.cmd
  | 0x014 => s.opa
  | 0x018 => s.res
  | 0x01C => s.statusWord
  | 0x020 => s.err
  | 0x024 => s.errInfo
  | 0x028 => s.totalBits.extractLsb' 0 32
  | 0x02C => (s.totalBits.extractLsb' 32 16).setWidth 32
  | 0x030 => s.nsym.setWidth 32
  | 0x034 => s.nnode.setWidth 32
  | 0x038 => s.root.setWidth 32
  | 0x03C => s.encBits
  | 0x040 => BitVec.ofNat 32 (bytesFor s.encBits.toNat)
  | 0x044 => s.decBudget
  | 0x048 => s.decPos
  | 0x04C => s.outLen
  | _ => 0

/-- Execute a command word (R71): the command it decodes to, or ILLEGAL_COMMAND. -/
def runCommand (w : Word) (s : State) : Host.Outcome State Fault Refusal :=
  match decode w with
  | .ok i => exec i s
  | .error _ => illegalWord w s

/-- A host write at a word-aligned offset: CMD stores the word and executes it, OPA stores it, every other offset
ignores it (R23, R53, R54). -/
def writeReg (offset : Nat) (v : Word) (s : State) : Host.Outcome State Fault Refusal :=
  match offset with
  | 0x010 => runCommand v { s with cmd := v }
  | 0x014 => .next { s with opa := v }
  | _ => .next s

/-- The access touches a byte of the window, the 4096 bytes at HCC_BASE (R22, R61). -/
def touchesWindow (p : Params) (a : HostAccess) : Bool :=
  decide (a.addr < p.hccBase + 4096) && decide (p.hccBase < a.addr + max a.bytes 1)

/-- The access is inside the interface: 4 bytes, at an offset of the window whose bits 1:0 are 0 (R51). -/
def admitted (p : Params) (a : HostAccess) : Bool :=
  decide (a.bytes = 4) && decide (p.hccBase ≤ a.addr) && decide ((a.addr - p.hccBase) % 4 = 0)

/-- One host access: elsewhere it is no access to the HCC and nothing happens; one outside the interface is refused
(R51, log entry 5); a read answers with the register and changes nothing else (R52); a write is `writeReg`. -/
def hostAccess (a : HostAccess) (s : State) : Host.Outcome State Fault Refusal :=
  if !touchesWindow s.params a then .next s
  else if !admitted s.params a then .refused (.hostAccess a)
  else
    match a.kind with
    | .read => .next { s with reads := s.reads ++ [readReg s (a.addr - s.params.hccBase)] }
    | .write v => writeReg (a.addr - s.params.hccBase) v s

/-- Hard reset (R210): the reset state at the same parameters; what the host still has to issue and what it has read
are the host's own (log entry 13). -/
def hardReset (s : State) : State :=
  { State.resetWith s.params with pending := s.pending, reads := s.reads }

/-- One host input. -/
def takeInput (input : HostInput) (s : State) : Host.Outcome State Fault Refusal :=
  match input with
  | .access a => hostAccess a s
  | .hardReset => .next (hardReset s)

/-- The host write of a command word to CMD. -/
def cmdWrite (p : Params) (w : Word) : HostInput := .access ⟨p.hccBase + 0x010, 4, .write w⟩

/-- The host write of a word to OPA. -/
def opaWrite (p : Params) (v : Word) : HostInput := .access ⟨p.hccBase + 0x014, 4, .write v⟩

end Sys2Proof.Machine
end

