-- ==== Sys2Proof/Machine/Step.lean ====
section
/-! DEFINITION. The one step relation of the model, the host's next input (R20); and the placing of a command word where
the next step takes it. -/

namespace Sys2Proof.Machine

open Sys2Proof

/-- Take the host's next input (R20, R63). With none waiting the HCC holds its state (R201, R211). -/
def step (s : State) : Host.Outcome State Fault Refusal :=
  match s.pending with
  | [] => .next s
  | input :: rest => takeInput input { s with pending := rest }

/-- `s` with the host's next input a write to CMD of the command word whose table bits are `w` (log entry 2). -/
def State.withFetchWord (s : State) (nbits w : Nat) : State :=
  { s with pending := cmdWrite s.params (BitVec.ofNat 32 (w % 2 ^ nbits)) :: s.pending }

end Sys2Proof.Machine
end

