-- ==== Sys2Proof/Machine/Macros.lean ====
section
/-! DEFINITION. The pseudo-instructions of R83: host-side macros, each the list of host inputs it expands to. None is a
command of its own and no step runs one; they say how the host drives the machine. -/

namespace Sys2Proof.Machine

open Sys2Proof

/-- The pseudo-instructions (R83). A string is its bytes, in order. -/
inductive Macro where
  | setfI (sym : Byte) (v : Word)
  | rdnodeI (n : Word) (field : Byte)
  | encpI (n : Byte) (v : Word)
  | pbwrI (a : Word) (data : Byte)
  | pbrdI (a : Word)
  | ordI (i : Word)
  | decT
  | decN (budget : Word)
  | count (bytes : List Byte)
  | encode (bytes : List Byte)
  | buildFrom (bytes : List Byte)
  deriving DecidableEq, Repr

/-- The host write that issues a command. -/
def issue (p : Params) (i : Instr) : HostInput := cmdWrite p (Sys2Proof.encode i)

/-- The expansion of a pseudo-instruction (R83), for a window at the base of `p`. -/
def Macro.expand (p : Params) : Macro → List HostInput
  | .setfI sym v => [opaWrite p v, issue p (.setf sym)]
  | .rdnodeI n field => [opaWrite p n, issue p (.rdnode field)]
  | .encpI n v => [opaWrite p v, issue p (.encp n)]
  | .pbwrI a data => [opaWrite p a, issue p (.pbwr data)]
  | .pbrdI a => [opaWrite p a, issue p .pbrd]
  | .ordI i => [opaWrite p i, issue p .ord]
  | .decT => [issue p (.dec 0)]
  | .decN budget => [opaWrite p budget, issue p (.dec 1)]
  | .count bytes => bytes.map fun b => issue p (.cnt b)
  | .encode bytes => issue p .encb :: (bytes.map fun b => issue p (.encs b)) ++ [issue p .ence]
  | .buildFrom bytes => issue p .clear :: (bytes.map fun b => issue p (.cnt b)) ++ [issue p .build]

end Sys2Proof.Machine
end

