-- ==== Sys2Proof/Safety.lean ====
section
/-! DEFINITION. What counts as a safe run and a legal state, in the terms the claims use: the invariants of R45, the
buffers' invariants (R55 to R57, R154), the agreement of tree and code table (R117, R131), and the sorted-list queue of
R118 as a second way to build the tree. -/

namespace Sys2Proof.Machine

open Sys2Proof

/-- An outcome of the machine. -/
abbrev Result := Host.Outcome State Fault Refusal

/-- Every word of `bad` fails with ILLEGAL_COMMAND, its ERRINFO the whole word, and nothing else changes (R71, R185). -/
def AllIllegal (bad : Word → Prop) : Prop :=
  ∀ w s, bad w → runCommand w s = .next (s.raise w .illegalCommand w)

/-- A command fails with an error and no abort effect (R185, R187). -/
def FailsWith (i : Instr) (s : State) (e : ErrorCode) (info : Word) : Prop :=
  exec i s = .next (s.raise (encode i) e info)

/-! ### Invariants -/

/-- The invariants of R45, point by point. -/
structure StatusInvariant (s : State) : Prop where
  unbuilt_iff : s.built = false ↔ s.kind = .none
  unbuilt : s.built = false → s.nsym = 0 ∧ s.nnode = 0 ∧ s.root = 0 ∧ s.totalBits = 0 ∧
    ∀ sym, entry s.ct sym = CodeEntry.absent
  empty : s.kind = .empty → s.nsym = 0 ∧ s.nnode = 0
  degenerate : s.kind = .degenerate → s.nsym = 1 ∧ s.nnode = 1 ∧ s.root = 0
  general : s.kind = .general → 2 ≤ s.nsym.toNat ∧ s.nnode.toNat = 2 * s.nsym.toNat - 1 ∧
    s.root.toNat = 2 * s.nsym.toNat - 2
  count : s.built = true → s.nsym.toNat = symbolCount s.freq
  session : s.encOpen = true → s.encDone = false
  stream : s.encBits.toNat ≤ 8 * s.params.pbufBytes
  undecoded : s.decDone = false → s.outLen = 0
  output : s.outLen.toNat ≤ s.params.obufBytes
  lost : s.errLost = true → s.errValid = true
  report : s.errValid = false → s.err = 0 ∧ s.errInfo = 0

/-- The byte spaces are in canonical form and inside their sizes, every byte of the packed stream was written, and so
was every byte of the decode output. -/
structure BuffersInvariant (s : State) : Prop where
  pbuf_wf : s.pbuf.wf = true
  obuf_wf : s.obuf.wf = true
  pbuf_below : s.pbuf.below s.params.pbufBytes = true
  obuf_below : s.obuf.below s.params.obufBytes = true
  stream : ∀ a, 8 * a < s.encBits.toNat → s.pbuf.written a = true
  output : ∀ a, a < s.outLen.toNat → s.obuf.written a = true

/-- The padding of R154: during a session and after ENCE, the stream bits from ENC_BITS to the end of the last byte
are 0. -/
def PaddingInvariant (s : State) : Prop :=
  s.encOpen = true ∨ s.encDone = true →
    ∀ p, s.encBits.toNat ≤ p → p < 8 * bytesFor s.encBits.toNat → bitRead s.pbuf p = .ok false

/-- The node that a bit string leads to from a node: bit 0 goes left, bit 1 goes right (R115, R171). -/
def follow (node : Vector Node 511) (n : NodeId) : List Bool → NodeId
  | [] => n
  | b :: bs => follow node (childOf (nodeAt node n.toNat) b) bs

/-- A bit string leads from a node through internal nodes to a leaf of the given symbol (R131). -/
def LeadsTo (node : Vector Node 511) (n : NodeId) (bits : List Bool) (sym : Byte) : Prop :=
  (∀ j, j < bits.length → (nodeAt node (follow node n (bits.take j)).toNat).leaf = false) ∧
    (nodeAt node (follow node n bits).toNat).leaf = true ∧ (nodeAt node (follow node n bits).toNat).sym = sym

/-- The code of a symbol, first bit first (R39). -/
def State.codeOf (s : State) (sym : Byte) : List Bool :=
  codeBits (entry s.ct sym).code (entry s.ct sym).len.toNat

/-- The symbol has a code-table entry (R39). -/
def State.hasCode (s : State) (sym : Byte) : Prop := (entry s.ct sym).len ≠ 0

/-- While BUILT = 1 the code table and the tree say the same: the present symbols are those with a code (R130), a
GENERAL tree's root-to-leaf paths are exactly the codes (R131) and descend in node id (R117), and a DEGENERATE tree has
one symbol with the code 0 (R132). -/
structure TableInvariant (s : State) : Prop where
  present : s.built = true → ∀ sym, s.hasCode sym ↔ entry s.freq sym ≠ 0
  paths : s.built = true → s.kind = .general → ∀ sym bits,
    LeadsTo s.node s.root bits sym ↔ s.hasCode sym ∧ bits = s.codeOf sym
  descends : s.built = true → s.kind = .general → s.root.toNat < s.nnode.toNat ∧
    ∀ n, n < s.nnode.toNat → (nodeAt s.node n).leaf = false →
      (nodeAt s.node n).left.toNat < n ∧ (nodeAt s.node n).right.toNat < n
  single : s.built = true → s.kind = .degenerate → ∀ sym, s.hasCode sym →
    s.codeOf sym = [false] ∧ (nodeAt s.node 0).sym = sym

/-! ### Sums over the symbols -/

/-- Σ FREQ[s] over all symbols (R117). -/
def totalFrequency (s : State) : Nat := (s.freq.toList.map fun f => f.toNat).sum

/-- Σ 2^(255 − LEN) over the symbols that have a code: the Kraft sum of R136 in units of 2^(−255). -/
def kraftSum (s : State) : Nat :=
  (s.ct.toList.map fun e => if e.len = 0 then 0 else 2 ^ (255 - e.len.toNat)).sum

/-! ### The priority queue -/

/-- The ids in the queue. -/
def Builder.queue (b : Builder) : List NodeId := b.heap.toList.take b.hsize

/-- HEAP is a min-heap under the key: no entry is less than its parent (R112). -/
def Builder.ordered (b : Builder) : Prop :=
  ∀ i, 0 < i → i < b.hsize → less b.node (heapAt b.heap i) (heapAt b.heap ((i - 1) / 2)) = false

/-- A builder whose queue is a sorted list of node ids, and whose nodes are a list in the order of their ids: the
other queue that R118 allows. -/
structure ListBuilder where
  nodes : List Node
  queue : List Nat
  deriving DecidableEq, Repr

/-- The NFREQ of a node of a list. -/
def freqIn (nodes : List Node) (n : Nat) : Nat := ((nodes[n]?).map fun e => e.nfreq.toNat).getD 0

/-- The key order of R112 on ids of a list of nodes. -/
def keyLess (nodes : List Node) (a b : Nat) : Bool :=
  decide (freqIn nodes a < freqIn nodes b) || (decide (freqIn nodes a = freqIn nodes b) && decide (a < b))

/-- Insertion into a sorted queue. -/
def insertSorted (nodes : List Node) (n : Nat) : List Nat → List Nat
  | [] => [n]
  | x :: xs => if keyLess nodes n x then n :: x :: xs else x :: insertSorted nodes n xs

/-- Append a node and queue its id. -/
def ListBuilder.add (b : ListBuilder) (e : Node) : ListBuilder :=
  ⟨b.nodes ++ [e], insertSorted (b.nodes ++ [e]) b.nodes.length b.queue⟩

/-- The leaves, in ascending order of symbol (R111). -/
def listLeaves : List Word → Nat → ListBuilder → ListBuilder
  | [], _, b => b
  | f :: fs, sym, b =>
    listLeaves fs (sym + 1) (if f ≠ 0 then b.add ⟨true, BitVec.ofNat 8 sym, f.setWidth 40, 0, 0⟩ else b)

/-- The merges (R114, R115): the two least nodes, the lesser on the left. -/
def listMerges : Nat → ListBuilder → ListBuilder
  | 0, b => b
  | fuel + 1, b =>
    match b.queue with
    | x :: y :: rest =>
      listMerges fuel (ListBuilder.add ⟨b.nodes, rest⟩
        ⟨false, 0, BitVec.ofNat 40 (freqIn b.nodes x + freqIn b.nodes y), BitVec.ofNat 9 x, BitVec.ofNat 9 y⟩)
    | _ => b

/-- The tree of a frequency table, built with the sorted list. -/
def listTree (freq : Vector Word 256) : ListBuilder := listMerges 256 (listLeaves freq.toList 0 ⟨[], []⟩)

end Sys2Proof.Machine
end

