-- ==== Sys2Proof/Certificates/Slice0/Obligations.lean ====
section
/-! DEFINITION. The statements about the HCC model, each from a rule of spec/. They are about every state, so about every
value of the parameters; where a statement needs an invariant as a premise, that invariant is a statement of its own.
`exec i s = .next { s with … }` says the result and the frame at once: every field not named is unchanged. That HEAP, HSIZE
and CUR, which no command can read, are kept between commands is the model's choice (log entry 6). -/

open Sys2Proof Sys2Proof.Machine

/-! ### Encoding -/

/-- R70, R76, R82: decoding a command's word gives the command back, exactly when its AUX is in range. -/
def Obligations.DecodeInvertsEncode : Prop :=
  ∀ i : Instr, decode (encode i) = .ok i ↔ i.wellFormed = true

/-- R81: every word is exactly one command's word, or no command's and illegal; the rows of the opcode table do not
overlap, and every command's word is in its row. -/
def Obligations.EveryWordDecodesOnce : Prop :=
  (∀ w : Word,
    (∃ i, i.wellFormed = true ∧ encode i = w ∧ decode w = .ok i ∧
      ∀ j, j.wellFormed = true → encode j = w → j = i) ∨
    ((∃ e, decode w = .error e) ∧ ∀ i, i.wellFormed = true → encode i ≠ w)) ∧
  (∀ i j : Instr, ∀ w : Word, w &&& (opcodeRow i).mask = (opcodeRow i).pattern →
    w &&& (opcodeRow j).mask = (opcodeRow j).pattern → opcodeRow i = opcodeRow j) ∧
  (∀ i : Instr, i.wellFormed = true → encode i &&& (opcodeRow i).mask = (opcodeRow i).pattern) ∧
  (∀ i j : Instr, (encode i).extractLsb' 0 8 = (encode j).extractLsb' 0 8 ↔ opcodeRow i = opcodeRow j)

/-- R71, R77, R78: the illegal words, spelled out by their fields, fail with ILLEGAL_COMMAND and change only the error
report; every other word runs as the command it encodes. -/
def Obligations.IllegalWordsAreReported : Prop :=
  ∀ (w : Word) (s : State),
    let opc := w.extractLsb' 0 8
    let sym := w.extractLsb' 8 8
    let aux := w.extractLsb' 16 8
    let illegal : Prop :=
      w.extractLsb' 24 8 ≠ 0 ∨ 0x11 < opc.toNat ∨
        (opc.toNat ∉ [0x03, 0x04, 0x05, 0x08, 0x09, 0x0B, 0x0E] ∧ sym ≠ 0) ∨
        (opc.toNat ∉ [0x07, 0x09, 0x0C, 0x10] ∧ aux ≠ 0) ∨
        (opc.toNat = 0x07 ∧ 2 < aux.toNat) ∨ (opc.toNat = 0x09 ∧ 7 < aux.toNat) ∨
        (opc.toNat = 0x0C ∧ (aux.toNat = 0 ∨ 32 < aux.toNat)) ∨ (opc.toNat = 0x10 ∧ 1 < aux.toNat)
    (illegal → runCommand w s = .next
      { s with
        lastFail := true
        errLost := s.errLost || s.errValid
        err := aux ++ sym ++ opc ++ 1#8
        errInfo := w
        errValid := true }) ∧
    (¬illegal → ∃ i, i.wellFormed = true ∧ encode i = w ∧ runCommand w s = exec i s)

/-- R84: the worked encodings and the worked illegal words. -/
def Obligations.WorkedEncodingsDecode : Prop :=
  decode 0x00000000 = .ok .nop ∧ decode 0x00000001 = .ok .clear ∧ decode 0x00004103 = .ok (.setf 0x41) ∧
    decode 0x0000FF04 = .ok (.cnt 0xFF) ∧ decode 0x00000006 = .ok .build ∧ decode 0x00020007 = .ok (.rdnode 2) ∧
    decode 0x00014309 = .ok (.rdcode 0x43 1) ∧ decode 0x0000420B = .ok (.encs 0x42) ∧
    decode 0x0005000C = .ok (.encp 5) ∧ decode 0x0000DC0E = .ok (.pbwr 0xDC) ∧ decode 0x00010010 = .ok (.dec 1) ∧
    decode 0x00000011 = .ok .ord ∧
    decode 0x01000000 = .error .rsvNonzero ∧ decode 0x00000012 = .error .reservedOpcode ∧
    decode 0x00004101 = .error .unusedSym ∧ decode 0x0021000C = .error .auxOutOfRange ∧
    decode 0x00030007 = .error .auxOutOfRange

/-! ### The host port and the step -/

/-- R25, R54: a step whose host input is a write to CMD of a word that decodes to a command is that command's exec, with
the word in CMD and the input taken. -/
def Obligations.StepRunsTheDecodedCommand : Prop :=
  ∀ (s : State) (rest : List HostInput) (w : Word) (i : Instr),
    s.pending = .access ⟨s.params.hccBase + 0x010, 4, .write w⟩ :: rest → decode w = .ok i →
    step s = exec i { s with pending := rest, cmd := w }

/-- R54: a host write to OPA stores the word; a host write to CMD stores the word and then executes it, all in the one
step. -/
def Obligations.HostWritesToOpaAndCmd : Prop :=
  ∀ (s : State) (rest : List HostInput) (v : Word),
    (s.pending = .access ⟨s.params.hccBase + 0x014, 4, .write v⟩ :: rest →
      step s = .next { s with pending := rest, opa := v }) ∧
    (s.pending = .access ⟨s.params.hccBase + 0x010, 4, .write v⟩ :: rest →
      step s = runCommand v { s with pending := rest, cmd := v })

/-- R22, R27 to R36, R52: a host read answers with the register at the offset and changes no register; STATUS has each
field of R30 at its bits. -/
def Obligations.HostReadAnswersWithTheRegister : Prop :=
  ∀ (s : State) (rest : List HostInput) (offset : Nat) (v : Word),
    s.pending = .access ⟨s.params.hccBase + offset, 4, .read⟩ :: rest →
    (offset, v) ∈
      [(0x000, 0x48434301#32), (0x004, BitVec.ofNat 32 s.params.pbufBytes),
        (0x008, BitVec.ofNat 32 s.params.obufBytes), (0x00C, 48#16 ++ 32#8 ++ BitVec.ofNat 8 s.params.maxCodeLen),
        (0x010, s.cmd), (0x014, s.opa), (0x018, s.res), (0x01C, s.statusWord), (0x020, s.err), (0x024, s.errInfo),
        (0x028, BitVec.ofNat 32 s.totalBits.toNat), (0x02C, BitVec.ofNat 32 (s.totalBits.toNat / 2 ^ 32)),
        (0x030, BitVec.ofNat 32 s.nsym.toNat), (0x034, BitVec.ofNat 32 s.nnode.toNat),
        (0x038, BitVec.ofNat 32 s.root.toNat), (0x03C, s.encBits),
        (0x040, BitVec.ofNat 32 ((s.encBits.toNat + 7) / 8)), (0x044, s.decBudget), (0x048, s.decPos),
        (0x04C, s.outLen)] →
    step s = .next { s with pending := rest, reads := s.reads ++ [v] } ∧
      s.statusWord.getLsbD 0 = s.built ∧
      s.statusWord.extractLsb' 1 2 =
        (match s.kind with | .none => 0#2 | .empty => 1#2 | .degenerate => 2#2 | .general => 3#2) ∧
      s.statusWord.getLsbD 3 = s.encOpen ∧ s.statusWord.getLsbD 4 = s.encDone ∧
      s.statusWord.getLsbD 5 = s.decDone ∧ s.statusWord.getLsbD 6 = s.lastFail ∧
      s.statusWord.getLsbD 7 = s.errValid ∧ s.statusWord.getLsbD 8 = s.errLost ∧ s.statusWord.extractLsb' 9 23 = 0

/-- R53: a read of a reserved offset answers 0, and a write to a reserved offset or to an RO register is ignored;
neither is an error. -/
def Obligations.ReservedOffsetsAndReadOnlyWrites : Prop :=
  ∀ (s : State) (rest : List HostInput) (offset : Nat), offset < 0x1000 → offset % 4 = 0 →
    (0x050 ≤ offset → s.pending = .access ⟨s.params.hccBase + offset, 4, .read⟩ :: rest →
      step s = .next { s with pending := rest, reads := s.reads ++ [0] }) ∧
    (∀ v, offset ≠ 0x010 → offset ≠ 0x014 →
      s.pending = .access ⟨s.params.hccBase + offset, 4, .write v⟩ :: rest →
      step s = .next { s with pending := rest })

/-- R51: an access of the window that is not 32 bits wide at an offset with bits 1:0 = 0 is refused; an access at an
offset at or beyond 0x1000 is no access to the HCC. -/
def Obligations.AccessesOutsideTheInterface : Prop :=
  ∀ (s : State) (rest : List HostInput) (offset bytes : Nat) (kind : AccessKind),
    s.pending = .access ⟨s.params.hccBase + offset, bytes, kind⟩ :: rest →
    (offset < 0x1000 → (bytes ≠ 4 ∨ offset % 4 ≠ 0) →
      step s = .refused (.hostAccess ⟨s.params.hccBase + offset, bytes, kind⟩)) ∧
    (0x1000 ≤ offset → step s = .next { s with pending := rest })

/-- R201, R211: with no host input waiting the HCC holds its state. R210: the reset input takes the machine to
`State.resetWith` at the same parameters. The model's choice in that, not the spec's: the zeros in NODE (log entry 7) and in
HEAP, HSIZE and CUR (log entry 6), which R46 and R210 leave unspecified, and that the host's own fields are kept (log
entry 13). -/
def Obligations.IdleHoldsAndResetRestores : Prop :=
  ∀ s : State, (s.pending = [] → step s = .next s) ∧
    ∀ rest, s.pending = .hardReset :: rest →
      step s = .next { State.resetWith s.params with pending := rest, reads := s.reads }

/-- R46: the reset value of every piece of state that has one. -/
def Obligations.ResetValues : Prop :=
  ∀ p : Params,
    let s := State.resetWith p
    s.cmd = 0 ∧ s.opa = 0 ∧ s.res = 0 ∧ s.statusWord = 0 ∧ s.err = 0 ∧ s.errInfo = 0 ∧
      s.totalBits = 0 ∧ s.nsym = 0 ∧ s.nnode = 0 ∧ s.root = 0 ∧
      s.encBits = 0 ∧ s.decBudget = 0 ∧ s.decPos = 0 ∧ s.outLen = 0 ∧
      (∀ sym, entry s.freq sym = 0) ∧ (∀ sym, entry s.ct sym = ⟨0, 0⟩) ∧
      (∀ a, s.pbuf.written a = false ∧ s.obuf.written a = false) ∧
      readReg s 0x000 = 0x48434301 ∧ readReg s 0x004 = BitVec.ofNat 32 p.pbufBytes ∧
      readReg s 0x008 = BitVec.ofNat 32 p.obufBytes ∧
      readReg s 0x00C = 48#16 ++ 32#8 ++ BitVec.ofNat 8 p.maxCodeLen

/-! ### The reporting frame and whole-machine rules -/

/-- R187: what `raise E(info)` does to the report, and that it does nothing else; the codes are those of R185. -/
def Obligations.RaiseWritesTheReport : Prop :=
  ∀ (w info : Word) (e : ErrorCode) (s : State),
    s.raise w e info =
      { s with
        lastFail := true
        errLost := if s.errValid then true else s.errLost
        err := w.extractLsb' 16 8 ++ w.extractLsb' 8 8 ++ w.extractLsb' 0 8 ++
          (match e with
            | .none => 0#8 | .illegalCommand => 1#8 | .phaseError => 2#8 | .freqOverflow => 3#8
            | .codeLengthOverflow => 4#8 | .unknownSymbol => 5#8 | .malformedEncodedData => 6#8
            | .capacityExceeded => 7#8 | .addressRange => 8#8)
        errInfo := info
        errValid := true }

/-- R43, R186, R187: every command that completes writes LAST_FAIL; one that succeeds keeps the report unless it is
CLEAR or ERRCLR; one that fails leaves a report of itself, with a code from 1 to 8, and marks a report it overwrote. -/
def Obligations.EveryCommandReportsItsOutcome : Prop :=
  ∀ (i : Instr) (s t : State), exec i s = .next t →
    (t.lastFail = false → i ≠ .clear → i ≠ .errclr →
      t.err = s.err ∧ t.errInfo = s.errInfo ∧ t.errValid = s.errValid ∧ t.errLost = s.errLost) ∧
    (t.lastFail = true → t.errValid = true ∧ t.errLost = (s.errLost || s.errValid) ∧
      t.err.extractLsb' 8 24 = (encode i).extractLsb' 0 24 ∧
      1 ≤ (t.err.extractLsb' 0 8).toNat ∧ (t.err.extractLsb' 0 8).toNat ≤ 8)

/-- R86: every row of the precondition table. A command whose precondition does not hold fails with PHASE_ERROR, its
ERRINFO the STATUS value at issue, and nothing but the report changes. -/
def Obligations.PreconditionsAreEnforced : Prop :=
  ∀ (s : State) (sym aux : Byte),
    (s.built = true → FailsWith (.setf sym) s .phaseError s.statusWord ∧
      FailsWith (.cnt sym) s .phaseError s.statusWord) ∧
    (s.built = true ∨ s.encOpen = true → FailsWith .build s .phaseError s.statusWord) ∧
    (s.built = false → (aux.toNat ≤ 2 → FailsWith (.rdnode aux) s .phaseError s.statusWord) ∧
      FailsWith (.rdlen sym) s .phaseError s.statusWord ∧
      (aux.toNat ≤ 7 → FailsWith (.rdcode sym aux) s .phaseError s.statusWord)) ∧
    (s.encOpen = true → FailsWith .encb s .phaseError s.statusWord ∧
      FailsWith (.pbwr sym) s .phaseError s.statusWord) ∧
    (s.encOpen = false ∨ s.built = false → FailsWith (.encs sym) s .phaseError s.statusWord) ∧
    (s.encOpen = false → (1 ≤ aux.toNat ∧ aux.toNat ≤ 32 → FailsWith (.encp aux) s .phaseError s.statusWord) ∧
      FailsWith .ence s .phaseError s.statusWord) ∧
    (s.built = false ∨ s.encOpen = true → aux.toNat ≤ 1 → FailsWith (.dec aux) s .phaseError s.statusWord) ∧
    (∀ t, exec .nop s = .next t ∨ exec .clear s = .next t ∨ exec .errclr s = .next t ∨
      exec (.rdfreq sym) s = .next t ∨ exec .pbrd s = .next t ∨ exec .ord s = .next t →
      t.lastFail = true → t.err.extractLsb' 0 8 ≠ 2#8)

/-- R23: the engine never writes CMD or OPA; nor does a command touch the parameters or the host's own fields. -/
def Obligations.EngineKeepsHostRegisters : Prop :=
  ∀ (i : Instr) (s t : State), exec i s = .next t →
    t.cmd = s.cmd ∧ t.opa = s.opa ∧ t.params = s.params ∧ t.pending = s.pending ∧ t.reads = s.reads

/-- R29, R87: a read command writes only RES and the frame effects, and RES is written only by a read command that
succeeds. -/
def Obligations.ReadCommandsWriteOnlyRes : Prop :=
  ∀ (i : Instr) (s t : State), exec i s = .next t →
    let reads : Prop := (∃ sym, i = .rdfreq sym) ∨ (∃ aux, i = .rdnode aux) ∨ (∃ sym, i = .rdlen sym) ∨
      (∃ sym aux, i = .rdcode sym aux) ∨ i = .pbrd ∨ i = .ord
    (reads → t = { s with
        res := t.res, lastFail := t.lastFail, err := t.err, errInfo := t.errInfo, errValid := t.errValid
        errLost := t.errLost }) ∧
    (t.res ≠ s.res → reads ∧ t.lastFail = false)

/-- R30, R68, R130: while BUILT = 1 the frequencies, the tree, the table and what describes them are frozen: of all
commands only CLEAR changes any of them. -/
def Obligations.OnlyClearUnfreezesTheTree : Prop :=
  ∀ (i : Instr) (s t : State), s.built = true → i ≠ .clear → exec i s = .next t →
    t.built = true ∧ t.freq = s.freq ∧ t.node = s.node ∧ t.ct = s.ct ∧ t.totalBits = s.totalBits ∧
      t.nsym = s.nsym ∧ t.nnode = s.nnode ∧ t.root = s.root ∧ t.kind = s.kind

/-- R185, R192: a command that fails leaves the state as it was, changed only by its error's abort effect and by the
report. -/
def Obligations.FailureLeavesOnlyItsAbortEffect : Prop :=
  ∀ (i : Instr) (s t : State), exec i s = .next t → t.lastFail = true →
    ∃ (e : ErrorCode) (info : Word) (u : State), t = u.raise (encode i) e info ∧
      match e with
      | .none => False
      | .illegalCommand | .phaseError | .freqOverflow | .addressRange => u = s
      | .unknownSymbol => (∃ sym, i = .encs sym) ∧ u = { s with encOpen := false, encDone := false, encBits := 0 }
      | .codeLengthOverflow => i = .build ∧ u = { s with node := u.node, heap := u.heap, hsize := u.hsize }
      | .malformedEncodedData => (∃ aux, i = .dec aux) ∧
          u = { s with decDone := false, outLen := 0, decBudget := u.decBudget, decPos := u.decPos, cur := u.cur }
      | .capacityExceeded =>
          (((∃ sym, i = .encs sym) ∨ ∃ aux, i = .encp aux) ∧
            u = { s with encOpen := false, encDone := false, encBits := 0 }) ∨
          ((∃ aux, i = .dec aux) ∧
            u = { s with
                  decDone := false, outLen := 0, decBudget := u.decBudget, decPos := u.decPos, cur := u.cur })

/-- R192: errors do not block the command stream: whatever the report and LAST_FAIL hold, a command does the same to all
other state and has the same outcome. -/
def Obligations.ErrorsDoNotBlockCommands : Prop :=
  ∀ (i : Instr) (s t : State) (lf ev el : Bool) (e info : Word), exec i s = .next t →
    ∃ t', exec i { s with lastFail := lf, errValid := ev, errLost := el, err := e, errInfo := info } = .next t' ∧
      t'.lastFail = t.lastFail ∧
      t' = { t with errValid := t'.errValid, errLost := t'.errLost, err := t'.err, errInfo := t'.errInfo }

/-- R55, R57, R202: no command is refused, and in states that meet the buffers' invariants a command faults only by
reading a byte of PBUF never written since reset: PBRD at its address, DEC at a stream bit below its budget. ENCS, ENCP
and ORD never do. -/
def Obligations.OnlyUnwrittenPbufBytesFault : Prop :=
  ∀ (i : Instr) (s : State), (∀ r, exec i s ≠ .refused r) ∧
    ∀ f, BuffersInvariant s → exec i s = .fault f →
      (i = .pbrd ∧ s.opa.toNat < s.params.pbufBytes ∧ s.pbuf.written s.opa.toNat = false ∧
        f = .uninitRead .pbuf s.opa.toNat) ∨
      (∃ aux p, i = .dec aux ∧ p < decodeBudget aux s ∧ p < 8 * s.params.pbufBytes ∧
        s.pbuf.written (p / 8) = false ∧ f = .uninitRead .pbuf (p / 8))

/-! ### Invariants -/

/-- R45: the invariants hold at reset, at every value of the parameters, and so do those of the buffers, of the padding
and of the table. -/
def Obligations.ResetMeetsTheInvariants : Prop :=
  ∀ p : Params, StatusInvariant (State.resetWith p) ∧ BuffersInvariant (State.resetWith p) ∧
    PaddingInvariant (State.resetWith p) ∧ TableInvariant (State.resetWith p)

/-- R45: every step keeps the invariants of R45. -/
def Obligations.StepKeepsTheStatusInvariant : Prop :=
  ∀ s t : State, StatusInvariant s → step s = .next t → StatusInvariant t

/-- R42, R55, R57: every step keeps the buffers canonical, inside their sizes, and written where the packed stream and
the decode output lie. -/
def Obligations.StepKeepsTheBuffersInvariant : Prop :=
  ∀ s t : State, BuffersInvariant s → step s = .next t → BuffersInvariant t

/-- R154: every step keeps the padding of the packed stream zero. -/
def Obligations.StepKeepsThePaddingZero : Prop :=
  ∀ s t : State, s.params.valid → PaddingInvariant s → step s = .next t → PaddingInvariant t

/-- R130, R131, R117: every step keeps tree and code table in agreement. -/
def Obligations.StepKeepsTreeAndTableInAgreement : Prop :=
  ∀ s t : State, StatusInvariant s → TableInvariant s → step s = .next t → TableInvariant t

/-! ### Session commands -/

/-- R88, R90: NOP only clears LAST_FAIL; ERRCLR clears the report and LAST_FAIL. -/
def Obligations.NopAndErrclr : Prop :=
  encode .nop = 0x00000000 ∧ AllIllegal (fun w => w.extractLsb' 0 8 = 0x00 ∧ w ≠ 0x00000000) ∧
    encode .errclr = 0x00000002 ∧ AllIllegal (fun w => w.extractLsb' 0 8 = 0x02 ∧ w ≠ 0x00000002) ∧
    ∀ s : State, exec .nop s = .next { s with lastFail := false } ∧
      exec .errclr s = .next
        { s with err := 0, errInfo := 0, errValid := false, errLost := false, lastFail := false }

/-- R89: CLEAR. -/
def Obligations.ClearStartsASession : Prop :=
  encode .clear = 0x00000001 ∧ AllIllegal (fun w => w.extractLsb' 0 8 = 0x01 ∧ w ≠ 0x00000001) ∧
    ∀ s : State, ∃ f c, exec .clear s = .next
      { s with
        freq := f, ct := c, built := false, kind := .none, nsym := 0, nnode := 0, root := 0, totalBits := 0
        encOpen := false, encDone := false, encBits := 0, decDone := false, decBudget := 0, decPos := 0, outLen := 0
        err := 0, errInfo := 0, errValid := false, errLost := false, lastFail := false } ∧
      ∀ sym, entry f sym = 0 ∧ entry c sym = ⟨0, 0⟩

/-! ### Frequency table -/

/-- R103: SETF. -/
def Obligations.SetfLoadsOneFrequency : Prop :=
  AllIllegal (fun w => w.extractLsb' 0 8 = 0x03 ∧ (w.extractLsb' 16 8 ≠ 0 ∨ w.extractLsb' 24 8 ≠ 0)) ∧
    ∀ (sym : Byte) (s : State), encode (.setf sym) = 0#16 ++ sym ++ 0x03#8 ∧
      (s.built = true → FailsWith (.setf sym) s .phaseError s.statusWord) ∧
      (s.built = false → ∃ f, exec (.setf sym) s = .next { s with freq := f, lastFail := false } ∧
        entry f sym = s.opa ∧ ∀ x, x ≠ sym → entry f x = entry s.freq x)

/-- R104, R102: CNT. -/
def Obligations.CntCountsOneOccurrence : Prop :=
  AllIllegal (fun w => w.extractLsb' 0 8 = 0x04 ∧ (w.extractLsb' 16 8 ≠ 0 ∨ w.extractLsb' 24 8 ≠ 0)) ∧
    ∀ (sym : Byte) (s : State), encode (.cnt sym) = 0#16 ++ sym ++ 0x04#8 ∧
      (s.built = true → FailsWith (.cnt sym) s .phaseError s.statusWord) ∧
      (s.built = false → (entry s.freq sym).toNat = 2 ^ 32 - 1 →
        FailsWith (.cnt sym) s .freqOverflow (sym.setWidth 32)) ∧
      (s.built = false → (entry s.freq sym).toNat ≠ 2 ^ 32 - 1 →
        ∃ f, exec (.cnt sym) s = .next { s with freq := f, lastFail := false } ∧
          (entry f sym).toNat = (entry s.freq sym).toNat + 1 ∧ ∀ x, x ≠ sym → entry f x = entry s.freq x)

/-- R105: RDFREQ. -/
def Obligations.RdfreqReadsOneFrequency : Prop :=
  AllIllegal (fun w => w.extractLsb' 0 8 = 0x05 ∧ (w.extractLsb' 16 8 ≠ 0 ∨ w.extractLsb' 24 8 ≠ 0)) ∧
    ∀ (sym : Byte) (s : State), encode (.rdfreq sym) = 0#16 ++ sym ++ 0x05#8 ∧
      exec (.rdfreq sym) s = .next { s with res := entry s.freq sym, lastFail := false }

/-! ### Tree builder -/

/-- R110, R119, R132, R133: BUILD of an empty frequency table succeeds with no tree, no codes and TOTAL_BITS 0; BUILD
with one present symbol gives one leaf, the code 0 of length 1, and TOTAL_BITS equal to its frequency. -/
def Obligations.BuildOfNoneOrOneSymbol : Prop :=
  ∀ s : State, s.built = false → s.encOpen = false →
    ((∀ sym, entry s.freq sym = 0) →
      ∃ c, exec .build s = .next
        { s with
          ct := c, totalBits := 0, kind := .empty, nsym := 0, nnode := 0, root := 0, built := true
          lastFail := false } ∧
        ∀ sym, entry c sym = ⟨0, 0⟩) ∧
    (∀ x, entry s.freq x ≠ 0 → (∀ sym, sym ≠ x → entry s.freq sym = 0) →
      ∃ n c, exec .build s = .next
        { s with
          node := n, ct := c, totalBits := (entry s.freq x).setWidth 48, kind := .degenerate, nsym := 1, nnode := 1
          root := 0, built := true, lastFail := false } ∧
        nodeAt n 0 = ⟨true, x, (entry s.freq x).setWidth 40, 0, 0⟩ ∧ entry c x = ⟨1, 0⟩ ∧
        ∀ sym, sym ≠ x → entry c sym = ⟨0, 0⟩)

/-- R110, R116, R119, R139: with this hardware's MAX_CODE_LEN a BUILD of two or more symbols never fails; its root is
the last node created. What HEAP and HSIZE are left with is the model's choice (log entry 6). -/
def Obligations.BuildOfManySymbolsSucceeds : Prop :=
  ∀ s : State, s.built = false → s.encOpen = false → s.params.maxCodeLen = 255 → 2 ≤ symbolCount s.freq →
    ∃ n c h z tb, exec .build s = .next
      { s with
        node := n, ct := c, totalBits := tb, kind := .general, nsym := BitVec.ofNat 9 (symbolCount s.freq)
        nnode := BitVec.ofNat 10 (2 * symbolCount s.freq - 1)
        root := BitVec.ofNat 9 (2 * symbolCount s.freq - 2)
        heap := h, hsize := z, built := true, lastFail := false }

/-- R134: where MAX_CODE_LEN is smaller, BUILD fails with CODE_LENGTH_OVERFLOW exactly when some code of the tree is
longer; ERRINFO names the least such symbol and its length; otherwise it does what it does at 255. -/
def Obligations.TooLongCodesFailTheBuild : Prop :=
  ∀ (s t : State), s.built = false → s.encOpen = false →
    exec .build { s with params := { s.params with maxCodeLen := 255 } } = .next t →
    (∀ sym, s.params.maxCodeLen < (entry t.ct sym).len.toNat → 2 ≤ symbolCount s.freq →
      (∀ x, x.toNat < sym.toNat → (entry t.ct x).len.toNat ≤ s.params.maxCodeLen) →
      ∃ n h z, exec .build s = .next
        ({ s with node := n, heap := h, hsize := z }.raise 0x00000006 .codeLengthOverflow
          (0#16 ++ (entry t.ct sym).len ++ sym))) ∧
    ((∀ sym, (entry t.ct sym).len.toNat ≤ s.params.maxCodeLen) →
      exec .build s = .next { t with params := s.params })

/-- R111, R113, R117: the shape of a GENERAL tree: the k leaves in ascending order of symbol, then the k − 1 internal
nodes, each the sum of two children with smaller ids, and every node but the root the child of exactly one node; the
root's NFREQ is the sum of all frequencies. -/
def Obligations.BuiltTreeShape : Prop :=
  ∀ s t : State, exec .build s = .next t → t.lastFail = false → t.kind = .general →
    let k := symbolCount s.freq
    (∀ n, n < k → (nodeAt t.node n).leaf = true ∧ (nodeAt t.node n).left = 0 ∧ (nodeAt t.node n).right = 0 ∧
      entry s.freq (nodeAt t.node n).sym ≠ 0 ∧
      (nodeAt t.node n).nfreq = (entry s.freq (nodeAt t.node n).sym).setWidth 40) ∧
    (∀ m n, m < n → n < k → (nodeAt t.node m).sym.toNat < (nodeAt t.node n).sym.toNat) ∧
    (∀ n, k ≤ n → n < 2 * k - 1 → (nodeAt t.node n).leaf = false ∧ (nodeAt t.node n).sym = 0 ∧
      (nodeAt t.node n).left.toNat < n ∧ (nodeAt t.node n).right.toNat < n ∧
      (nodeAt t.node n).nfreq.toNat = (nodeAt t.node (nodeAt t.node n).left.toNat).nfreq.toNat +
        (nodeAt t.node (nodeAt t.node n).right.toNat).nfreq.toNat) ∧
    (∀ c, c < 2 * k - 2 → ∃ n b, k ≤ n ∧ n < 2 * k - 1 ∧ (childOf (nodeAt t.node n) b).toNat = c ∧
      ∀ n' b', k ≤ n' → n' < 2 * k - 1 → (childOf (nodeAt t.node n') b').toNat = c → n' = n ∧ b' = b) ∧
    (nodeAt t.node t.root.toNat).nfreq.toNat = totalFrequency s

/-- R112: the array heap is a priority queue: inserting keeps the heap order and adds the id; the top is the least key in
the queue, and removing it keeps the heap order and the other ids. -/
def Obligations.HeapIsAPriorityQueue : Prop :=
  ∀ b : Builder, b.ordered →
    (∀ n, b.hsize < 256 → (b.insert n).ordered ∧ (b.insert n).queue.Perm (n :: b.queue)) ∧
    (0 < b.hsize → b.hsize ≤ 256 → b.queue.Perm (b.top :: b.pop.queue) ∧ b.pop.ordered ∧
      ∀ n ∈ b.queue, n ≠ b.top → less b.node b.top n = true)

/-- R118: what BUILD leaves depends only on FREQ (at one MAX_CODE_LEN), not on what NODE and HEAP held before nor on
anything else in the state. -/
def Obligations.BuildDependsOnlyOnFrequencies : Prop :=
  ∀ s s' t t' : State, s.freq = s'.freq → s.params.maxCodeLen = s'.params.maxCodeLen →
    s.built = false → s'.built = false → s.encOpen = false → s'.encOpen = false →
    exec .build s = .next t → exec .build s' = .next t' →
    t.lastFail = t'.lastFail ∧
      (t.lastFail = false →
        t.ct = t'.ct ∧ t.totalBits = t'.totalBits ∧ t.kind = t'.kind ∧ t.nsym = t'.nsym ∧ t.nnode = t'.nnode ∧
          t.root = t'.root ∧ ∀ n, n < t.nnode.toNat → nodeAt t.node n = nodeAt t'.node n)

/-- R118: the heap and a sorted list build the same tree. -/
def Obligations.HeapAndSortedListBuildTheSameTree : Prop :=
  ∀ s t : State, exec .build s = .next t → t.lastFail = false → t.kind = .general →
    (listTree s.freq).nodes.length = t.nnode.toNat ∧ (listTree s.freq).queue = [t.root.toNat] ∧
      ∀ n, n < t.nnode.toNat → (listTree s.freq).nodes[n]? = some (nodeAt t.node n)

/-- R120: RDNODE. -/
def Obligations.RdnodeReadsOneNodeField : Prop :=
  AllIllegal (fun w => w.extractLsb' 0 8 = 0x07 ∧
      (2 < (w.extractLsb' 16 8).toNat ∨ w.extractLsb' 8 8 ≠ 0 ∨ w.extractLsb' 24 8 ≠ 0)) ∧
    ∀ (aux : Byte) (s : State), aux.toNat ≤ 2 →
      encode (.rdnode aux) = 0#8 ++ aux ++ 0#8 ++ 0x07#8 ∧
      (s.built = false → FailsWith (.rdnode aux) s .phaseError s.statusWord) ∧
      (s.built = true → s.nnode.toNat ≤ s.opa.toNat → FailsWith (.rdnode aux) s .addressRange s.opa) ∧
      (s.built = true → s.opa.toNat < s.nnode.toNat →
        let e := nodeAt s.node s.opa.toNat
        (aux = 0 → exec (.rdnode aux) s = .next
          { s with res := BitVec.ofBool e.leaf ++ 0#5 ++ e.right ++ e.left ++ e.sym, lastFail := false }) ∧
        (aux = 1 → exec (.rdnode aux) s = .next { s with res := e.nfreq.extractLsb' 0 32, lastFail := false }) ∧
        (aux = 2 → exec (.rdnode aux) s = .next
          { s with res := 0#24 ++ e.nfreq.extractLsb' 32 8, lastFail := false }))

/-! ### Code table -/

/-- R131: in a GENERAL build every code is the path from the root to its symbol's leaf, the first step the code's most
significant bit, a left step 0 and a right step 1, and every such path is a code; the bits of CODE above LEN are 0. -/
def Obligations.CodesAreRootToLeafPaths : Prop :=
  ∀ s t : State, exec .build s = .next t → t.lastFail = false → t.kind = .general →
    ∀ sym, (∀ bits, LeadsTo t.node t.root bits sym ↔ t.hasCode sym ∧ bits = t.codeOf sym) ∧
      (entry t.ct sym).code.toNat < 2 ^ (entry t.ct sym).len.toNat

/-- R110, R130, R139: after a successful BUILD exactly the present symbols have codes, and in a GENERAL build with k
symbols a code has from 1 to k − 1 bits. -/
def Obligations.ExactlyPresentSymbolsHaveCodes : Prop :=
  ∀ s t : State, exec .build s = .next t → t.lastFail = false →
    ∀ sym, (t.hasCode sym ↔ entry s.freq sym ≠ 0) ∧
      (t.kind = .general → (entry t.ct sym).len.toNat ≤ symbolCount s.freq - 1)

/-- R135: for distinct symbols with codes, neither code is a prefix of the other. -/
def Obligations.CodesArePrefixFree : Prop :=
  ∀ s t : State, exec .build s = .next t → t.lastFail = false → ∀ x y, x ≠ y → t.hasCode x → t.hasCode y →
    (entry t.ct x).len.toNat ≤ (entry t.ct y).len.toNat →
    (entry t.ct y).code >>> ((entry t.ct y).len.toNat - (entry t.ct x).len.toNat) ≠ (entry t.ct x).code

/-- R136: the Kraft sum of a GENERAL table is 1, of a DEGENERATE table 1/2 (in units of 2^(−255)). -/
def Obligations.KraftSums : Prop :=
  ∀ s t : State, exec .build s = .next t → t.lastFail = false →
    (t.kind = .general → kraftSum t = 2 ^ 255) ∧ (t.kind = .degenerate → kraftSum t = 2 ^ 254)

/-- R133, R10: TOTAL_BITS is the exact sum of frequency times code length. -/
def Obligations.TotalBitsIsTheExactSum : Prop :=
  ∀ s t : State, exec .build s = .next t → t.lastFail = false →
    t.totalBits.toNat =
      ((List.range 256).map fun x =>
        (entry s.freq (BitVec.ofNat 8 x)).toNat * (entry t.ct (BitVec.ofNat 8 x)).len.toNat).sum

/-- R137, R138: RDLEN reads a symbol's code length, RDCODE a 32-bit word of its right-aligned code. -/
def Obligations.RdlenAndRdcodeReadTheTable : Prop :=
  AllIllegal (fun w => w.extractLsb' 0 8 = 0x08 ∧ (w.extractLsb' 16 8 ≠ 0 ∨ w.extractLsb' 24 8 ≠ 0)) ∧
  AllIllegal (fun w => w.extractLsb' 0 8 = 0x09 ∧ (7 < (w.extractLsb' 16 8).toNat ∨ w.extractLsb' 24 8 ≠ 0)) ∧
    ∀ (sym aux : Byte) (s : State), aux.toNat ≤ 7 →
      encode (.rdlen sym) = 0#16 ++ sym ++ 0x08#8 ∧ encode (.rdcode sym aux) = 0#8 ++ aux ++ sym ++ 0x09#8 ∧
      (s.built = false → FailsWith (.rdlen sym) s .phaseError s.statusWord ∧
        FailsWith (.rdcode sym aux) s .phaseError s.statusWord) ∧
      (s.built = true →
        exec (.rdlen sym) s = .next { s with res := (entry s.ct sym).len.setWidth 32, lastFail := false } ∧
        ∃ v, exec (.rdcode sym aux) s = .next { s with res := v, lastFail := false } ∧
          ∀ j, j < 32 → v.getLsbD j = (entry s.ct sym).code.getLsbD (32 * aux.toNat + j))

/-! ### Packer -/

/-- R148, R151: ENCB opens an encode session at stream bit 0; ENCE closes it and keeps its bit count. -/
def Obligations.EncbAndEnceBoundASession : Prop :=
  encode .encb = 0x0000000A ∧ AllIllegal (fun w => w.extractLsb' 0 8 = 0x0A ∧ w ≠ 0x0000000A) ∧
  encode .ence = 0x0000000D ∧ AllIllegal (fun w => w.extractLsb' 0 8 = 0x0D ∧ w ≠ 0x0000000D) ∧
    ∀ s : State, (s.encOpen = true → FailsWith .encb s .phaseError s.statusWord ∧
        exec .ence s = .next { s with encOpen := false, encDone := true, lastFail := false }) ∧
      (s.encOpen = false → FailsWith .ence s .phaseError s.statusWord ∧
        exec .encb s = .next { s with encOpen := true, encDone := false, encBits := 0, lastFail := false })

/-- R146, R147, R149: ENCS. Out of phase the session is unchanged; a symbol with no code, and then a code that does not
fit, abort the session, and PBUF keeps its bytes; otherwise the code is appended at the stream's end, most significant bit
first, the rest of a byte it begins is 0, and no byte is written but those that hold the appended bits. -/
def Obligations.EncsEncodesOneSymbol : Prop :=
  AllIllegal (fun w => w.extractLsb' 0 8 = 0x0B ∧ (w.extractLsb' 16 8 ≠ 0 ∨ w.extractLsb' 24 8 ≠ 0)) ∧
    ∀ (sym : Byte) (s : State), encode (.encs sym) = 0#16 ++ sym ++ 0x0B#8 ∧
      (s.encOpen = false ∨ s.built = false → FailsWith (.encs sym) s .phaseError s.statusWord) ∧
      (s.encOpen = true → s.built = true →
        let l := (entry s.ct sym).len.toNat
        (l = 0 → exec (.encs sym) s = .next ({ s with encOpen := false, encDone := false, encBits := 0 }.raise
          (encode (.encs sym)) .unknownSymbol (sym.setWidth 32))) ∧
        (l ≠ 0 → 8 * s.params.pbufBytes < s.encBits.toNat + l →
          exec (.encs sym) s = .next ({ s with encOpen := false, encDone := false, encBits := 0 }.raise
            (encode (.encs sym)) .capacityExceeded (BitVec.ofNat 32 (s.encBits.toNat + l)))) ∧
        (l ≠ 0 → s.encBits.toNat + l ≤ 8 * s.params.pbufBytes →
          (s.encBits.toNat % 8 ≠ 0 → s.pbuf.written (s.encBits.toNat / 8) = true) →
          ∃ m, exec (.encs sym) s = .next
              { s with pbuf := m, encBits := BitVec.ofNat 32 (s.encBits.toNat + l), lastFail := false } ∧
            (∀ j, j < l → bitRead m (s.encBits.toNat + j) = .ok ((entry s.ct sym).code.getLsbD (l - 1 - j))) ∧
            (∀ q, q < s.encBits.toNat → bitRead m q = bitRead s.pbuf q) ∧
            (∀ q, s.encBits.toNat + l ≤ q → q / 8 = (s.encBits.toNat + l - 1) / 8 → bitRead m q =
              if s.encBits.toNat % 8 ≠ 0 ∧ q / 8 = s.encBits.toNat / 8 then bitRead s.pbuf q else .ok false) ∧
            (∀ a, a < s.encBits.toNat / 8 ∨ (s.encBits.toNat + l - 1) / 8 < a → m.read? a = s.pbuf.read? a)))

/-- R146, R147, R150: ENCP of n bits. An n of 0 or above 32 is illegal, out of phase nothing changes, and bits that do not
fit abort the session; otherwise OPA[n − 1:0] is appended, most significant bit first, and the bits above are ignored. -/
def Obligations.EncpPacksRawBits : Prop :=
  AllIllegal (fun w => w.extractLsb' 0 8 = 0x0C ∧ ((w.extractLsb' 16 8).toNat = 0 ∨ 32 < (w.extractLsb' 16 8).toNat ∨
      w.extractLsb' 8 8 ≠ 0 ∨ w.extractLsb' 24 8 ≠ 0)) ∧
    ∀ (n : Byte) (s : State), 1 ≤ n.toNat → n.toNat ≤ 32 →
      encode (.encp n) = 0#8 ++ n ++ 0#8 ++ 0x0C#8 ∧
      (s.encOpen = false → FailsWith (.encp n) s .phaseError s.statusWord) ∧
      (s.encOpen = true → 8 * s.params.pbufBytes < s.encBits.toNat + n.toNat →
        exec (.encp n) s = .next ({ s with encOpen := false, encDone := false, encBits := 0 }.raise
          (encode (.encp n)) .capacityExceeded (BitVec.ofNat 32 (s.encBits.toNat + n.toNat)))) ∧
      (s.encOpen = true → s.encBits.toNat + n.toNat ≤ 8 * s.params.pbufBytes →
        (s.encBits.toNat % 8 ≠ 0 → s.pbuf.written (s.encBits.toNat / 8) = true) →
        ∃ m, exec (.encp n) s = .next
            { s with pbuf := m, encBits := BitVec.ofNat 32 (s.encBits.toNat + n.toNat), lastFail := false } ∧
          (∀ j, j < n.toNat → bitRead m (s.encBits.toNat + j) = .ok (s.opa.getLsbD (n.toNat - 1 - j))) ∧
          (∀ q, q < s.encBits.toNat → bitRead m q = bitRead s.pbuf q) ∧
          (∀ q, s.encBits.toNat + n.toNat ≤ q → q / 8 = (s.encBits.toNat + n.toNat - 1) / 8 → bitRead m q =
            if s.encBits.toNat % 8 ≠ 0 ∧ q / 8 = s.encBits.toNat / 8 then bitRead s.pbuf q else .ok false) ∧
          (∀ a, a < s.encBits.toNat / 8 ∨ (s.encBits.toNat + n.toNat - 1) / 8 < a → m.read? a = s.pbuf.read? a))

/-- R152: PBWR. -/
def Obligations.PbwrStoresOneByte : Prop :=
  AllIllegal (fun w => w.extractLsb' 0 8 = 0x0E ∧ (w.extractLsb' 16 8 ≠ 0 ∨ w.extractLsb' 24 8 ≠ 0)) ∧
    ∀ (data : Byte) (s : State), encode (.pbwr data) = 0#16 ++ data ++ 0x0E#8 ∧
      (s.encOpen = true → FailsWith (.pbwr data) s .phaseError s.statusWord) ∧
      (s.encOpen = false → s.params.pbufBytes ≤ s.opa.toNat → FailsWith (.pbwr data) s .addressRange s.opa) ∧
      (s.encOpen = false → s.opa.toNat < s.params.pbufBytes →
        ∃ m, exec (.pbwr data) s = .next { s with pbuf := m, encDone := false, lastFail := false } ∧
          m.read? s.opa.toNat = some data ∧ ∀ a, a ≠ s.opa.toNat → m.read? a = s.pbuf.read? a)

/-- R153, R55: PBRD. -/
def Obligations.PbrdReadsOneByte : Prop :=
  encode .pbrd = 0x0000000F ∧ AllIllegal (fun w => w.extractLsb' 0 8 = 0x0F ∧ w ≠ 0x0000000F) ∧
    ∀ s : State, (s.params.pbufBytes ≤ s.opa.toNat → FailsWith .pbrd s .addressRange s.opa) ∧
      (s.opa.toNat < s.params.pbufBytes →
        (∀ v, s.pbuf.read? s.opa.toNat = some v →
          exec .pbrd s = .next { s with res := v.setWidth 32, lastFail := false }) ∧
        (s.pbuf.written s.opa.toNat = false → exec .pbrd s = .fault (.uninitRead .pbuf s.opa.toNat)))

/-! ### Decoder -/

/-- R172, R174, R175, R176: DEC in terms of the walk of R173: its encoding, its checks, the commit of a walk that
succeeds and the report of one that fails. The walk state CUR is not readable, and its value afterwards is left open. -/
def Obligations.DecRunsTheWalk : Prop :=
  AllIllegal (fun w => w.extractLsb' 0 8 = 0x10 ∧
      (1 < (w.extractLsb' 16 8).toNat ∨ w.extractLsb' 8 8 ≠ 0 ∨ w.extractLsb' 24 8 ≠ 0)) ∧
    ∀ (aux : Byte) (s : State), aux.toNat ≤ 1 →
      encode (.dec aux) = 0#8 ++ aux ++ 0#8 ++ 0x10#8 ∧
      (s.built = false ∨ s.encOpen = true → FailsWith (.dec aux) s .phaseError s.statusWord) ∧
      (s.built = true → s.encOpen = false →
        let budget := if aux = 0 then s.totalBits.toNat else s.opa.toNat
        (8 * s.params.pbufBytes < budget →
          exec (.dec aux) s = .next ({ s with decDone := false, outLen := 0 }.raise (encode (.dec aux))
            .capacityExceeded (BitVec.ofNat 32 (min budget 0xFFFFFFFF)))) ∧
        (budget ≤ 8 * s.params.pbufBytes →
          match walk s budget 0 s.root [] with
          | .decoded out _ => ∃ m c, exec (.dec aux) s = .next
              { s with
                decBudget := BitVec.ofNat 32 budget, decPos := BitVec.ofNat 32 budget, cur := c, obuf := m
                outLen := BitVec.ofNat 32 out.length, decDone := true, lastFail := false } ∧
              (∀ i (h : i < out.length), m.read? i = some out[i]) ∧
              (∀ a, out.length ≤ a → m.read? a = s.obuf.read? a)
          | .failed e pos _ => ∃ c, exec (.dec aux) s = .next
              ({ s with
                 decDone := false, outLen := 0, decBudget := BitVec.ofNat 32 budget, decPos := BitVec.ofNat 32 pos
                 cur := c }.raise (encode (.dec aux)) e (BitVec.ofNat 32 pos))
          | .faulted f => exec (.dec aux) s = .fault f))

/-- R173, R188, R176: a budget of 0 decodes to nothing for every KIND, and an EMPTY tree decodes no bit: a larger budget
within PBUF fails with MALFORMED_ENCODED_DATA at position 0. That CUR is at the root afterwards is R41 for a success and the
model's choice for a failure (log entry 6). -/
def Obligations.DecOfNothingAndOfAnEmptyTree : Prop :=
  ∀ (aux : Byte) (s : State), aux.toNat ≤ 1 → s.built = true → s.encOpen = false →
    (decodeBudget aux s = 0 → exec (.dec aux) s = .next
      { s with decBudget := 0, decPos := 0, cur := s.root, outLen := 0, decDone := true, lastFail := false }) ∧
    (s.kind = .empty → 0 < decodeBudget aux s → decodeBudget aux s ≤ 8 * s.params.pbufBytes →
      exec (.dec aux) s = .next
        ({ s with
           decDone := false, outLen := 0, decBudget := BitVec.ofNat 32 (decodeBudget aux s), decPos := 0
           cur := s.root }.raise (encode (.dec aux)) .malformedEncodedData 0))

/-- R173, R189: DEC of a DEGENERATE tree: n bits 0 decode to n copies of the symbol; the first bit 1 is malformed; one
symbol more than OBUF holds is a capacity failure. That CUR is at the root after a failure too is the model's choice (log
entry 6). -/
def Obligations.DecOfADegenerateTree : Prop :=
  ∀ (aux : Byte) (s : State), aux.toNat ≤ 1 → s.built = true → s.encOpen = false → s.kind = .degenerate →
    decodeBudget aux s ≤ 8 * s.params.pbufBytes →
    ((∀ p, p < decodeBudget aux s → bitRead s.pbuf p = .ok false) → decodeBudget aux s ≤ s.params.obufBytes →
      ∃ m, exec (.dec aux) s = .next
          { s with
            decBudget := BitVec.ofNat 32 (decodeBudget aux s), decPos := BitVec.ofNat 32 (decodeBudget aux s)
            cur := s.root, obuf := m, outLen := BitVec.ofNat 32 (decodeBudget aux s), decDone := true
            lastFail := false } ∧
        (∀ i, i < decodeBudget aux s → m.read? i = some (nodeAt s.node 0).sym) ∧
        (∀ a, decodeBudget aux s ≤ a → m.read? a = s.obuf.read? a)) ∧
    (∀ p, p < decodeBudget aux s → p ≤ s.params.obufBytes → (∀ q, q < p → bitRead s.pbuf q = .ok false) →
      bitRead s.pbuf p = .ok true →
      exec (.dec aux) s = .next
        ({ s with
           decDone := false, outLen := 0, decBudget := BitVec.ofNat 32 (decodeBudget aux s)
           decPos := BitVec.ofNat 32 (p + 1), cur := s.root }.raise (encode (.dec aux)) .malformedEncodedData
          (BitVec.ofNat 32 (p + 1)))) ∧
    (s.params.obufBytes < decodeBudget aux s → (∀ q, q ≤ s.params.obufBytes → bitRead s.pbuf q = .ok false) →
      exec (.dec aux) s = .next
        ({ s with
           decDone := false, outLen := 0, decBudget := BitVec.ofNat 32 (decodeBudget aux s)
           decPos := BitVec.ofNat 32 (s.params.obufBytes + 1), cur := s.root }.raise (encode (.dec aux))
          .capacityExceeded (BitVec.ofNat 32 (s.params.obufBytes + 1))))

/-- R171, R173, R175, R179: where tree and table agree, DEC of a stream that is the concatenation of the codes of a
sequence of symbols that fits OBUF decodes exactly that sequence, and writes no other byte of OBUF. -/
def Obligations.DecInvertsConcatenatedCodes : Prop :=
  ∀ (aux : Byte) (s : State) (xs : List Byte), aux.toNat ≤ 1 → s.built = true → s.encOpen = false →
    s.kind ≠ .none → s.kind ≠ .empty → TableInvariant s → (∀ x ∈ xs, s.hasCode x) →
    xs.length ≤ s.params.obufBytes → decodeBudget aux s ≤ 8 * s.params.pbufBytes →
    decodeBudget aux s = (xs.flatMap s.codeOf).length →
    (∀ p (h : p < (xs.flatMap s.codeOf).length), bitRead s.pbuf p = .ok (xs.flatMap s.codeOf)[p]) →
    ∃ m, exec (.dec aux) s = .next
        { s with
          decBudget := BitVec.ofNat 32 (decodeBudget aux s), decPos := BitVec.ofNat 32 (decodeBudget aux s)
          cur := s.root, obuf := m, outLen := BitVec.ofNat 32 xs.length, decDone := true, lastFail := false } ∧
      (∀ i (h : i < xs.length), m.read? i = some xs[i]) ∧
      (∀ a, xs.length ≤ a → m.read? a = s.obuf.read? a)

/-- R180: what DEC detects in a GENERAL tree: with OBUF large enough, a readable stream decodes exactly when it is a
concatenation of whole codes, and otherwise it fails with MALFORMED_ENCODED_DATA at the end of the budget. -/
def Obligations.DecFailsExactlyInsideACode : Prop :=
  ∀ (aux : Byte) (s t : State) (bits : List Bool), aux.toNat ≤ 1 → s.built = true → s.encOpen = false →
    s.kind = .general → TableInvariant s → bits.length = decodeBudget aux s →
    bits.length ≤ 8 * s.params.pbufBytes → bits.length ≤ s.params.obufBytes →
    (∀ p (h : p < bits.length), bitRead s.pbuf p = .ok bits[p]) → exec (.dec aux) s = .next t →
    ((∃ xs : List Byte, (∀ x ∈ xs, s.hasCode x) ∧ bits = xs.flatMap s.codeOf) ↔ t.lastFail = false) ∧
      (t.lastFail = true → t.err.extractLsb' 0 8 = 6#8 ∧ t.decPos = BitVec.ofNat 32 bits.length ∧
        t.errInfo = BitVec.ofNat 32 bits.length)

/-- R178: DEC reads only stream bits below its budget: two PBUF contents that agree on those bits decode alike. -/
def Obligations.DecReadsOnlyBitsBelowTheBudget : Prop :=
  ∀ (aux : Byte) (s : State) (m : Memory),
    (∀ p, p < decodeBudget aux s → bitRead m p = bitRead s.pbuf p) →
    match exec (.dec aux) s with
    | .next t => exec (.dec aux) { s with pbuf := m } = .next { t with pbuf := m }
    | .fault f => exec (.dec aux) { s with pbuf := m } = .fault f
    | .refused r => exec (.dec aux) { s with pbuf := m } = .refused r

/-- R175: a DEC that fails does not write OBUF, and after its precondition checks leaves OUT_LEN = 0 and DEC_DONE = 0; a
DEC that succeeds has decoded at most OBUF_BYTES bytes. -/
def Obligations.DecWritesObufOnlyOnSuccess : Prop :=
  ∀ (aux : Byte) (s t : State), exec (.dec aux) s = .next t →
    (t.lastFail = true → t.obuf = s.obuf ∧
      (s.built = true → s.encOpen = false → aux.toNat ≤ 1 → t.outLen = 0 ∧ t.decDone = false)) ∧
    (t.lastFail = false → t.decDone = true ∧ t.outLen.toNat ≤ s.params.obufBytes)

/-- R177, R57: ORD. -/
def Obligations.OrdReadsOneDecodedByte : Prop :=
  encode .ord = 0x00000011 ∧ AllIllegal (fun w => w.extractLsb' 0 8 = 0x11 ∧ w ≠ 0x00000011) ∧
    ∀ s : State, (s.outLen.toNat ≤ s.opa.toNat → FailsWith .ord s .addressRange s.opa) ∧
      (s.opa.toNat < s.outLen.toNat → ∀ v, s.obuf.read? s.opa.toNat = some v →
        exec .ord s = .next { s with res := v.setWidth 32, lastFail := false })

/-- R145, R154, R155, R156: ENCODE of any bytes that have codes, where they fit: no command fails, ENC_BITS is the sum of
the code lengths, the packed stream is the concatenation of the codes in input order, and the padding is 0. -/
def Obligations.EncodePacksTheConcatenatedCodes : Prop :=
  ∀ (s : State) (xs : List Byte), s.params.valid → s.built = true → s.encOpen = false → s.errValid = false →
    (∀ x ∈ xs, s.hasCode x) → (xs.flatMap s.codeOf).length ≤ 8 * s.params.pbufBytes →
    ∃ t, Host.Core.run Sys2Proof.core (xs.length + 2)
        { s with pending := (Macro.encode xs).expand s.params } = .next t ∧
      t.lastFail = false ∧ t.errValid = false ∧ t.encOpen = false ∧ t.encDone = true ∧
      t.encBits.toNat = (xs.map fun x => (entry s.ct x).len.toNat).sum ∧
      (∀ p (h : p < (xs.flatMap s.codeOf).length), bitRead t.pbuf p = .ok (xs.flatMap s.codeOf)[p]) ∧
      (∀ p, t.encBits.toNat ≤ p → p < 8 * bytesFor t.encBits.toNat → bitRead t.pbuf p = .ok false)

/-- R156, R179: the round trip, for every byte sequence x that OBUF can hold: from any state, BUILDFROM x succeeds, and
if TOTAL_BITS fits PBUF, ENCODE x then DEC.T succeed, pack TOTAL_BITS bits and give x back. BUILDFROM begins with CLEAR, so
ERR_VALID = 0 at the end says that no command since failed. -/
def Obligations.RoundTripGivesTheInputBack : Prop :=
  ∀ (s : State) (x : List Byte), s.params.valid → s.params.maxCodeLen = 255 → x.length ≤ s.params.obufBytes →
    ∃ u, Host.Core.run Sys2Proof.core (x.length + 2)
        { s with pending := (Macro.buildFrom x).expand s.params } = .next u ∧
      u.lastFail = false ∧ u.errValid = false ∧ u.built = true ∧
      (u.totalBits.toNat ≤ 8 * s.params.pbufBytes →
        ∃ t, Host.Core.run Sys2Proof.core (x.length + 3)
            { u with pending := (Macro.encode x).expand s.params ++ Macro.decT.expand s.params } = .next t ∧
          t.lastFail = false ∧ t.errValid = false ∧ t.encDone = true ∧ t.encBits.toNat = u.totalBits.toNat ∧
          t.decDone = true ∧ t.outLen.toNat = x.length ∧ ∀ i (h : i < x.length), t.obuf.read? i = some x[i])
end

