-- ==== Sys2Proof/Laws/Decode.lean ====
section
/-! SUPPORT. The fields of an assembled word, and the decoder's checks on it. -/

namespace Sys2Proof

/-- The bits of an assembled word (R70). -/
theorem getLsbD_assemble (opc sym aux : Byte) (i : Nat) :
    (assemble opc sym aux).getLsbD i =
      if i < 8 then opc.getLsbD i else if i < 16 then sym.getLsbD (i - 8) else
        if i < 24 then aux.getLsbD (i - 16) else false := by
  show (0#8 ++ aux ++ sym ++ opc : BitVec (8 + 8 + 8 + 8)).getLsbD i = _
  simp only [BitVec.getLsbD_append]
  by_cases h0 : i < 8
  · simp [h0]
  · by_cases h1 : i < 16
    · simp [h0, h1, show i - 8 < 8 by omega]
    · by_cases h2 : i < 24
      · simp [h0, h1, h2, show ¬i - 8 < 8 by omega, show i - 16 < 8 by omega, show i - 8 - 8 = i - 16 by omega]
      · simp [h0, h1, h2, show ¬i - 8 < 8 by omega, show ¬i - 8 - 8 < 8 by omega]

@[simp] theorem fieldOpc_assemble (opc sym aux : Byte) : fieldOpc (assemble opc sym aux) = opc := by
  apply BitVec.eq_of_getLsbD_eq
  intro i hi
  simp only [fieldOpc, BitVec.getLsbD_extractLsb', getLsbD_assemble]
  simp [hi]

@[simp] theorem fieldSym_assemble (opc sym aux : Byte) : fieldSym (assemble opc sym aux) = sym := by
  apply BitVec.eq_of_getLsbD_eq
  intro i hi
  simp only [fieldSym, BitVec.getLsbD_extractLsb', getLsbD_assemble]
  simp [hi, show 8 + i < 16 by omega]

@[simp] theorem fieldAux_assemble (opc sym aux : Byte) : fieldAux (assemble opc sym aux) = aux := by
  apply BitVec.eq_of_getLsbD_eq
  intro i hi
  simp only [fieldAux, BitVec.getLsbD_extractLsb', getLsbD_assemble]
  simp [hi, show ¬16 + i < 8 by omega, show 16 + i < 24 by omega]

@[simp] theorem fieldRsv_assemble (opc sym aux : Byte) : fieldRsv (assemble opc sym aux) = 0 := by
  apply BitVec.eq_of_getLsbD_eq
  intro i hi
  simp only [fieldRsv, BitVec.getLsbD_extractLsb', getLsbD_assemble]
  simp [show ¬24 + i < 8 by omega, show ¬24 + i < 16 by omega]

/-- A word is its four fields. -/
theorem assemble_fields (w : Word) (h : fieldRsv w = 0) : assemble (fieldOpc w) (fieldSym w) (fieldAux w) = w := by
  have hr : ∀ k, k < 8 → w.getLsbD (24 + k) = false := by
    intro k hk
    have := congrArg (fun b : Byte => b.getLsbD k) h
    simpa [fieldRsv, hk] using this
  apply BitVec.eq_of_getLsbD_eq
  intro i hi
  simp only [getLsbD_assemble, fieldOpc, fieldSym, fieldAux, BitVec.getLsbD_extractLsb']
  by_cases h0 : i < 8
  · simp [h0]
  · by_cases h1 : i < 16
    · simp [h0, h1, show i - 8 < 8 by omega, show 8 + (i - 8) = i by omega]
    · by_cases h2 : i < 24
      · simp [h0, h1, h2, show i - 16 < 8 by omega, show 16 + (i - 16) = i by omega]
      · have := hr (i - 24) (by omega)
        rw [show 24 + (i - 24) = i by omega] at this
        simp [h0, h1, h2, this]

/-- The guard's AUX check is well-formedness. -/
theorem auxLegal_eq_wellFormed (i : Instr) : auxLegal i = i.wellFormed := by
  cases i <;> rfl

end Sys2Proof
end

