-- ==== Sys2Proof/Laws/Memory.lean ====
section
/-! SUPPORT. The laws of the byte spaces: a read after a write, the canonical form, and the commit loop. -/

namespace Sys2Proof.Machine

open Sys2Proof

@[simp] theorem Memory.read?_nil (a : Nat) : Memory.read? [] a = none := rfl

theorem Memory.read?_cons (c : Host.Cell) (m : Memory) (a : Nat) :
    Memory.read? (c :: m) a = if c.1 = a then some c.2 else Memory.read? m a := rfl

@[simp] theorem Memory.write_nil (a : Nat) (v : Byte) : Memory.write [] a v = [(a, v)] := rfl

/-- A byte reads as it was written; every other byte reads as before. -/
theorem Memory.read?_write (m : Memory) (a : Nat) (v : Byte) (x : Nat) :
    (m.write a v).read? x = if x = a then some v else m.read? x := by
  induction m with
  | nil =>
    by_cases h : x = a
    · simp [Memory.read?_cons, h]
    · simp [Memory.read?_cons, h, Ne.symm h]
  | cons c m ih =>
    simp only [Memory.write]
    split
    · by_cases h : x = a
      · simp [Memory.read?_cons, h]
      · simp [Memory.read?_cons, h, Ne.symm h]
    · split
      · next h =>
        by_cases hx : x = a
        · simp [Memory.read?_cons, hx]
        · simp [Memory.read?_cons, hx, ← h, Ne.symm hx]
      · next h =>
        by_cases hx : x = a
        · subst hx
          simp [Memory.read?_cons, ih, Ne.symm h]
        · simp [Memory.read?_cons, ih, hx]

@[simp] theorem Memory.read?_write_same (m : Memory) (a : Nat) (v : Byte) : (m.write a v).read? a = some v := by
  simp [Memory.read?_write]

theorem Memory.read?_write_other (m : Memory) {a x : Nat} (v : Byte) (h : x ≠ a) :
    (m.write a v).read? x = m.read? x := by
  simp [Memory.read?_write, h]

theorem Memory.written_write (m : Memory) (a : Nat) (v : Byte) (x : Nat) :
    (m.write a v).written x = (decide (x = a) || m.written x) := by
  by_cases h : x = a <;> simp [Memory.written, Memory.read?_write, h]

/-- The first address of a write's result is the written one or the old first one. -/
theorem Memory.write_head (c : Host.Cell) (m : Memory) (a : Nat) (v : Byte) (h : c.1 < a) :
    ∃ m', Memory.write (c :: m) a v = c :: m' := by
  have h1 : ¬a < c.1 := by omega
  have h2 : a ≠ c.1 := by omega
  exact ⟨Memory.write m a v, by simp [Memory.write, h1, h2]⟩

/-- A write keeps the canonical form. -/
theorem Memory.wf_write (m : Memory) (a : Nat) (v : Byte) (h : m.wf = true) : (m.write a v).wf = true := by
  induction m with
  | nil => rfl
  | cons c m ih =>
    have hm : Memory.wf m = true := by
      cases m with
      | nil => rfl
      | cons d m =>
        simp only [Memory.wf, Bool.and_eq_true] at h
        exact h.2
    simp only [Memory.write]
    split
    · next hlt =>
      simp only [Memory.wf, Bool.and_eq_true, decide_eq_true_eq]
      exact ⟨hlt, h⟩
    · split
      · next heq =>
        subst heq
        cases m with
        | nil => rfl
        | cons d m =>
          simp only [Memory.wf, Bool.and_eq_true] at h ⊢
          exact h
      · next hge hne =>
        have hlt : c.1 < a := by omega
        cases m with
        | nil => simp [Memory.write, Memory.wf, hlt]
        | cons d m =>
          have hcd : c.1 < d.1 := by simp only [Memory.wf, Bool.and_eq_true, decide_eq_true_eq] at h; exact h.1
          have ih := ih hm
          simp only [Memory.write] at ih ⊢
          split
          · next hda =>
            simp only [hda, if_true] at ih
            simp only [Memory.wf, Bool.and_eq_true, decide_eq_true_eq] at ih ⊢
            exact ⟨hlt, ih⟩
          · next hda =>
            simp only [hda, if_false] at ih
            split
            · next heq =>
              simp only [heq, if_true] at ih
              simp only [Memory.wf, Bool.and_eq_true, decide_eq_true_eq]
              exact ⟨by omega, heq ▸ ih⟩
            · next hne' =>
              simp only [hne', if_false] at ih
              simp only [Memory.wf, Bool.and_eq_true, decide_eq_true_eq]
              exact ⟨hcd, ih⟩

/-- A write inside the buffer keeps every listed address inside it. -/
theorem Memory.below_write (m : Memory) (a : Nat) (v : Byte) (size : Nat) (h : m.below size = true) (ha : a < size) :
    (m.write a v).below size = true := by
  induction m with
  | nil => simp [Memory.below, ha]
  | cons c m ih =>
    simp only [Memory.below, List.all_cons, Bool.and_eq_true, decide_eq_true_eq] at h ih
    simp only [Memory.write]
    split
    · simp only [Memory.below, List.all_cons, Bool.and_eq_true, decide_eq_true_eq]
      exact ⟨ha, h⟩
    · split
      · simp only [Memory.below, List.all_cons, Bool.and_eq_true, decide_eq_true_eq]
        exact ⟨ha, h.2⟩
      · simp only [Memory.below, List.all_cons, Bool.and_eq_true, decide_eq_true_eq]
        exact ⟨h.1, ih h.2⟩

/-- A byte outside the buffer was never written. -/
theorem Memory.read?_eq_none_of_below (m : Memory) {size a : Nat} (h : m.below size = true) (ha : size ≤ a) :
    m.read? a = none := by
  induction m with
  | nil => rfl
  | cons c m ih =>
    simp only [Memory.below, List.all_cons, Bool.and_eq_true, decide_eq_true_eq] at h ih
    have hne : c.1 ≠ a := by omega
    simp [Memory.read?_cons, hne, ih h.2]

/-- The commit loop writes exactly its bytes, at consecutive addresses. -/
theorem Memory.read?_writeAll (vs : List Byte) (m : Memory) (a x : Nat) :
    (m.writeAll a vs).read? x = if a ≤ x ∧ x < a + vs.length then vs[x - a]? else m.read? x := by
  induction vs generalizing m a with
  | nil =>
    have : ¬(a ≤ x ∧ x < a) := by omega
    simp [Memory.writeAll, this]
  | cons v vs ih =>
    simp only [Memory.writeAll, ih, List.length_cons]
    by_cases hx : x = a
    · subst hx
      simp
    · by_cases hr : a + 1 ≤ x ∧ x < a + 1 + vs.length
      · have hr' : a ≤ x ∧ x < a + (vs.length + 1) := by omega
        have he : x - a = (x - (a + 1)) + 1 := by omega
        rw [if_pos hr, if_pos hr', he, List.getElem?_cons_succ]
      · have hr' : ¬(a ≤ x ∧ x < a + (vs.length + 1)) := by omega
        rw [if_neg hr, if_neg hr', Memory.read?_write_other _ _ hx]

theorem Memory.wf_writeAll (vs : List Byte) (m : Memory) (a : Nat) (h : m.wf = true) :
    (m.writeAll a vs).wf = true := by
  induction vs generalizing m a with
  | nil => exact h
  | cons v vs ih => exact ih _ _ (Memory.wf_write m a v h)

theorem Memory.below_writeAll (vs : List Byte) (m : Memory) (a size : Nat) (h : m.below size = true)
    (ha : a + vs.length ≤ size) : (m.writeAll a vs).below size = true := by
  induction vs generalizing m a with
  | nil => exact h
  | cons v vs ih =>
    simp only [List.length_cons] at ha
    exact ih _ _ (Memory.below_write m a v size h (by omega)) (by omega)

/-- Nothing is listed at or below the first address of a canonical list's tail. -/
theorem Memory.read?_lt_head {c : Host.Cell} {m : Memory} (h : Memory.wf (c :: m) = true) {a : Nat} (ha : a ≤ c.1) :
    m.read? a = none := by
  induction m generalizing c with
  | nil => rfl
  | cons d m ih =>
    simp only [Memory.wf, Bool.and_eq_true, decide_eq_true_eq] at h
    have hne : d.1 ≠ a := by omega
    rw [Memory.read?_cons, if_neg hne]
    exact ih h.2 (by omega)

/-- Two canonical memories that read alike are equal. -/
theorem Memory.eq_of_read? {m n : Memory} (hm : m.wf = true) (hn : n.wf = true)
    (h : ∀ a, m.read? a = n.read? a) : m = n := by
  have tail : ∀ {c : Host.Cell} {l : Memory}, Memory.wf (c :: l) = true → Memory.wf l = true := by
    intro c l hl
    cases l with
    | nil => rfl
    | cons d l =>
      simp only [Memory.wf, Bool.and_eq_true] at hl
      exact hl.2
  induction m generalizing n with
  | nil =>
    cases n with
    | nil => rfl
    | cons d n => simpa [Memory.read?_cons] using h d.1
  | cons c m ih =>
    cases n with
    | nil => simpa [Memory.read?_cons] using h c.1
    | cons d n =>
      have hcd : c.1 = d.1 := by
        rcases Nat.lt_trichotomy c.1 d.1 with hlt | heq | hgt
        · have := h c.1
          rw [Memory.read?_cons, if_pos rfl, Memory.read?_cons, if_neg (by omega),
            Memory.read?_lt_head hn (by omega)] at this
          cases this
        · exact heq
        · have := h d.1
          rw [Memory.read?_cons (c := d), if_pos rfl, Memory.read?_cons, if_neg (by omega),
            Memory.read?_lt_head hm (by omega)] at this
          cases this
      have hv : c.2 = d.2 := by
        have := h c.1
        rw [Memory.read?_cons, if_pos rfl, Memory.read?_cons, if_pos hcd.symm] at this
        exact Option.some.inj this
      have hmn : m = n := by
        refine ih (tail hm) (tail hn) fun a => ?_
        by_cases ha : a ≤ c.1
        · rw [Memory.read?_lt_head hm ha, Memory.read?_lt_head hn (by omega)]
        · have := h a
          rwa [Memory.read?_cons, if_neg (by omega), Memory.read?_cons, if_neg (by omega)] at this
      rw [hmn, Prod.ext hcd hv]

theorem memRead_eq_ok {b : Buffer} {m : Memory} {a : Nat} {v : Byte} :
    memRead b m a = .ok v ↔ m.read? a = some v := by
  unfold memRead
  split <;> simp [*]

theorem memRead_eq_error {b : Buffer} {m : Memory} {a : Nat} {f : Fault} :
    memRead b m a = .error f ↔ m.read? a = none ∧ f = .uninitRead b a := by
  unfold memRead
  split <;> simp [*, eq_comm]

end Sys2Proof.Machine
end

