-- ==== Sys2Proof/Laws/Operands.lean ====
section
/-! SUPPORT. The laws of the register files: a read after a write, and the initial contents. -/

namespace Sys2Proof.Machine

open Sys2Proof

@[simp] theorem entry_setEntry_same {α : Type} (v : Vector α 256) (sym : Byte) (x : α) :
    entry (setEntry v sym x) sym = x := by
  simp [entry, setEntry]

theorem entry_setEntry_other {α : Type} (v : Vector α 256) {sym sym' : Byte} (x : α) (h : sym' ≠ sym) :
    entry (setEntry v sym x) sym' = entry v sym' := by
  have hn : sym.toNat ≠ sym'.toNat := fun he => h (BitVec.eq_of_toNat_eq he.symm)
  simp [entry, setEntry, hn]

@[simp] theorem entry_replicate {α : Type} (x : α) (sym : Byte) : entry (Vector.replicate 256 x) sym = x := by
  simp [entry]

/-- Two register files with the same entries are equal. -/
theorem entry_ext {α : Type} {v w : Vector α 256} (h : ∀ sym, entry v sym = entry w sym) : v = w := by
  ext i hi
  have := h (BitVec.ofNat 8 i)
  simpa [entry, Nat.mod_eq_of_lt hi] using this

theorem nodeAt_setIfInBounds (v : Vector Node 511) (i n : Nat) (e : Node) :
    nodeAt (v.setIfInBounds i e) n = if i = n ∧ n < 511 then e else nodeAt v n := by
  unfold nodeAt
  rw [Vector.getElem?_setIfInBounds]
  by_cases h : i = n
  · subst h
    by_cases hi : i < 511
    · simp [hi]
    · simp [hi]
  · simp [h]

theorem heapAt_setIfInBounds (v : Vector NodeId 256) (i n : Nat) (e : NodeId) :
    heapAt (v.setIfInBounds i e) n = if i = n ∧ n < 256 then e else heapAt v n := by
  unfold heapAt
  rw [Vector.getElem?_setIfInBounds]
  by_cases h : i = n
  · subst h
    by_cases hi : i < 256
    · simp [hi]
    · simp [hi]
  · simp [h]

/-- What a swap of two positions in the heap array leaves. -/
theorem heapAt_heapSwap (v : Vector NodeId 256) {i j : Nat} (hi : i < 256) (hj : j < 256) (n : Nat) :
    heapAt (heapSwap v i j) n = if n = j then heapAt v i else if n = i then heapAt v j else heapAt v n := by
  unfold heapSwap
  rw [heapAt_setIfInBounds, heapAt_setIfInBounds]
  by_cases h1 : n = j
  · subst h1; simp [hj]
  · by_cases h2 : n = i
    · subst h2; simp [hi, h1, Ne.symm h1]
    · simp [h1, h2, Ne.symm h1, Ne.symm h2]

@[simp] theorem Builder.insert_node (b : Builder) (n : NodeId) : (b.insert n).node = b.node := rfl
@[simp] theorem Builder.insert_hsize (b : Builder) (n : NodeId) : (b.insert n).hsize = b.hsize + 1 := rfl
@[simp] theorem Builder.insert_next (b : Builder) (n : NodeId) : (b.insert n).next = b.next := rfl
@[simp] theorem Builder.pop_node (b : Builder) : b.pop.node = b.node := rfl
@[simp] theorem Builder.pop_hsize (b : Builder) : b.pop.hsize = b.hsize - 1 := rfl
@[simp] theorem Builder.pop_next (b : Builder) : b.pop.next = b.next := rfl
@[simp] theorem Builder.addNode_next (b : Builder) (e : Node) : (b.addNode e).next = b.next + 1 := rfl
@[simp] theorem Builder.addNode_hsize (b : Builder) (e : Node) : (b.addNode e).hsize = b.hsize + 1 := rfl
@[simp] theorem Builder.addNode_node (b : Builder) (e : Node) :
    (b.addNode e).node = b.node.setIfInBounds b.next e := rfl
@[simp] theorem Builder.merge_next (b : Builder) : b.merge.next = b.next + 1 := rfl
@[simp] theorem Builder.merge_hsize (b : Builder) : b.merge.hsize = b.hsize - 1 - 1 + 1 := rfl

/-- The leaf pass creates one node and one queue entry a present symbol (R111, R114). -/
theorem loadLeaves_counts (fs : List Word) (sym : Nat) (b : Builder) :
    (loadLeaves fs sym b).next = b.next + fs.countP (fun f => f != 0) ∧
      (loadLeaves fs sym b).hsize = b.hsize + fs.countP (fun f => f != 0) := by
  induction fs generalizing sym b with
  | nil => exact ⟨rfl, rfl⟩
  | cons f fs ih =>
    simp only [loadLeaves, List.countP_cons]
    by_cases h : f = 0
    · simpa [h] using ih (sym + 1) b
    · obtain ⟨h1, h2⟩ := ih (sym + 1) (b.addNode (leafNode (BitVec.ofNat 8 sym) f))
      simp only [Builder.addNode_next, Builder.addNode_hsize] at h1 h2
      simp only [bne_iff_ne, ne_eq, h, not_false_eq_true, if_true]
      omega

/-- The merge loop empties the queue to one node and creates one node a merge (R114, R116). -/
theorem mergeLoop_counts (fuel : Nat) (b : Builder) (h1 : 1 ≤ b.hsize) (h2 : b.hsize ≤ fuel + 1) :
    (mergeLoop fuel b).hsize = 1 ∧ (mergeLoop fuel b).next = b.next + (b.hsize - 1) := by
  induction fuel generalizing b with
  | zero => simp only [mergeLoop]; omega
  | succ fuel ih =>
    simp only [mergeLoop]
    split
    · omega
    · next h =>
      obtain ⟨h3, h4⟩ := ih b.merge (by simp) (by simp; omega)
      rw [Builder.merge_hsize, Builder.merge_next] at h4
      exact ⟨h3, by omega⟩

end Sys2Proof.Machine
end

