-- ==== Sys2Proof/Laws/State.lean ====
section
/-! SUPPORT. What each named update of the state does to each field, true by rfl, so that no proof unfolds an
update. -/

namespace Sys2Proof.Machine

open Sys2Proof

/-! ### State.ok -/

@[simp] theorem State.ok_params (s : State) : s.ok.params = s.params := rfl
@[simp] theorem State.ok_cmd (s : State) : s.ok.cmd = s.cmd := rfl
@[simp] theorem State.ok_opa (s : State) : s.ok.opa = s.opa := rfl
@[simp] theorem State.ok_res (s : State) : s.ok.res = s.res := rfl
@[simp] theorem State.ok_built (s : State) : s.ok.built = s.built := rfl
@[simp] theorem State.ok_kind (s : State) : s.ok.kind = s.kind := rfl
@[simp] theorem State.ok_encOpen (s : State) : s.ok.encOpen = s.encOpen := rfl
@[simp] theorem State.ok_encDone (s : State) : s.ok.encDone = s.encDone := rfl
@[simp] theorem State.ok_decDone (s : State) : s.ok.decDone = s.decDone := rfl
@[simp] theorem State.ok_lastFail (s : State) : s.ok.lastFail = false := rfl
@[simp] theorem State.ok_errValid (s : State) : s.ok.errValid = s.errValid := rfl
@[simp] theorem State.ok_errLost (s : State) : s.ok.errLost = s.errLost := rfl
@[simp] theorem State.ok_err (s : State) : s.ok.err = s.err := rfl
@[simp] theorem State.ok_errInfo (s : State) : s.ok.errInfo = s.errInfo := rfl
@[simp] theorem State.ok_totalBits (s : State) : s.ok.totalBits = s.totalBits := rfl
@[simp] theorem State.ok_nsym (s : State) : s.ok.nsym = s.nsym := rfl
@[simp] theorem State.ok_nnode (s : State) : s.ok.nnode = s.nnode := rfl
@[simp] theorem State.ok_root (s : State) : s.ok.root = s.root := rfl
@[simp] theorem State.ok_encBits (s : State) : s.ok.encBits = s.encBits := rfl
@[simp] theorem State.ok_decBudget (s : State) : s.ok.decBudget = s.decBudget := rfl
@[simp] theorem State.ok_decPos (s : State) : s.ok.decPos = s.decPos := rfl
@[simp] theorem State.ok_outLen (s : State) : s.ok.outLen = s.outLen := rfl
@[simp] theorem State.ok_freq (s : State) : s.ok.freq = s.freq := rfl
@[simp] theorem State.ok_node (s : State) : s.ok.node = s.node := rfl
@[simp] theorem State.ok_ct (s : State) : s.ok.ct = s.ct := rfl
@[simp] theorem State.ok_heap (s : State) : s.ok.heap = s.heap := rfl
@[simp] theorem State.ok_hsize (s : State) : s.ok.hsize = s.hsize := rfl
@[simp] theorem State.ok_cur (s : State) : s.ok.cur = s.cur := rfl
@[simp] theorem State.ok_pbuf (s : State) : s.ok.pbuf = s.pbuf := rfl
@[simp] theorem State.ok_obuf (s : State) : s.ok.obuf = s.obuf := rfl
@[simp] theorem State.ok_pending (s : State) : s.ok.pending = s.pending := rfl
@[simp] theorem State.ok_reads (s : State) : s.ok.reads = s.reads := rfl

/-! ### State.raise -/

@[simp] theorem State.raise_params (w : Word) (e : ErrorCode) (info : Word) (s : State) : (s.raise w e info).params = s.params := rfl
@[simp] theorem State.raise_cmd (w : Word) (e : ErrorCode) (info : Word) (s : State) : (s.raise w e info).cmd = s.cmd := rfl
@[simp] theorem State.raise_opa (w : Word) (e : ErrorCode) (info : Word) (s : State) : (s.raise w e info).opa = s.opa := rfl
@[simp] theorem State.raise_res (w : Word) (e : ErrorCode) (info : Word) (s : State) : (s.raise w e info).res = s.res := rfl
@[simp] theorem State.raise_built (w : Word) (e : ErrorCode) (info : Word) (s : State) : (s.raise w e info).built = s.built := rfl
@[simp] theorem State.raise_kind (w : Word) (e : ErrorCode) (info : Word) (s : State) : (s.raise w e info).kind = s.kind := rfl
@[simp] theorem State.raise_encOpen (w : Word) (e : ErrorCode) (info : Word) (s : State) : (s.raise w e info).encOpen = s.encOpen := rfl
@[simp] theorem State.raise_encDone (w : Word) (e : ErrorCode) (info : Word) (s : State) : (s.raise w e info).encDone = s.encDone := rfl
@[simp] theorem State.raise_decDone (w : Word) (e : ErrorCode) (info : Word) (s : State) : (s.raise w e info).decDone = s.decDone := rfl
@[simp] theorem State.raise_lastFail (w : Word) (e : ErrorCode) (info : Word) (s : State) : (s.raise w e info).lastFail = true := rfl
@[simp] theorem State.raise_errValid (w : Word) (e : ErrorCode) (info : Word) (s : State) : (s.raise w e info).errValid = true := rfl
@[simp] theorem State.raise_errLost (w : Word) (e : ErrorCode) (info : Word) (s : State) : (s.raise w e info).errLost = (s.errLost || s.errValid) := rfl
@[simp] theorem State.raise_err (w : Word) (e : ErrorCode) (info : Word) (s : State) : (s.raise w e info).err = errWord w e := rfl
@[simp] theorem State.raise_errInfo (w : Word) (e : ErrorCode) (info : Word) (s : State) : (s.raise w e info).errInfo = info := rfl
@[simp] theorem State.raise_totalBits (w : Word) (e : ErrorCode) (info : Word) (s : State) : (s.raise w e info).totalBits = s.totalBits := rfl
@[simp] theorem State.raise_nsym (w : Word) (e : ErrorCode) (info : Word) (s : State) : (s.raise w e info).nsym = s.nsym := rfl
@[simp] theorem State.raise_nnode (w : Word) (e : ErrorCode) (info : Word) (s : State) : (s.raise w e info).nnode = s.nnode := rfl
@[simp] theorem State.raise_root (w : Word) (e : ErrorCode) (info : Word) (s : State) : (s.raise w e info).root = s.root := rfl
@[simp] theorem State.raise_encBits (w : Word) (e : ErrorCode) (info : Word) (s : State) : (s.raise w e info).encBits = s.encBits := rfl
@[simp] theorem State.raise_decBudget (w : Word) (e : ErrorCode) (info : Word) (s : State) : (s.raise w e info).decBudget = s.decBudget := rfl
@[simp] theorem State.raise_decPos (w : Word) (e : ErrorCode) (info : Word) (s : State) : (s.raise w e info).decPos = s.decPos := rfl
@[simp] theorem State.raise_outLen (w : Word) (e : ErrorCode) (info : Word) (s : State) : (s.raise w e info).outLen = s.outLen := rfl
@[simp] theorem State.raise_freq (w : Word) (e : ErrorCode) (info : Word) (s : State) : (s.raise w e info).freq = s.freq := rfl
@[simp] theorem State.raise_node (w : Word) (e : ErrorCode) (info : Word) (s : State) : (s.raise w e info).node = s.node := rfl
@[simp] theorem State.raise_ct (w : Word) (e : ErrorCode) (info : Word) (s : State) : (s.raise w e info).ct = s.ct := rfl
@[simp] theorem State.raise_heap (w : Word) (e : ErrorCode) (info : Word) (s : State) : (s.raise w e info).heap = s.heap := rfl
@[simp] theorem State.raise_hsize (w : Word) (e : ErrorCode) (info : Word) (s : State) : (s.raise w e info).hsize = s.hsize := rfl
@[simp] theorem State.raise_cur (w : Word) (e : ErrorCode) (info : Word) (s : State) : (s.raise w e info).cur = s.cur := rfl
@[simp] theorem State.raise_pbuf (w : Word) (e : ErrorCode) (info : Word) (s : State) : (s.raise w e info).pbuf = s.pbuf := rfl
@[simp] theorem State.raise_obuf (w : Word) (e : ErrorCode) (info : Word) (s : State) : (s.raise w e info).obuf = s.obuf := rfl
@[simp] theorem State.raise_pending (w : Word) (e : ErrorCode) (info : Word) (s : State) : (s.raise w e info).pending = s.pending := rfl
@[simp] theorem State.raise_reads (w : Word) (e : ErrorCode) (info : Word) (s : State) : (s.raise w e info).reads = s.reads := rfl

/-! ### State.clearReport -/

@[simp] theorem State.clearReport_params (s : State) : s.clearReport.params = s.params := rfl
@[simp] theorem State.clearReport_cmd (s : State) : s.clearReport.cmd = s.cmd := rfl
@[simp] theorem State.clearReport_opa (s : State) : s.clearReport.opa = s.opa := rfl
@[simp] theorem State.clearReport_res (s : State) : s.clearReport.res = s.res := rfl
@[simp] theorem State.clearReport_built (s : State) : s.clearReport.built = s.built := rfl
@[simp] theorem State.clearReport_kind (s : State) : s.clearReport.kind = s.kind := rfl
@[simp] theorem State.clearReport_encOpen (s : State) : s.clearReport.encOpen = s.encOpen := rfl
@[simp] theorem State.clearReport_encDone (s : State) : s.clearReport.encDone = s.encDone := rfl
@[simp] theorem State.clearReport_decDone (s : State) : s.clearReport.decDone = s.decDone := rfl
@[simp] theorem State.clearReport_lastFail (s : State) : s.clearReport.lastFail = s.lastFail := rfl
@[simp] theorem State.clearReport_errValid (s : State) : s.clearReport.errValid = false := rfl
@[simp] theorem State.clearReport_errLost (s : State) : s.clearReport.errLost = false := rfl
@[simp] theorem State.clearReport_err (s : State) : s.clearReport.err = 0 := rfl
@[simp] theorem State.clearReport_errInfo (s : State) : s.clearReport.errInfo = 0 := rfl
@[simp] theorem State.clearReport_totalBits (s : State) : s.clearReport.totalBits = s.totalBits := rfl
@[simp] theorem State.clearReport_nsym (s : State) : s.clearReport.nsym = s.nsym := rfl
@[simp] theorem State.clearReport_nnode (s : State) : s.clearReport.nnode = s.nnode := rfl
@[simp] theorem State.clearReport_root (s : State) : s.clearReport.root = s.root := rfl
@[simp] theorem State.clearReport_encBits (s : State) : s.clearReport.encBits = s.encBits := rfl
@[simp] theorem State.clearReport_decBudget (s : State) : s.clearReport.decBudget = s.decBudget := rfl
@[simp] theorem State.clearReport_decPos (s : State) : s.clearReport.decPos = s.decPos := rfl
@[simp] theorem State.clearReport_outLen (s : State) : s.clearReport.outLen = s.outLen := rfl
@[simp] theorem State.clearReport_freq (s : State) : s.clearReport.freq = s.freq := rfl
@[simp] theorem State.clearReport_node (s : State) : s.clearReport.node = s.node := rfl
@[simp] theorem State.clearReport_ct (s : State) : s.clearReport.ct = s.ct := rfl
@[simp] theorem State.clearReport_heap (s : State) : s.clearReport.heap = s.heap := rfl
@[simp] theorem State.clearReport_hsize (s : State) : s.clearReport.hsize = s.hsize := rfl
@[simp] theorem State.clearReport_cur (s : State) : s.clearReport.cur = s.cur := rfl
@[simp] theorem State.clearReport_pbuf (s : State) : s.clearReport.pbuf = s.pbuf := rfl
@[simp] theorem State.clearReport_obuf (s : State) : s.clearReport.obuf = s.obuf := rfl
@[simp] theorem State.clearReport_pending (s : State) : s.clearReport.pending = s.pending := rfl
@[simp] theorem State.clearReport_reads (s : State) : s.clearReport.reads = s.reads := rfl

/-! ### State.setRes -/

@[simp] theorem State.setRes_params (v : Word) (s : State) : (s.setRes v).params = s.params := rfl
@[simp] theorem State.setRes_cmd (v : Word) (s : State) : (s.setRes v).cmd = s.cmd := rfl
@[simp] theorem State.setRes_opa (v : Word) (s : State) : (s.setRes v).opa = s.opa := rfl
@[simp] theorem State.setRes_res (v : Word) (s : State) : (s.setRes v).res = v := rfl
@[simp] theorem State.setRes_built (v : Word) (s : State) : (s.setRes v).built = s.built := rfl
@[simp] theorem State.setRes_kind (v : Word) (s : State) : (s.setRes v).kind = s.kind := rfl
@[simp] theorem State.setRes_encOpen (v : Word) (s : State) : (s.setRes v).encOpen = s.encOpen := rfl
@[simp] theorem State.setRes_encDone (v : Word) (s : State) : (s.setRes v).encDone = s.encDone := rfl
@[simp] theorem State.setRes_decDone (v : Word) (s : State) : (s.setRes v).decDone = s.decDone := rfl
@[simp] theorem State.setRes_lastFail (v : Word) (s : State) : (s.setRes v).lastFail = s.lastFail := rfl
@[simp] theorem State.setRes_errValid (v : Word) (s : State) : (s.setRes v).errValid = s.errValid := rfl
@[simp] theorem State.setRes_errLost (v : Word) (s : State) : (s.setRes v).errLost = s.errLost := rfl
@[simp] theorem State.setRes_err (v : Word) (s : State) : (s.setRes v).err = s.err := rfl
@[simp] theorem State.setRes_errInfo (v : Word) (s : State) : (s.setRes v).errInfo = s.errInfo := rfl
@[simp] theorem State.setRes_totalBits (v : Word) (s : State) : (s.setRes v).totalBits = s.totalBits := rfl
@[simp] theorem State.setRes_nsym (v : Word) (s : State) : (s.setRes v).nsym = s.nsym := rfl
@[simp] theorem State.setRes_nnode (v : Word) (s : State) : (s.setRes v).nnode = s.nnode := rfl
@[simp] theorem State.setRes_root (v : Word) (s : State) : (s.setRes v).root = s.root := rfl
@[simp] theorem State.setRes_encBits (v : Word) (s : State) : (s.setRes v).encBits = s.encBits := rfl
@[simp] theorem State.setRes_decBudget (v : Word) (s : State) : (s.setRes v).decBudget = s.decBudget := rfl
@[simp] theorem State.setRes_decPos (v : Word) (s : State) : (s.setRes v).decPos = s.decPos := rfl
@[simp] theorem State.setRes_outLen (v : Word) (s : State) : (s.setRes v).outLen = s.outLen := rfl
@[simp] theorem State.setRes_freq (v : Word) (s : State) : (s.setRes v).freq = s.freq := rfl
@[simp] theorem State.setRes_node (v : Word) (s : State) : (s.setRes v).node = s.node := rfl
@[simp] theorem State.setRes_ct (v : Word) (s : State) : (s.setRes v).ct = s.ct := rfl
@[simp] theorem State.setRes_heap (v : Word) (s : State) : (s.setRes v).heap = s.heap := rfl
@[simp] theorem State.setRes_hsize (v : Word) (s : State) : (s.setRes v).hsize = s.hsize := rfl
@[simp] theorem State.setRes_cur (v : Word) (s : State) : (s.setRes v).cur = s.cur := rfl
@[simp] theorem State.setRes_pbuf (v : Word) (s : State) : (s.setRes v).pbuf = s.pbuf := rfl
@[simp] theorem State.setRes_obuf (v : Word) (s : State) : (s.setRes v).obuf = s.obuf := rfl
@[simp] theorem State.setRes_pending (v : Word) (s : State) : (s.setRes v).pending = s.pending := rfl
@[simp] theorem State.setRes_reads (v : Word) (s : State) : (s.setRes v).reads = s.reads := rfl

/-! ### State.setFreq -/

@[simp] theorem State.setFreq_params (sym : Byte) (v : Word) (s : State) : (s.setFreq sym v).params = s.params := rfl
@[simp] theorem State.setFreq_cmd (sym : Byte) (v : Word) (s : State) : (s.setFreq sym v).cmd = s.cmd := rfl
@[simp] theorem State.setFreq_opa (sym : Byte) (v : Word) (s : State) : (s.setFreq sym v).opa = s.opa := rfl
@[simp] theorem State.setFreq_res (sym : Byte) (v : Word) (s : State) : (s.setFreq sym v).res = s.res := rfl
@[simp] theorem State.setFreq_built (sym : Byte) (v : Word) (s : State) : (s.setFreq sym v).built = s.built := rfl
@[simp] theorem State.setFreq_kind (sym : Byte) (v : Word) (s : State) : (s.setFreq sym v).kind = s.kind := rfl
@[simp] theorem State.setFreq_encOpen (sym : Byte) (v : Word) (s : State) : (s.setFreq sym v).encOpen = s.encOpen := rfl
@[simp] theorem State.setFreq_encDone (sym : Byte) (v : Word) (s : State) : (s.setFreq sym v).encDone = s.encDone := rfl
@[simp] theorem State.setFreq_decDone (sym : Byte) (v : Word) (s : State) : (s.setFreq sym v).decDone = s.decDone := rfl
@[simp] theorem State.setFreq_lastFail (sym : Byte) (v : Word) (s : State) : (s.setFreq sym v).lastFail = s.lastFail := rfl
@[simp] theorem State.setFreq_errValid (sym : Byte) (v : Word) (s : State) : (s.setFreq sym v).errValid = s.errValid := rfl
@[simp] theorem State.setFreq_errLost (sym : Byte) (v : Word) (s : State) : (s.setFreq sym v).errLost = s.errLost := rfl
@[simp] theorem State.setFreq_err (sym : Byte) (v : Word) (s : State) : (s.setFreq sym v).err = s.err := rfl
@[simp] theorem State.setFreq_errInfo (sym : Byte) (v : Word) (s : State) : (s.setFreq sym v).errInfo = s.errInfo := rfl
@[simp] theorem State.setFreq_totalBits (sym : Byte) (v : Word) (s : State) : (s.setFreq sym v).totalBits = s.totalBits := rfl
@[simp] theorem State.setFreq_nsym (sym : Byte) (v : Word) (s : State) : (s.setFreq sym v).nsym = s.nsym := rfl
@[simp] theorem State.setFreq_nnode (sym : Byte) (v : Word) (s : State) : (s.setFreq sym v).nnode = s.nnode := rfl
@[simp] theorem State.setFreq_root (sym : Byte) (v : Word) (s : State) : (s.setFreq sym v).root = s.root := rfl
@[simp] theorem State.setFreq_encBits (sym : Byte) (v : Word) (s : State) : (s.setFreq sym v).encBits = s.encBits := rfl
@[simp] theorem State.setFreq_decBudget (sym : Byte) (v : Word) (s : State) : (s.setFreq sym v).decBudget = s.decBudget := rfl
@[simp] theorem State.setFreq_decPos (sym : Byte) (v : Word) (s : State) : (s.setFreq sym v).decPos = s.decPos := rfl
@[simp] theorem State.setFreq_outLen (sym : Byte) (v : Word) (s : State) : (s.setFreq sym v).outLen = s.outLen := rfl
@[simp] theorem State.setFreq_freq (sym : Byte) (v : Word) (s : State) : (s.setFreq sym v).freq = setEntry s.freq sym v := rfl
@[simp] theorem State.setFreq_node (sym : Byte) (v : Word) (s : State) : (s.setFreq sym v).node = s.node := rfl
@[simp] theorem State.setFreq_ct (sym : Byte) (v : Word) (s : State) : (s.setFreq sym v).ct = s.ct := rfl
@[simp] theorem State.setFreq_heap (sym : Byte) (v : Word) (s : State) : (s.setFreq sym v).heap = s.heap := rfl
@[simp] theorem State.setFreq_hsize (sym : Byte) (v : Word) (s : State) : (s.setFreq sym v).hsize = s.hsize := rfl
@[simp] theorem State.setFreq_cur (sym : Byte) (v : Word) (s : State) : (s.setFreq sym v).cur = s.cur := rfl
@[simp] theorem State.setFreq_pbuf (sym : Byte) (v : Word) (s : State) : (s.setFreq sym v).pbuf = s.pbuf := rfl
@[simp] theorem State.setFreq_obuf (sym : Byte) (v : Word) (s : State) : (s.setFreq sym v).obuf = s.obuf := rfl
@[simp] theorem State.setFreq_pending (sym : Byte) (v : Word) (s : State) : (s.setFreq sym v).pending = s.pending := rfl
@[simp] theorem State.setFreq_reads (sym : Byte) (v : Word) (s : State) : (s.setFreq sym v).reads = s.reads := rfl

/-! ### State.abortEncode -/

@[simp] theorem State.abortEncode_params (s : State) : s.abortEncode.params = s.params := rfl
@[simp] theorem State.abortEncode_cmd (s : State) : s.abortEncode.cmd = s.cmd := rfl
@[simp] theorem State.abortEncode_opa (s : State) : s.abortEncode.opa = s.opa := rfl
@[simp] theorem State.abortEncode_res (s : State) : s.abortEncode.res = s.res := rfl
@[simp] theorem State.abortEncode_built (s : State) : s.abortEncode.built = s.built := rfl
@[simp] theorem State.abortEncode_kind (s : State) : s.abortEncode.kind = s.kind := rfl
@[simp] theorem State.abortEncode_encOpen (s : State) : s.abortEncode.encOpen = false := rfl
@[simp] theorem State.abortEncode_encDone (s : State) : s.abortEncode.encDone = false := rfl
@[simp] theorem State.abortEncode_decDone (s : State) : s.abortEncode.decDone = s.decDone := rfl
@[simp] theorem State.abortEncode_lastFail (s : State) : s.abortEncode.lastFail = s.lastFail := rfl
@[simp] theorem State.abortEncode_errValid (s : State) : s.abortEncode.errValid = s.errValid := rfl
@[simp] theorem State.abortEncode_errLost (s : State) : s.abortEncode.errLost = s.errLost := rfl
@[simp] theorem State.abortEncode_err (s : State) : s.abortEncode.err = s.err := rfl
@[simp] theorem State.abortEncode_errInfo (s : State) : s.abortEncode.errInfo = s.errInfo := rfl
@[simp] theorem State.abortEncode_totalBits (s : State) : s.abortEncode.totalBits = s.totalBits := rfl
@[simp] theorem State.abortEncode_nsym (s : State) : s.abortEncode.nsym = s.nsym := rfl
@[simp] theorem State.abortEncode_nnode (s : State) : s.abortEncode.nnode = s.nnode := rfl
@[simp] theorem State.abortEncode_root (s : State) : s.abortEncode.root = s.root := rfl
@[simp] theorem State.abortEncode_encBits (s : State) : s.abortEncode.encBits = 0 := rfl
@[simp] theorem State.abortEncode_decBudget (s : State) : s.abortEncode.decBudget = s.decBudget := rfl
@[simp] theorem State.abortEncode_decPos (s : State) : s.abortEncode.decPos = s.decPos := rfl
@[simp] theorem State.abortEncode_outLen (s : State) : s.abortEncode.outLen = s.outLen := rfl
@[simp] theorem State.abortEncode_freq (s : State) : s.abortEncode.freq = s.freq := rfl
@[simp] theorem State.abortEncode_node (s : State) : s.abortEncode.node = s.node := rfl
@[simp] theorem State.abortEncode_ct (s : State) : s.abortEncode.ct = s.ct := rfl
@[simp] theorem State.abortEncode_heap (s : State) : s.abortEncode.heap = s.heap := rfl
@[simp] theorem State.abortEncode_hsize (s : State) : s.abortEncode.hsize = s.hsize := rfl
@[simp] theorem State.abortEncode_cur (s : State) : s.abortEncode.cur = s.cur := rfl
@[simp] theorem State.abortEncode_pbuf (s : State) : s.abortEncode.pbuf = s.pbuf := rfl
@[simp] theorem State.abortEncode_obuf (s : State) : s.abortEncode.obuf = s.obuf := rfl
@[simp] theorem State.abortEncode_pending (s : State) : s.abortEncode.pending = s.pending := rfl
@[simp] theorem State.abortEncode_reads (s : State) : s.abortEncode.reads = s.reads := rfl

/-! ### State.setStream -/

@[simp] theorem State.setStream_params (m : Memory) (n : Nat) (s : State) : (s.setStream m n).params = s.params := rfl
@[simp] theorem State.setStream_cmd (m : Memory) (n : Nat) (s : State) : (s.setStream m n).cmd = s.cmd := rfl
@[simp] theorem State.setStream_opa (m : Memory) (n : Nat) (s : State) : (s.setStream m n).opa = s.opa := rfl
@[simp] theorem State.setStream_res (m : Memory) (n : Nat) (s : State) : (s.setStream m n).res = s.res := rfl
@[simp] theorem State.setStream_built (m : Memory) (n : Nat) (s : State) : (s.setStream m n).built = s.built := rfl
@[simp] theorem State.setStream_kind (m : Memory) (n : Nat) (s : State) : (s.setStream m n).kind = s.kind := rfl
@[simp] theorem State.setStream_encOpen (m : Memory) (n : Nat) (s : State) : (s.setStream m n).encOpen = s.encOpen := rfl
@[simp] theorem State.setStream_encDone (m : Memory) (n : Nat) (s : State) : (s.setStream m n).encDone = s.encDone := rfl
@[simp] theorem State.setStream_decDone (m : Memory) (n : Nat) (s : State) : (s.setStream m n).decDone = s.decDone := rfl
@[simp] theorem State.setStream_lastFail (m : Memory) (n : Nat) (s : State) : (s.setStream m n).lastFail = s.lastFail := rfl
@[simp] theorem State.setStream_errValid (m : Memory) (n : Nat) (s : State) : (s.setStream m n).errValid = s.errValid := rfl
@[simp] theorem State.setStream_errLost (m : Memory) (n : Nat) (s : State) : (s.setStream m n).errLost = s.errLost := rfl
@[simp] theorem State.setStream_err (m : Memory) (n : Nat) (s : State) : (s.setStream m n).err = s.err := rfl
@[simp] theorem State.setStream_errInfo (m : Memory) (n : Nat) (s : State) : (s.setStream m n).errInfo = s.errInfo := rfl
@[simp] theorem State.setStream_totalBits (m : Memory) (n : Nat) (s : State) : (s.setStream m n).totalBits = s.totalBits := rfl
@[simp] theorem State.setStream_nsym (m : Memory) (n : Nat) (s : State) : (s.setStream m n).nsym = s.nsym := rfl
@[simp] theorem State.setStream_nnode (m : Memory) (n : Nat) (s : State) : (s.setStream m n).nnode = s.nnode := rfl
@[simp] theorem State.setStream_root (m : Memory) (n : Nat) (s : State) : (s.setStream m n).root = s.root := rfl
@[simp] theorem State.setStream_encBits (m : Memory) (n : Nat) (s : State) : (s.setStream m n).encBits = BitVec.ofNat 32 n := rfl
@[simp] theorem State.setStream_decBudget (m : Memory) (n : Nat) (s : State) : (s.setStream m n).decBudget = s.decBudget := rfl
@[simp] theorem State.setStream_decPos (m : Memory) (n : Nat) (s : State) : (s.setStream m n).decPos = s.decPos := rfl
@[simp] theorem State.setStream_outLen (m : Memory) (n : Nat) (s : State) : (s.setStream m n).outLen = s.outLen := rfl
@[simp] theorem State.setStream_freq (m : Memory) (n : Nat) (s : State) : (s.setStream m n).freq = s.freq := rfl
@[simp] theorem State.setStream_node (m : Memory) (n : Nat) (s : State) : (s.setStream m n).node = s.node := rfl
@[simp] theorem State.setStream_ct (m : Memory) (n : Nat) (s : State) : (s.setStream m n).ct = s.ct := rfl
@[simp] theorem State.setStream_heap (m : Memory) (n : Nat) (s : State) : (s.setStream m n).heap = s.heap := rfl
@[simp] theorem State.setStream_hsize (m : Memory) (n : Nat) (s : State) : (s.setStream m n).hsize = s.hsize := rfl
@[simp] theorem State.setStream_cur (m : Memory) (n : Nat) (s : State) : (s.setStream m n).cur = s.cur := rfl
@[simp] theorem State.setStream_pbuf (m : Memory) (n : Nat) (s : State) : (s.setStream m n).pbuf = m := rfl
@[simp] theorem State.setStream_obuf (m : Memory) (n : Nat) (s : State) : (s.setStream m n).obuf = s.obuf := rfl
@[simp] theorem State.setStream_pending (m : Memory) (n : Nat) (s : State) : (s.setStream m n).pending = s.pending := rfl
@[simp] theorem State.setStream_reads (m : Memory) (n : Nat) (s : State) : (s.setStream m n).reads = s.reads := rfl

/-! ### State.clearSession -/

@[simp] theorem State.clearSession_params (s : State) : s.clearSession.params = s.params := rfl
@[simp] theorem State.clearSession_cmd (s : State) : s.clearSession.cmd = s.cmd := rfl
@[simp] theorem State.clearSession_opa (s : State) : s.clearSession.opa = s.opa := rfl
@[simp] theorem State.clearSession_res (s : State) : s.clearSession.res = s.res := rfl
@[simp] theorem State.clearSession_built (s : State) : s.clearSession.built = false := rfl
@[simp] theorem State.clearSession_kind (s : State) : s.clearSession.kind = .none := rfl
@[simp] theorem State.clearSession_encOpen (s : State) : s.clearSession.encOpen = false := rfl
@[simp] theorem State.clearSession_encDone (s : State) : s.clearSession.encDone = false := rfl
@[simp] theorem State.clearSession_decDone (s : State) : s.clearSession.decDone = false := rfl
@[simp] theorem State.clearSession_lastFail (s : State) : s.clearSession.lastFail = s.lastFail := rfl
@[simp] theorem State.clearSession_errValid (s : State) : s.clearSession.errValid = s.errValid := rfl
@[simp] theorem State.clearSession_errLost (s : State) : s.clearSession.errLost = s.errLost := rfl
@[simp] theorem State.clearSession_err (s : State) : s.clearSession.err = s.err := rfl
@[simp] theorem State.clearSession_errInfo (s : State) : s.clearSession.errInfo = s.errInfo := rfl
@[simp] theorem State.clearSession_totalBits (s : State) : s.clearSession.totalBits = 0 := rfl
@[simp] theorem State.clearSession_nsym (s : State) : s.clearSession.nsym = 0 := rfl
@[simp] theorem State.clearSession_nnode (s : State) : s.clearSession.nnode = 0 := rfl
@[simp] theorem State.clearSession_root (s : State) : s.clearSession.root = 0 := rfl
@[simp] theorem State.clearSession_encBits (s : State) : s.clearSession.encBits = 0 := rfl
@[simp] theorem State.clearSession_decBudget (s : State) : s.clearSession.decBudget = 0 := rfl
@[simp] theorem State.clearSession_decPos (s : State) : s.clearSession.decPos = 0 := rfl
@[simp] theorem State.clearSession_outLen (s : State) : s.clearSession.outLen = 0 := rfl
@[simp] theorem State.clearSession_freq (s : State) : s.clearSession.freq = Vector.replicate 256 0 := rfl
@[simp] theorem State.clearSession_node (s : State) : s.clearSession.node = s.node := rfl
@[simp] theorem State.clearSession_ct (s : State) : s.clearSession.ct = Vector.replicate 256 CodeEntry.absent := rfl
@[simp] theorem State.clearSession_heap (s : State) : s.clearSession.heap = s.heap := rfl
@[simp] theorem State.clearSession_hsize (s : State) : s.clearSession.hsize = s.hsize := rfl
@[simp] theorem State.clearSession_cur (s : State) : s.clearSession.cur = s.cur := rfl
@[simp] theorem State.clearSession_pbuf (s : State) : s.clearSession.pbuf = s.pbuf := rfl
@[simp] theorem State.clearSession_obuf (s : State) : s.clearSession.obuf = s.obuf := rfl
@[simp] theorem State.clearSession_pending (s : State) : s.clearSession.pending = s.pending := rfl
@[simp] theorem State.clearSession_reads (s : State) : s.clearSession.reads = s.reads := rfl

/-! ### State.setTree -/

@[simp] theorem State.setTree_params (nd : Vector Node 511) (kd : Kind) (k n : Nat) (r : NodeId) (t : Vector CodeEntry 256) (s : State) : (s.setTree nd kd k n r t).params = s.params := rfl
@[simp] theorem State.setTree_cmd (nd : Vector Node 511) (kd : Kind) (k n : Nat) (r : NodeId) (t : Vector CodeEntry 256) (s : State) : (s.setTree nd kd k n r t).cmd = s.cmd := rfl
@[simp] theorem State.setTree_opa (nd : Vector Node 511) (kd : Kind) (k n : Nat) (r : NodeId) (t : Vector CodeEntry 256) (s : State) : (s.setTree nd kd k n r t).opa = s.opa := rfl
@[simp] theorem State.setTree_res (nd : Vector Node 511) (kd : Kind) (k n : Nat) (r : NodeId) (t : Vector CodeEntry 256) (s : State) : (s.setTree nd kd k n r t).res = s.res := rfl
@[simp] theorem State.setTree_built (nd : Vector Node 511) (kd : Kind) (k n : Nat) (r : NodeId) (t : Vector CodeEntry 256) (s : State) : (s.setTree nd kd k n r t).built = true := rfl
@[simp] theorem State.setTree_kind (nd : Vector Node 511) (kd : Kind) (k n : Nat) (r : NodeId) (t : Vector CodeEntry 256) (s : State) : (s.setTree nd kd k n r t).kind = kd := rfl
@[simp] theorem State.setTree_encOpen (nd : Vector Node 511) (kd : Kind) (k n : Nat) (r : NodeId) (t : Vector CodeEntry 256) (s : State) : (s.setTree nd kd k n r t).encOpen = s.encOpen := rfl
@[simp] theorem State.setTree_encDone (nd : Vector Node 511) (kd : Kind) (k n : Nat) (r : NodeId) (t : Vector CodeEntry 256) (s : State) : (s.setTree nd kd k n r t).encDone = s.encDone := rfl
@[simp] theorem State.setTree_decDone (nd : Vector Node 511) (kd : Kind) (k n : Nat) (r : NodeId) (t : Vector CodeEntry 256) (s : State) : (s.setTree nd kd k n r t).decDone = s.decDone := rfl
@[simp] theorem State.setTree_lastFail (nd : Vector Node 511) (kd : Kind) (k n : Nat) (r : NodeId) (t : Vector CodeEntry 256) (s : State) : (s.setTree nd kd k n r t).lastFail = s.lastFail := rfl
@[simp] theorem State.setTree_errValid (nd : Vector Node 511) (kd : Kind) (k n : Nat) (r : NodeId) (t : Vector CodeEntry 256) (s : State) : (s.setTree nd kd k n r t).errValid = s.errValid := rfl
@[simp] theorem State.setTree_errLost (nd : Vector Node 511) (kd : Kind) (k n : Nat) (r : NodeId) (t : Vector CodeEntry 256) (s : State) : (s.setTree nd kd k n r t).errLost = s.errLost := rfl
@[simp] theorem State.setTree_err (nd : Vector Node 511) (kd : Kind) (k n : Nat) (r : NodeId) (t : Vector CodeEntry 256) (s : State) : (s.setTree nd kd k n r t).err = s.err := rfl
@[simp] theorem State.setTree_errInfo (nd : Vector Node 511) (kd : Kind) (k n : Nat) (r : NodeId) (t : Vector CodeEntry 256) (s : State) : (s.setTree nd kd k n r t).errInfo = s.errInfo := rfl
@[simp] theorem State.setTree_totalBits (nd : Vector Node 511) (kd : Kind) (k n : Nat) (r : NodeId) (t : Vector CodeEntry 256) (s : State) : (s.setTree nd kd k n r t).totalBits = totalBitsOf s.freq t := rfl
@[simp] theorem State.setTree_nsym (nd : Vector Node 511) (kd : Kind) (k n : Nat) (r : NodeId) (t : Vector CodeEntry 256) (s : State) : (s.setTree nd kd k n r t).nsym = BitVec.ofNat 9 k := rfl
@[simp] theorem State.setTree_nnode (nd : Vector Node 511) (kd : Kind) (k n : Nat) (r : NodeId) (t : Vector CodeEntry 256) (s : State) : (s.setTree nd kd k n r t).nnode = BitVec.ofNat 10 n := rfl
@[simp] theorem State.setTree_root (nd : Vector Node 511) (kd : Kind) (k n : Nat) (r : NodeId) (t : Vector CodeEntry 256) (s : State) : (s.setTree nd kd k n r t).root = r := rfl
@[simp] theorem State.setTree_encBits (nd : Vector Node 511) (kd : Kind) (k n : Nat) (r : NodeId) (t : Vector CodeEntry 256) (s : State) : (s.setTree nd kd k n r t).encBits = s.encBits := rfl
@[simp] theorem State.setTree_decBudget (nd : Vector Node 511) (kd : Kind) (k n : Nat) (r : NodeId) (t : Vector CodeEntry 256) (s : State) : (s.setTree nd kd k n r t).decBudget = s.decBudget := rfl
@[simp] theorem State.setTree_decPos (nd : Vector Node 511) (kd : Kind) (k n : Nat) (r : NodeId) (t : Vector CodeEntry 256) (s : State) : (s.setTree nd kd k n r t).decPos = s.decPos := rfl
@[simp] theorem State.setTree_outLen (nd : Vector Node 511) (kd : Kind) (k n : Nat) (r : NodeId) (t : Vector CodeEntry 256) (s : State) : (s.setTree nd kd k n r t).outLen = s.outLen := rfl
@[simp] theorem State.setTree_freq (nd : Vector Node 511) (kd : Kind) (k n : Nat) (r : NodeId) (t : Vector CodeEntry 256) (s : State) : (s.setTree nd kd k n r t).freq = s.freq := rfl
@[simp] theorem State.setTree_node (nd : Vector Node 511) (kd : Kind) (k n : Nat) (r : NodeId) (t : Vector CodeEntry 256) (s : State) : (s.setTree nd kd k n r t).node = nd := rfl
@[simp] theorem State.setTree_ct (nd : Vector Node 511) (kd : Kind) (k n : Nat) (r : NodeId) (t : Vector CodeEntry 256) (s : State) : (s.setTree nd kd k n r t).ct = t := rfl
@[simp] theorem State.setTree_heap (nd : Vector Node 511) (kd : Kind) (k n : Nat) (r : NodeId) (t : Vector CodeEntry 256) (s : State) : (s.setTree nd kd k n r t).heap = s.heap := rfl
@[simp] theorem State.setTree_hsize (nd : Vector Node 511) (kd : Kind) (k n : Nat) (r : NodeId) (t : Vector CodeEntry 256) (s : State) : (s.setTree nd kd k n r t).hsize = s.hsize := rfl
@[simp] theorem State.setTree_cur (nd : Vector Node 511) (kd : Kind) (k n : Nat) (r : NodeId) (t : Vector CodeEntry 256) (s : State) : (s.setTree nd kd k n r t).cur = s.cur := rfl
@[simp] theorem State.setTree_pbuf (nd : Vector Node 511) (kd : Kind) (k n : Nat) (r : NodeId) (t : Vector CodeEntry 256) (s : State) : (s.setTree nd kd k n r t).pbuf = s.pbuf := rfl
@[simp] theorem State.setTree_obuf (nd : Vector Node 511) (kd : Kind) (k n : Nat) (r : NodeId) (t : Vector CodeEntry 256) (s : State) : (s.setTree nd kd k n r t).obuf = s.obuf := rfl
@[simp] theorem State.setTree_pending (nd : Vector Node 511) (kd : Kind) (k n : Nat) (r : NodeId) (t : Vector CodeEntry 256) (s : State) : (s.setTree nd kd k n r t).pending = s.pending := rfl
@[simp] theorem State.setTree_reads (nd : Vector Node 511) (kd : Kind) (k n : Nat) (r : NodeId) (t : Vector CodeEntry 256) (s : State) : (s.setTree nd kd k n r t).reads = s.reads := rfl

/-! ### State.setQueue -/

@[simp] theorem State.setQueue_params (b : Builder) (s : State) : (s.setQueue b).params = s.params := rfl
@[simp] theorem State.setQueue_cmd (b : Builder) (s : State) : (s.setQueue b).cmd = s.cmd := rfl
@[simp] theorem State.setQueue_opa (b : Builder) (s : State) : (s.setQueue b).opa = s.opa := rfl
@[simp] theorem State.setQueue_res (b : Builder) (s : State) : (s.setQueue b).res = s.res := rfl
@[simp] theorem State.setQueue_built (b : Builder) (s : State) : (s.setQueue b).built = s.built := rfl
@[simp] theorem State.setQueue_kind (b : Builder) (s : State) : (s.setQueue b).kind = s.kind := rfl
@[simp] theorem State.setQueue_encOpen (b : Builder) (s : State) : (s.setQueue b).encOpen = s.encOpen := rfl
@[simp] theorem State.setQueue_encDone (b : Builder) (s : State) : (s.setQueue b).encDone = s.encDone := rfl
@[simp] theorem State.setQueue_decDone (b : Builder) (s : State) : (s.setQueue b).decDone = s.decDone := rfl
@[simp] theorem State.setQueue_lastFail (b : Builder) (s : State) : (s.setQueue b).lastFail = s.lastFail := rfl
@[simp] theorem State.setQueue_errValid (b : Builder) (s : State) : (s.setQueue b).errValid = s.errValid := rfl
@[simp] theorem State.setQueue_errLost (b : Builder) (s : State) : (s.setQueue b).errLost = s.errLost := rfl
@[simp] theorem State.setQueue_err (b : Builder) (s : State) : (s.setQueue b).err = s.err := rfl
@[simp] theorem State.setQueue_errInfo (b : Builder) (s : State) : (s.setQueue b).errInfo = s.errInfo := rfl
@[simp] theorem State.setQueue_totalBits (b : Builder) (s : State) : (s.setQueue b).totalBits = s.totalBits := rfl
@[simp] theorem State.setQueue_nsym (b : Builder) (s : State) : (s.setQueue b).nsym = s.nsym := rfl
@[simp] theorem State.setQueue_nnode (b : Builder) (s : State) : (s.setQueue b).nnode = s.nnode := rfl
@[simp] theorem State.setQueue_root (b : Builder) (s : State) : (s.setQueue b).root = s.root := rfl
@[simp] theorem State.setQueue_encBits (b : Builder) (s : State) : (s.setQueue b).encBits = s.encBits := rfl
@[simp] theorem State.setQueue_decBudget (b : Builder) (s : State) : (s.setQueue b).decBudget = s.decBudget := rfl
@[simp] theorem State.setQueue_decPos (b : Builder) (s : State) : (s.setQueue b).decPos = s.decPos := rfl
@[simp] theorem State.setQueue_outLen (b : Builder) (s : State) : (s.setQueue b).outLen = s.outLen := rfl
@[simp] theorem State.setQueue_freq (b : Builder) (s : State) : (s.setQueue b).freq = s.freq := rfl
@[simp] theorem State.setQueue_node (b : Builder) (s : State) : (s.setQueue b).node = s.node := rfl
@[simp] theorem State.setQueue_ct (b : Builder) (s : State) : (s.setQueue b).ct = s.ct := rfl
@[simp] theorem State.setQueue_heap (b : Builder) (s : State) : (s.setQueue b).heap = b.heap := rfl
@[simp] theorem State.setQueue_hsize (b : Builder) (s : State) : (s.setQueue b).hsize = BitVec.ofNat 9 b.hsize := rfl
@[simp] theorem State.setQueue_cur (b : Builder) (s : State) : (s.setQueue b).cur = s.cur := rfl
@[simp] theorem State.setQueue_pbuf (b : Builder) (s : State) : (s.setQueue b).pbuf = s.pbuf := rfl
@[simp] theorem State.setQueue_obuf (b : Builder) (s : State) : (s.setQueue b).obuf = s.obuf := rfl
@[simp] theorem State.setQueue_pending (b : Builder) (s : State) : (s.setQueue b).pending = s.pending := rfl
@[simp] theorem State.setQueue_reads (b : Builder) (s : State) : (s.setQueue b).reads = s.reads := rfl

/-! ### State.beginDecode -/

@[simp] theorem State.beginDecode_params (s : State) : s.beginDecode.params = s.params := rfl
@[simp] theorem State.beginDecode_cmd (s : State) : s.beginDecode.cmd = s.cmd := rfl
@[simp] theorem State.beginDecode_opa (s : State) : s.beginDecode.opa = s.opa := rfl
@[simp] theorem State.beginDecode_res (s : State) : s.beginDecode.res = s.res := rfl
@[simp] theorem State.beginDecode_built (s : State) : s.beginDecode.built = s.built := rfl
@[simp] theorem State.beginDecode_kind (s : State) : s.beginDecode.kind = s.kind := rfl
@[simp] theorem State.beginDecode_encOpen (s : State) : s.beginDecode.encOpen = s.encOpen := rfl
@[simp] theorem State.beginDecode_encDone (s : State) : s.beginDecode.encDone = s.encDone := rfl
@[simp] theorem State.beginDecode_decDone (s : State) : s.beginDecode.decDone = false := rfl
@[simp] theorem State.beginDecode_lastFail (s : State) : s.beginDecode.lastFail = s.lastFail := rfl
@[simp] theorem State.beginDecode_errValid (s : State) : s.beginDecode.errValid = s.errValid := rfl
@[simp] theorem State.beginDecode_errLost (s : State) : s.beginDecode.errLost = s.errLost := rfl
@[simp] theorem State.beginDecode_err (s : State) : s.beginDecode.err = s.err := rfl
@[simp] theorem State.beginDecode_errInfo (s : State) : s.beginDecode.errInfo = s.errInfo := rfl
@[simp] theorem State.beginDecode_totalBits (s : State) : s.beginDecode.totalBits = s.totalBits := rfl
@[simp] theorem State.beginDecode_nsym (s : State) : s.beginDecode.nsym = s.nsym := rfl
@[simp] theorem State.beginDecode_nnode (s : State) : s.beginDecode.nnode = s.nnode := rfl
@[simp] theorem State.beginDecode_root (s : State) : s.beginDecode.root = s.root := rfl
@[simp] theorem State.beginDecode_encBits (s : State) : s.beginDecode.encBits = s.encBits := rfl
@[simp] theorem State.beginDecode_decBudget (s : State) : s.beginDecode.decBudget = s.decBudget := rfl
@[simp] theorem State.beginDecode_decPos (s : State) : s.beginDecode.decPos = s.decPos := rfl
@[simp] theorem State.beginDecode_outLen (s : State) : s.beginDecode.outLen = 0 := rfl
@[simp] theorem State.beginDecode_freq (s : State) : s.beginDecode.freq = s.freq := rfl
@[simp] theorem State.beginDecode_node (s : State) : s.beginDecode.node = s.node := rfl
@[simp] theorem State.beginDecode_ct (s : State) : s.beginDecode.ct = s.ct := rfl
@[simp] theorem State.beginDecode_heap (s : State) : s.beginDecode.heap = s.heap := rfl
@[simp] theorem State.beginDecode_hsize (s : State) : s.beginDecode.hsize = s.hsize := rfl
@[simp] theorem State.beginDecode_cur (s : State) : s.beginDecode.cur = s.cur := rfl
@[simp] theorem State.beginDecode_pbuf (s : State) : s.beginDecode.pbuf = s.pbuf := rfl
@[simp] theorem State.beginDecode_obuf (s : State) : s.beginDecode.obuf = s.obuf := rfl
@[simp] theorem State.beginDecode_pending (s : State) : s.beginDecode.pending = s.pending := rfl
@[simp] theorem State.beginDecode_reads (s : State) : s.beginDecode.reads = s.reads := rfl

/-! ### State.setWalk -/

@[simp] theorem State.setWalk_params (n p : Nat) (c : NodeId) (s : State) : (s.setWalk n p c).params = s.params := rfl
@[simp] theorem State.setWalk_cmd (n p : Nat) (c : NodeId) (s : State) : (s.setWalk n p c).cmd = s.cmd := rfl
@[simp] theorem State.setWalk_opa (n p : Nat) (c : NodeId) (s : State) : (s.setWalk n p c).opa = s.opa := rfl
@[simp] theorem State.setWalk_res (n p : Nat) (c : NodeId) (s : State) : (s.setWalk n p c).res = s.res := rfl
@[simp] theorem State.setWalk_built (n p : Nat) (c : NodeId) (s : State) : (s.setWalk n p c).built = s.built := rfl
@[simp] theorem State.setWalk_kind (n p : Nat) (c : NodeId) (s : State) : (s.setWalk n p c).kind = s.kind := rfl
@[simp] theorem State.setWalk_encOpen (n p : Nat) (c : NodeId) (s : State) : (s.setWalk n p c).encOpen = s.encOpen := rfl
@[simp] theorem State.setWalk_encDone (n p : Nat) (c : NodeId) (s : State) : (s.setWalk n p c).encDone = s.encDone := rfl
@[simp] theorem State.setWalk_decDone (n p : Nat) (c : NodeId) (s : State) : (s.setWalk n p c).decDone = s.decDone := rfl
@[simp] theorem State.setWalk_lastFail (n p : Nat) (c : NodeId) (s : State) : (s.setWalk n p c).lastFail = s.lastFail := rfl
@[simp] theorem State.setWalk_errValid (n p : Nat) (c : NodeId) (s : State) : (s.setWalk n p c).errValid = s.errValid := rfl
@[simp] theorem State.setWalk_errLost (n p : Nat) (c : NodeId) (s : State) : (s.setWalk n p c).errLost = s.errLost := rfl
@[simp] theorem State.setWalk_err (n p : Nat) (c : NodeId) (s : State) : (s.setWalk n p c).err = s.err := rfl
@[simp] theorem State.setWalk_errInfo (n p : Nat) (c : NodeId) (s : State) : (s.setWalk n p c).errInfo = s.errInfo := rfl
@[simp] theorem State.setWalk_totalBits (n p : Nat) (c : NodeId) (s : State) : (s.setWalk n p c).totalBits = s.totalBits := rfl
@[simp] theorem State.setWalk_nsym (n p : Nat) (c : NodeId) (s : State) : (s.setWalk n p c).nsym = s.nsym := rfl
@[simp] theorem State.setWalk_nnode (n p : Nat) (c : NodeId) (s : State) : (s.setWalk n p c).nnode = s.nnode := rfl
@[simp] theorem State.setWalk_root (n p : Nat) (c : NodeId) (s : State) : (s.setWalk n p c).root = s.root := rfl
@[simp] theorem State.setWalk_encBits (n p : Nat) (c : NodeId) (s : State) : (s.setWalk n p c).encBits = s.encBits := rfl
@[simp] theorem State.setWalk_decBudget (n p : Nat) (c : NodeId) (s : State) : (s.setWalk n p c).decBudget = BitVec.ofNat 32 n := rfl
@[simp] theorem State.setWalk_decPos (n p : Nat) (c : NodeId) (s : State) : (s.setWalk n p c).decPos = BitVec.ofNat 32 p := rfl
@[simp] theorem State.setWalk_outLen (n p : Nat) (c : NodeId) (s : State) : (s.setWalk n p c).outLen = s.outLen := rfl
@[simp] theorem State.setWalk_freq (n p : Nat) (c : NodeId) (s : State) : (s.setWalk n p c).freq = s.freq := rfl
@[simp] theorem State.setWalk_node (n p : Nat) (c : NodeId) (s : State) : (s.setWalk n p c).node = s.node := rfl
@[simp] theorem State.setWalk_ct (n p : Nat) (c : NodeId) (s : State) : (s.setWalk n p c).ct = s.ct := rfl
@[simp] theorem State.setWalk_heap (n p : Nat) (c : NodeId) (s : State) : (s.setWalk n p c).heap = s.heap := rfl
@[simp] theorem State.setWalk_hsize (n p : Nat) (c : NodeId) (s : State) : (s.setWalk n p c).hsize = s.hsize := rfl
@[simp] theorem State.setWalk_cur (n p : Nat) (c : NodeId) (s : State) : (s.setWalk n p c).cur = c := rfl
@[simp] theorem State.setWalk_pbuf (n p : Nat) (c : NodeId) (s : State) : (s.setWalk n p c).pbuf = s.pbuf := rfl
@[simp] theorem State.setWalk_obuf (n p : Nat) (c : NodeId) (s : State) : (s.setWalk n p c).obuf = s.obuf := rfl
@[simp] theorem State.setWalk_pending (n p : Nat) (c : NodeId) (s : State) : (s.setWalk n p c).pending = s.pending := rfl
@[simp] theorem State.setWalk_reads (n p : Nat) (c : NodeId) (s : State) : (s.setWalk n p c).reads = s.reads := rfl

/-! ### State.commitDecode -/

@[simp] theorem State.commitDecode_params (n : Nat) (out : List Byte) (c : NodeId) (s : State) : (s.commitDecode n out c).params = s.params := rfl
@[simp] theorem State.commitDecode_cmd (n : Nat) (out : List Byte) (c : NodeId) (s : State) : (s.commitDecode n out c).cmd = s.cmd := rfl
@[simp] theorem State.commitDecode_opa (n : Nat) (out : List Byte) (c : NodeId) (s : State) : (s.commitDecode n out c).opa = s.opa := rfl
@[simp] theorem State.commitDecode_res (n : Nat) (out : List Byte) (c : NodeId) (s : State) : (s.commitDecode n out c).res = s.res := rfl
@[simp] theorem State.commitDecode_built (n : Nat) (out : List Byte) (c : NodeId) (s : State) : (s.commitDecode n out c).built = s.built := rfl
@[simp] theorem State.commitDecode_kind (n : Nat) (out : List Byte) (c : NodeId) (s : State) : (s.commitDecode n out c).kind = s.kind := rfl
@[simp] theorem State.commitDecode_encOpen (n : Nat) (out : List Byte) (c : NodeId) (s : State) : (s.commitDecode n out c).encOpen = s.encOpen := rfl
@[simp] theorem State.commitDecode_encDone (n : Nat) (out : List Byte) (c : NodeId) (s : State) : (s.commitDecode n out c).encDone = s.encDone := rfl
@[simp] theorem State.commitDecode_decDone (n : Nat) (out : List Byte) (c : NodeId) (s : State) : (s.commitDecode n out c).decDone = true := rfl
@[simp] theorem State.commitDecode_lastFail (n : Nat) (out : List Byte) (c : NodeId) (s : State) : (s.commitDecode n out c).lastFail = s.lastFail := rfl
@[simp] theorem State.commitDecode_errValid (n : Nat) (out : List Byte) (c : NodeId) (s : State) : (s.commitDecode n out c).errValid = s.errValid := rfl
@[simp] theorem State.commitDecode_errLost (n : Nat) (out : List Byte) (c : NodeId) (s : State) : (s.commitDecode n out c).errLost = s.errLost := rfl
@[simp] theorem State.commitDecode_err (n : Nat) (out : List Byte) (c : NodeId) (s : State) : (s.commitDecode n out c).err = s.err := rfl
@[simp] theorem State.commitDecode_errInfo (n : Nat) (out : List Byte) (c : NodeId) (s : State) : (s.commitDecode n out c).errInfo = s.errInfo := rfl
@[simp] theorem State.commitDecode_totalBits (n : Nat) (out : List Byte) (c : NodeId) (s : State) : (s.commitDecode n out c).totalBits = s.totalBits := rfl
@[simp] theorem State.commitDecode_nsym (n : Nat) (out : List Byte) (c : NodeId) (s : State) : (s.commitDecode n out c).nsym = s.nsym := rfl
@[simp] theorem State.commitDecode_nnode (n : Nat) (out : List Byte) (c : NodeId) (s : State) : (s.commitDecode n out c).nnode = s.nnode := rfl
@[simp] theorem State.commitDecode_root (n : Nat) (out : List Byte) (c : NodeId) (s : State) : (s.commitDecode n out c).root = s.root := rfl
@[simp] theorem State.commitDecode_encBits (n : Nat) (out : List Byte) (c : NodeId) (s : State) : (s.commitDecode n out c).encBits = s.encBits := rfl
@[simp] theorem State.commitDecode_decBudget (n : Nat) (out : List Byte) (c : NodeId) (s : State) : (s.commitDecode n out c).decBudget = BitVec.ofNat 32 n := rfl
@[simp] theorem State.commitDecode_decPos (n : Nat) (out : List Byte) (c : NodeId) (s : State) : (s.commitDecode n out c).decPos = BitVec.ofNat 32 n := rfl
@[simp] theorem State.commitDecode_outLen (n : Nat) (out : List Byte) (c : NodeId) (s : State) : (s.commitDecode n out c).outLen = BitVec.ofNat 32 out.length := rfl
@[simp] theorem State.commitDecode_freq (n : Nat) (out : List Byte) (c : NodeId) (s : State) : (s.commitDecode n out c).freq = s.freq := rfl
@[simp] theorem State.commitDecode_node (n : Nat) (out : List Byte) (c : NodeId) (s : State) : (s.commitDecode n out c).node = s.node := rfl
@[simp] theorem State.commitDecode_ct (n : Nat) (out : List Byte) (c : NodeId) (s : State) : (s.commitDecode n out c).ct = s.ct := rfl
@[simp] theorem State.commitDecode_heap (n : Nat) (out : List Byte) (c : NodeId) (s : State) : (s.commitDecode n out c).heap = s.heap := rfl
@[simp] theorem State.commitDecode_hsize (n : Nat) (out : List Byte) (c : NodeId) (s : State) : (s.commitDecode n out c).hsize = s.hsize := rfl
@[simp] theorem State.commitDecode_cur (n : Nat) (out : List Byte) (c : NodeId) (s : State) : (s.commitDecode n out c).cur = c := rfl
@[simp] theorem State.commitDecode_pbuf (n : Nat) (out : List Byte) (c : NodeId) (s : State) : (s.commitDecode n out c).pbuf = s.pbuf := rfl
@[simp] theorem State.commitDecode_obuf (n : Nat) (out : List Byte) (c : NodeId) (s : State) : (s.commitDecode n out c).obuf = s.obuf.writeAll 0 out := rfl
@[simp] theorem State.commitDecode_pending (n : Nat) (out : List Byte) (c : NodeId) (s : State) : (s.commitDecode n out c).pending = s.pending := rfl
@[simp] theorem State.commitDecode_reads (n : Nat) (out : List Byte) (c : NodeId) (s : State) : (s.commitDecode n out c).reads = s.reads := rfl

end Sys2Proof.Machine
end

