-- ==== Sys2Proof/Laws/Stream.lean ====
section
/-! SUPPORT. The laws of the bit stream over PBUF (R56): what one BitWrite and an Append do to every stream bit, which
bytes they write, and when they complete. -/

namespace Sys2Proof.Machine

open Sys2Proof

/-- The bit just written is read back; the other bits of the byte are kept. -/
theorem streamBitOf_withStreamBit (v : Byte) (p q : Nat) (b : Bool) :
    streamBitOf (withStreamBit v p b) q = if q % 8 = p % 8 then b else streamBitOf v q := by
  have hp : p % 8 < 8 := Nat.mod_lt _ (by decide)
  have hq : q % 8 < 8 := Nat.mod_lt _ (by decide)
  unfold streamBitOf withStreamBit
  generalize p % 8 = i at hp
  generalize q % 8 = j at hq
  revert v b
  revert i j
  decide +kernel

/-- The first bit of a byte clears the other seven. -/
theorem streamBitOf_first (p : Nat) (b : Bool) :
    streamBitOf ((BitVec.ofBool b).setWidth 8 <<< 7) p = if p % 8 = 0 then b else false := by
  have hp : p % 8 < 8 := Nat.mod_lt _ (by decide)
  unfold streamBitOf
  generalize p % 8 = i at hp
  revert b
  revert i
  decide

theorem bitRead_eq_ok {m : Memory} {p : Nat} {b : Bool} :
    bitRead m p = .ok b ↔ ∃ v, m.read? (p / 8) = some v ∧ streamBitOf v p = b := by
  unfold bitRead
  cases h : memRead .pbuf m (p / 8) with
  | ok v => simp [memRead_eq_ok.mp h]
  | error f => simp [(memRead_eq_error.mp h).1]

/-- A BitRead faults exactly on a byte never written. -/
theorem bitRead_eq_error {m : Memory} {p : Nat} {f : Fault} :
    bitRead m p = .error f ↔ m.read? (p / 8) = none ∧ f = .uninitRead .pbuf (p / 8) := by
  unfold bitRead
  cases h : memRead .pbuf m (p / 8) with
  | ok v => simp [memRead_eq_ok.mp h]
  | error g =>
    obtain ⟨h1, h2⟩ := memRead_eq_error.mp h
    simp [h1, h2, eq_comm]

/-- A BitWrite completes at the first bit of a byte and in a byte that was written. -/
theorem bitWrite_completes (m : Memory) (p : Nat) (b : Bool) (h : p % 8 = 0 ∨ m.written (p / 8) = true) :
    ∃ m', bitWrite m p b = .ok m' := by
  unfold bitWrite
  split
  · exact ⟨_, rfl⟩
  · next hp =>
    obtain ⟨v, hv⟩ := Option.isSome_iff_exists.mp (h.resolve_left hp)
    rw [memRead_eq_ok.mpr hv]
    exact ⟨_, rfl⟩

/-- A BitWrite that completes writes one byte. -/
theorem bitWrite_eq_ok {m m' : Memory} {p : Nat} {b : Bool} (h : bitWrite m p b = .ok m') :
    ∃ v, m' = m.write (p / 8) v ∧ streamBitOf v p = b ∧
      (p % 8 = 0 → ∀ q, q % 8 ≠ 0 → streamBitOf v q = false) ∧
      (p % 8 ≠ 0 → ∃ u, m.read? (p / 8) = some u ∧ ∀ q, q % 8 ≠ p % 8 → streamBitOf v q = streamBitOf u q) := by
  unfold bitWrite at h
  split at h
  · next hp =>
    cases h
    refine ⟨_, rfl, by simp [streamBitOf_first, hp], fun _ q hq => by simp [streamBitOf_first, hq], ?_⟩
    exact fun hn => absurd hp hn
  · next hp =>
    cases hr : memRead .pbuf m (p / 8) with
    | error f => rw [hr] at h; cases h
    | ok u =>
      rw [hr] at h
      cases h
      refine ⟨_, rfl, by simp [streamBitOf_withStreamBit], fun hz => absurd hz hp, fun _ => ⟨u, memRead_eq_ok.mp hr, ?_⟩⟩
      intro q hq
      simp [streamBitOf_withStreamBit, hq]

/-- A BitWrite at the end of the stream: the bits before it read as before, the bit reads as written, and the bits
after it in its byte are zero if they were zero or the byte is new. -/
theorem bitRead_bitWrite {m m' : Memory} {p : Nat} {b : Bool} (h : bitWrite m p b = .ok m') (q : Nat) :
    (q = p → bitRead m' q = .ok b) ∧
      (q / 8 ≠ p / 8 → bitRead m' q = bitRead m q) ∧
      (q ≠ p → q / 8 = p / 8 → p % 8 ≠ 0 → bitRead m' q = bitRead m q) ∧
      (q ≠ p → q / 8 = p / 8 → p % 8 = 0 → bitRead m' q = .ok false) := by
  obtain ⟨v, rfl, hb, h0, h1⟩ := bitWrite_eq_ok h
  refine ⟨?_, ?_, ?_, ?_⟩
  · rintro rfl
    exact bitRead_eq_ok.mpr ⟨v, by simp, hb⟩
  · intro hne
    simp [bitRead, memRead, Memory.read?_write_other _ _ hne]
  · intro hne heq hp
    obtain ⟨u, hu, hv⟩ := h1 hp
    have hmod : q % 8 ≠ p % 8 := by omega
    have h2 : bitRead m q = .ok (streamBitOf u q) := bitRead_eq_ok.mpr ⟨u, by rw [heq, hu], rfl⟩
    rw [h2]
    exact bitRead_eq_ok.mpr ⟨v, by rw [heq]; simp, hv q hmod⟩
  · intro hne heq hp
    have hmod : q % 8 ≠ 0 := by omega
    exact bitRead_eq_ok.mpr ⟨v, by rw [heq]; simp, h0 hp q hmod⟩

/-- An Append completes if the byte it starts in was written (or it starts a byte). -/
theorem appendBits_completes (bits : List Bool) (m : Memory) (p : Nat)
    (h : p % 8 = 0 ∨ m.written (p / 8) = true) : ∃ m', appendBits m p bits = .ok m' := by
  induction bits generalizing m p with
  | nil => exact ⟨m, rfl⟩
  | cons b bs ih =>
    obtain ⟨m', hm⟩ := bitWrite_completes m p b h
    obtain ⟨v, rfl, -⟩ := bitWrite_eq_ok hm
    have hnext : (p + 1) % 8 = 0 ∨ (m.write (p / 8) v).written ((p + 1) / 8) = true := by
      by_cases hz : (p + 1) % 8 = 0
      · exact Or.inl hz
      · have : (p + 1) / 8 = p / 8 := by omega
        right
        simp [this, Memory.written_write]
    obtain ⟨m2, h2⟩ := ih _ _ hnext
    exact ⟨m2, by simp only [appendBits, hm]; exact h2⟩

/-- The bytes outside those that hold the appended bits read as before. -/
theorem read?_appendBits {bits : List Bool} {m m' : Memory} {p : Nat} (h : appendBits m p bits = .ok m') (a : Nat)
    (ha : a < p / 8 ∨ p + bits.length ≤ 8 * a) : m'.read? a = m.read? a := by
  induction bits generalizing m p with
  | nil => cases h; rfl
  | cons b bs ih =>
    simp only [appendBits] at h
    split at h
    · next m1 hm =>
      obtain ⟨v, rfl, -⟩ := bitWrite_eq_ok hm
      simp only [List.length_cons] at ha
      rw [ih h (by omega), Memory.read?_write_other _ _ (by omega)]
    · cases h

/-- The bytes that hold the appended bits are written, and written bytes stay written. -/
theorem written_appendBits {bits : List Bool} {m m' : Memory} {p : Nat} (h : appendBits m p bits = .ok m') (a : Nat)
    (ha : m.written a = true ∨ (p / 8 ≤ a ∧ 8 * a < p + bits.length ∧ bits ≠ [])) : m'.written a = true := by
  induction bits generalizing m p with
  | nil => cases h; exact ha.resolve_right fun hr => hr.2.2 rfl
  | cons b bs ih =>
    simp only [appendBits] at h
    split at h
    · next m1 hm =>
      obtain ⟨v, rfl, -⟩ := bitWrite_eq_ok hm
      refine ih h ?_
      by_cases hap : a = p / 8
      · left; simp [Memory.written_write, hap]
      · rcases ha with hw | ⟨h1, h2, -⟩
        · left; simp [Memory.written_write, hw]
        · right
          simp only [List.length_cons] at h2
          refine ⟨by omega, by omega, ?_⟩
          rintro rfl
          simp at h2
          omega
    · cases h

/-- The stream bits before the end read as before. -/
theorem bitRead_appendBits_before {bits : List Bool} {m m' : Memory} {p : Nat} (h : appendBits m p bits = .ok m')
    {q : Nat} (hq : q < p) : bitRead m' q = bitRead m q := by
  induction bits generalizing m p with
  | nil => cases h; rfl
  | cons b bs ih =>
    simp only [appendBits] at h
    split at h
    · next m1 hm =>
      rw [ih h (by omega)]
      obtain ⟨-, h1, h2, -⟩ := bitRead_bitWrite hm q
      by_cases hd : q / 8 = p / 8
      · exact h2 (by omega) hd (by omega)
      · exact h1 hd
    · cases h

/-- The appended bits are the stream's next bits. -/
theorem bitRead_appendBits {bits : List Bool} {m m' : Memory} {p : Nat} (h : appendBits m p bits = .ok m')
    {j : Nat} (hj : j < bits.length) : bitRead m' (p + j) = .ok bits[j] := by
  induction bits generalizing m p j with
  | nil => simp at hj
  | cons b bs ih =>
    simp only [appendBits] at h
    split at h
    · next m1 hm =>
      cases j with
      | zero =>
        rw [Nat.add_zero, bitRead_appendBits_before h (Nat.lt_succ_self p)]
        exact (bitRead_bitWrite hm p).1 rfl
      | succ j =>
        have := ih h (j := j) (by simpa using hj)
        rw [show p + (j + 1) = p + 1 + j by omega]
        simpa using this
    · cases h

/-- The padding after an Append is zero if it was zero before (R154). -/
theorem bitRead_appendBits_padding {bits : List Bool} {m m' : Memory} {p : Nat} (h : appendBits m p bits = .ok m')
    (hz : ∀ q, p ≤ q → q < 8 * bytesFor p → bitRead m q = .ok false) :
    ∀ q, p + bits.length ≤ q → q < 8 * bytesFor (p + bits.length) → bitRead m' q = .ok false := by
  induction bits generalizing m p with
  | nil => cases h; simpa using hz
  | cons b bs ih =>
    simp only [appendBits] at h
    split at h
    · next m1 hm =>
      have := ih h fun q h1 h2 => by
        obtain ⟨-, h3, h4, h5⟩ := bitRead_bitWrite hm q
        simp only [bytesFor] at h2 hz
        have hd : q / 8 = p / 8 := by omega
        by_cases hp : p % 8 = 0
        · exact h5 (by omega) hd hp
        · rw [h4 (by omega) hd hp]
          exact hz q (by omega) (by omega)
      simp only [List.length_cons]
      intro q h1 h2
      exact this q (by omega) (by rwa [show p + 1 + bs.length = p + (bs.length + 1) by omega])
    · cases h

/-- After an Append, the rest of the last byte it wrote is 0, unless that byte held stream bits before: then it is kept. -/
theorem bitRead_appendBits_after {bits : List Bool} {m m' : Memory} {p : Nat} (h : appendBits m p bits = .ok m')
    (hne : bits ≠ []) {q : Nat} (h1 : p + bits.length ≤ q) (h2 : q / 8 = (p + bits.length - 1) / 8) :
    bitRead m' q = if p % 8 ≠ 0 ∧ q / 8 = p / 8 then bitRead m q else .ok false := by
  induction bits generalizing m p with
  | nil => exact absurd rfl hne
  | cons b bs ih =>
    simp only [appendBits] at h
    split at h
    · next m1 hm =>
      simp only [List.length_cons] at h1 h2
      obtain ⟨-, h3, h4, h5⟩ := bitRead_bitWrite hm q
      have here : q / 8 = p / 8 → bitRead m1 q = if p % 8 ≠ 0 ∧ q / 8 = p / 8 then bitRead m q else .ok false := by
        intro hd
        by_cases hp : p % 8 = 0
        · simpa [hp] using h5 (by omega) hd hp
        · simpa [hp, hd] using h4 (by omega) hd hp
      cases bs with
      | nil =>
        cases h
        simp only [List.length_nil] at h2
        exact here (by omega)
      | cons c bs =>
        rw [ih h (by simp) (by omega) (by rw [h2]; congr 1; omega)]
        by_cases hd : q / 8 = p / 8
        · rw [← here hd, if_pos ⟨by omega, by omega⟩]
        · have hn : ¬((p + 1) % 8 ≠ 0 ∧ q / 8 = (p + 1) / 8) := by omega
          rw [if_neg hn, if_neg fun hc => hd hc.2]
    · cases h

theorem wf_appendBits {bits : List Bool} {m m' : Memory} {p : Nat} (h : appendBits m p bits = .ok m')
    (hw : m.wf = true) : m'.wf = true := by
  induction bits generalizing m p with
  | nil => cases h; exact hw
  | cons b bs ih =>
    simp only [appendBits] at h
    split at h
    · next m1 hm =>
      obtain ⟨v, rfl, -⟩ := bitWrite_eq_ok hm
      exact ih h (Memory.wf_write _ _ _ hw)
    · cases h

theorem below_appendBits {bits : List Bool} {m m' : Memory} {p size : Nat} (h : appendBits m p bits = .ok m')
    (hw : m.below size = true) (hs : p + bits.length ≤ 8 * size) : m'.below size = true := by
  induction bits generalizing m p with
  | nil => cases h; exact hw
  | cons b bs ih =>
    simp only [appendBits] at h
    split at h
    · next m1 hm =>
      obtain ⟨v, rfl, -⟩ := bitWrite_eq_ok hm
      simp only [List.length_cons] at hs
      exact ih h (Memory.below_write _ _ _ _ hw (by omega)) (by omega)
    · cases h

/-- An Append faults only in states where the byte the stream ends in was never written. -/
theorem appendBits_eq_error {bits : List Bool} {m : Memory} {p : Nat} {f : Fault}
    (h : appendBits m p bits = .error f) : p % 8 ≠ 0 ∧ m.written (p / 8) = false := by
  by_contra hn
  have hn' : p % 8 = 0 ∨ m.written (p / 8) = true := by
    by_cases hp : p % 8 = 0
    · exact Or.inl hp
    · right
      by_contra hw
      exact hn ⟨hp, by simpa using hw⟩
  obtain ⟨m', hm⟩ := appendBits_completes bits m p hn'
  rw [hm] at h
  cases h

@[simp] theorem length_codeBits {w : Nat} (c : BitVec w) (l : Nat) : (codeBits c l).length = l := by
  induction l with
  | zero => rfl
  | succ l ih => simp [codeBits, ih]

/-- Bit j of a code, counted from its first, is c[L − 1 − j]. -/
theorem getElem_codeBits {w : Nat} (c : BitVec w) (l j : Nat) (h : j < (codeBits c l).length) :
    (codeBits c l)[j] = c.getLsbD (l - 1 - j) := by
  induction l generalizing j with
  | zero => simp [codeBits] at h
  | succ l ih =>
    cases j with
    | zero => simp [codeBits]
    | succ j =>
      simp only [codeBits, List.getElem_cons_succ]
      rw [ih]
      congr 1
      omega

end Sys2Proof.Machine
end

