-- ==== Sys2Proof/Laws/Outcome.lean ====
section
/-! SUPPORT. Everything a command can do, said once: how it succeeds (`Succeeds`), how it fails (`Fails`), when it
faults (`Faults`), and that `exec` does one of the three (`exec_cases`). Proofs about commands cite this and do not
unfold the meanings. -/

namespace Sys2Proof.Machine

open Sys2Proof

/-- The frame of every command: illegal, out of phase, or its own rule. -/
theorem guarded_cases (i : Instr) (s : State) (rule : State → Host.Outcome State Fault Refusal) :
    (i.wellFormed = false ∧ guarded i s rule = fail i .illegalCommand (encode i) s) ∨
      (i.wellFormed = true ∧ phaseOk s i = false ∧ guarded i s rule = fail i .phaseError s.statusWord s) ∨
      (i.wellFormed = true ∧ phaseOk s i = true ∧ guarded i s rule = rule s) := by
  unfold guarded
  rw [auxLegal_eq_wellFormed]
  cases hw : i.wellFormed
  · left; exact ⟨rfl, by simp⟩
  · cases hp : phaseOk s i
    · right; left; exact ⟨rfl, rfl, by simp⟩
    · right; right; exact ⟨rfl, rfl, by simp⟩

theorem guarded_of_ok {i : Instr} {s : State} (rule : State → Host.Outcome State Fault Refusal)
    (hw : i.wellFormed = true) (hp : phaseOk s i = true) : guarded i s rule = rule s := by
  rcases guarded_cases i s rule with ⟨h, -⟩ | ⟨-, h, -⟩ | ⟨-, -, h⟩
  · rw [hw] at h; cases h
  · rw [hp] at h; cases h
  · exact h

/-- `Succeeds i s u`: command `i` succeeds in state `s`, and `u` is its result before the frame sets LAST_FAIL to 0
(R186). The wellFormed and phase checks of the frame have passed. -/
inductive Succeeds : Instr → State → State → Prop
  | nop (s) : Succeeds .nop s s
  | clear (s) : Succeeds .clear s s.clearSession.clearReport
  | errclr (s) : Succeeds .errclr s s.clearReport
  | setf (sym s) : Succeeds (.setf sym) s (s.setFreq sym s.opa)
  | cnt (sym s) (h : entry s.freq sym ≠ 0xFFFFFFFF) :
      Succeeds (.cnt sym) s (s.setFreq sym (entry s.freq sym + 1))
  | rdfreq (sym s) : Succeeds (.rdfreq sym) s (s.setRes (entry s.freq sym))
  | buildEmpty (s) (h : symbolCount s.freq = 0) :
      Succeeds .build s (s.setTree s.node .empty 0 0 0 (Vector.replicate 256 CodeEntry.absent))
  | buildOne (s) (h : symbolCount s.freq = 1) :
      Succeeds .build s (s.setTree
        (s.node.setIfInBounds 0 (leafNode (firstSymbol s.freq) (entry s.freq (firstSymbol s.freq))))
        .degenerate 1 1 0 (degenerateTable (firstSymbol s.freq)))
  | buildMany (s) (h : 2 ≤ symbolCount s.freq)
      (hm : firstTooLong s.params.maxCodeLen (buildTree s).table = none) :
      Succeeds .build s ((s.setQueue (buildTree s).pop).setTree (buildTree s).node .general (symbolCount s.freq)
        (2 * symbolCount s.freq - 1) (buildTree s).top
        (storeTable (buildTree s).table))
  | rdnode (aux s) (h : s.opa.toNat < s.nnode.toNat) :
      Succeeds (.rdnode aux) s (s.setRes (nodeField (nodeAt s.node s.opa.toNat) aux))
  | rdlen (sym s) : Succeeds (.rdlen sym) s (s.setRes (zextByte (entry s.ct sym).len))
  | rdcode (sym aux s) : Succeeds (.rdcode sym aux) s (s.setRes (codeWord (entry s.ct sym).code aux))
  | encb (s) : Succeeds .encb s { s with encOpen := true, encDone := false, encBits := 0 }
  | encs (sym s m) (hl : (entry s.ct sym).len ≠ 0)
      (hc : s.encBits.toNat + (entry s.ct sym).len.toNat ≤ 8 * s.params.pbufBytes)
      (hm : appendBits s.pbuf s.encBits.toNat (codeBits (entry s.ct sym).code (entry s.ct sym).len.toNat) = .ok m) :
      Succeeds (.encs sym) s (s.setStream m (s.encBits.toNat + (entry s.ct sym).len.toNat))
  | encp (aux s m) (hc : s.encBits.toNat + aux.toNat ≤ 8 * s.params.pbufBytes)
      (hm : appendBits s.pbuf s.encBits.toNat (codeBits s.opa aux.toNat) = .ok m) :
      Succeeds (.encp aux) s (s.setStream m (s.encBits.toNat + aux.toNat))
  | ence (s) : Succeeds .ence s { s with encOpen := false, encDone := true }
  | pbwr (data s) (h : s.opa.toNat < s.params.pbufBytes) :
      Succeeds (.pbwr data) s { s with pbuf := s.pbuf.write s.opa.toNat data, encDone := false }
  | pbrd (s v) (h : s.opa.toNat < s.params.pbufBytes) (hv : s.pbuf.read? s.opa.toNat = some v) :
      Succeeds .pbrd s (s.setRes (zextByte v))
  | dec (aux s out cur) (hb : decodeBudget aux s ≤ 8 * s.params.pbufBytes)
      (hw : walk s (decodeBudget aux s) 0 s.root [] = .decoded out cur) :
      Succeeds (.dec aux) s (s.commitDecode (decodeBudget aux s) out cur)
  | ord (s v) (h : s.opa.toNat < s.outLen.toNat) (hv : s.obuf.read? s.opa.toNat = some v) :
      Succeeds .ord s (s.setRes (zextByte v))

/-- `Fails i s e info u`: command `i` fails in state `s` with error `e` and information word `info`, and `u` is `s`
with the abort effect (R185) before the frame reports the error (R187). -/
inductive Fails : Instr → State → ErrorCode → Word → State → Prop
  | illegal (i s) (h : i.wellFormed = false) : Fails i s .illegalCommand (encode i) s
  | phase (i s) (hw : i.wellFormed = true) (h : phaseOk s i = false) : Fails i s .phaseError s.statusWord s
  | overflow (sym s) (h : entry s.freq sym = 0xFFFFFFFF) : Fails (.cnt sym) s .freqOverflow (zextByte sym) s
  | tooLong (s sym) (h : 2 ≤ symbolCount s.freq)
      (hm : firstTooLong s.params.maxCodeLen (buildTree s).table = some sym) :
      Fails .build s .codeLengthOverflow
        (0#16 ++ BitVec.ofNat 8 (pathAt (buildTree s).table sym).len ++
          BitVec.ofNat 8 sym)
        { s.setQueue (buildTree s).pop with node := (buildTree s).node }
  | rdnodeRange (aux s) (h : s.nnode.toNat ≤ s.opa.toNat) : Fails (.rdnode aux) s .addressRange s.opa s
  | unknown (sym s) (h : (entry s.ct sym).len = 0) :
      Fails (.encs sym) s .unknownSymbol (zextByte sym) s.abortEncode
  | encsFull (sym s) (hl : (entry s.ct sym).len ≠ 0)
      (h : 8 * s.params.pbufBytes < s.encBits.toNat + (entry s.ct sym).len.toNat) :
      Fails (.encs sym) s .capacityExceeded (BitVec.ofNat 32 (s.encBits.toNat + (entry s.ct sym).len.toNat))
        s.abortEncode
  | encpFull (aux s) (h : 8 * s.params.pbufBytes < s.encBits.toNat + aux.toNat) :
      Fails (.encp aux) s .capacityExceeded (BitVec.ofNat 32 (s.encBits.toNat + aux.toNat)) s.abortEncode
  | pbwrRange (data s) (h : s.params.pbufBytes ≤ s.opa.toNat) : Fails (.pbwr data) s .addressRange s.opa s
  | pbrdRange (s) (h : s.params.pbufBytes ≤ s.opa.toNat) : Fails .pbrd s .addressRange s.opa s
  | decRange (aux s) (h : 8 * s.params.pbufBytes < decodeBudget aux s) :
      Fails (.dec aux) s .capacityExceeded (BitVec.ofNat 32 (min (decodeBudget aux s) 0xFFFFFFFF)) s.beginDecode
  | decWalk (aux s e pos cur) (hb : decodeBudget aux s ≤ 8 * s.params.pbufBytes)
      (hw : walk s (decodeBudget aux s) 0 s.root [] = .failed e pos cur) :
      Fails (.dec aux) s e (BitVec.ofNat 32 pos) (s.beginDecode.setWalk (decodeBudget aux s) pos cur)
  | ordRange (s) (h : s.outLen.toNat ≤ s.opa.toNat) : Fails .ord s .addressRange s.opa s

/-- `Faults i s f`: command `i` reads a buffer byte never written since hard reset (R55, R57). -/
inductive Faults : Instr → State → Fault → Prop
  | encs (sym s f) (hm : appendBits s.pbuf s.encBits.toNat
      (codeBits (entry s.ct sym).code (entry s.ct sym).len.toNat) = .error f) : Faults (.encs sym) s f
  | encp (aux s f) (hm : appendBits s.pbuf s.encBits.toNat (codeBits s.opa aux.toNat) = .error f) :
      Faults (.encp aux) s f
  | pbrd (s) (h : s.opa.toNat < s.params.pbufBytes) (hv : s.pbuf.read? s.opa.toNat = none) :
      Faults .pbrd s (.uninitRead .pbuf s.opa.toNat)
  | dec (aux s f) (hb : decodeBudget aux s ≤ 8 * s.params.pbufBytes)
      (hw : walk s (decodeBudget aux s) 0 s.root [] = .faulted f) : Faults (.dec aux) s f
  | ord (s) (h : s.opa.toNat < s.outLen.toNat) (hv : s.obuf.read? s.opa.toNat = none) :
      Faults .ord s (.uninitRead .obuf s.opa.toNat)

/-- What a command does: it succeeds, it fails, or it faults. -/
abbrev ExecCases (i : Instr) (s : State) (o : Host.Outcome State Fault Refusal) : Prop :=
  (∃ u, i.wellFormed = true ∧ phaseOk s i = true ∧ Succeeds i s u ∧ o = .next u.ok) ∨
    (∃ e info u, Fails i s e info u ∧ o = .next (u.raise (encode i) e info)) ∨
    (∃ f, i.wellFormed = true ∧ phaseOk s i = true ∧ Faults i s f ∧ o = .fault f)

/-- The frame reduces a command to its own rule. -/
theorem guarded_execCases {i : Instr} {s : State} {rule : State → Host.Outcome State Fault Refusal}
    (h : i.wellFormed = true → phaseOk s i = true → ExecCases i s (rule s)) : ExecCases i s (guarded i s rule) := by
  rcases guarded_cases i s rule with ⟨hw, hg⟩ | ⟨hw, hp, hg⟩ | ⟨hw, hp, hg⟩
  · exact .inr (.inl ⟨_, _, _, .illegal i s hw, hg⟩)
  · exact .inr (.inl ⟨_, _, _, .phase i s hw hp, hg⟩)
  · rw [hg]; exact h hw hp

theorem execCases_done {i : Instr} {s u : State} (h : i.wellFormed = true) (hp : phaseOk s i = true)
    (hs : Succeeds i s u) : ExecCases i s (done u) := .inl ⟨u, h, hp, hs, rfl⟩

theorem execCases_fail {i : Instr} {s u : State} {e : ErrorCode} {info : Word} (hf : Fails i s e info u) :
    ExecCases i s (fail i e info u) := .inr (.inl ⟨e, info, u, hf, rfl⟩)

theorem execCases_fault {i : Instr} {s : State} {f : Fault} (h : i.wellFormed = true) (hp : phaseOk s i = true)
    (hf : Faults i s f) : ExecCases i s (.fault f) := .inr (.inr ⟨f, h, hp, hf, rfl⟩)

/-- What the packing part of ENCS and ENCP does. -/
theorem packBits_cases (i : Instr) (bits : List Bool) (s : State) :
    (s.encBits.toNat + bits.length ≤ 8 * s.params.pbufBytes ∧ ∃ m,
        appendBits s.pbuf s.encBits.toNat bits = .ok m ∧
        packBits i bits s = done (s.setStream m (s.encBits.toNat + bits.length))) ∨
      (8 * s.params.pbufBytes < s.encBits.toNat + bits.length ∧
        packBits i bits s =
          fail i .capacityExceeded (BitVec.ofNat 32 (s.encBits.toNat + bits.length)) s.abortEncode) ∨
      (∃ f, appendBits s.pbuf s.encBits.toNat bits = .error f ∧ packBits i bits s = .fault f) := by
  unfold packBits State.pbufBits
  by_cases hc : s.encBits.toNat + bits.length > 8 * s.params.pbufBytes
  · rw [if_pos hc]; exact .inr (.inl ⟨hc, rfl⟩)
  · rw [if_neg hc]
    cases hm : appendBits s.pbuf s.encBits.toNat bits with
    | ok m => exact .inl ⟨by omega, m, rfl, rfl⟩
    | error f => exact .inr (.inr ⟨f, rfl, rfl⟩)

/-- Every command does one of the three. -/
theorem exec_cases (i : Instr) (s : State) : ExecCases i s (exec i s) := by
  cases i with
  | nop =>
    show ExecCases .nop s (execNop s)
    unfold execNop
    exact guarded_execCases fun hw hp => execCases_done hw hp (.nop s)
  | clear =>
    show ExecCases .clear s (execClear s)
    unfold execClear
    exact guarded_execCases fun hw hp => execCases_done hw hp (.clear s)
  | errclr =>
    show ExecCases .errclr s (execErrclr s)
    unfold execErrclr
    exact guarded_execCases fun hw hp => execCases_done hw hp (.errclr s)
  | setf sym =>
    show ExecCases (.setf sym) s (execSetf sym s)
    unfold execSetf
    exact guarded_execCases fun hw hp => execCases_done hw hp (.setf sym s)
  | cnt sym =>
    show ExecCases (.cnt sym) s (execCnt sym s)
    unfold execCnt
    refine guarded_execCases fun hw hp => ?_
    split
    · next h => exact execCases_fail (.overflow sym s h)
    · next h => exact execCases_done hw hp (.cnt sym s h)
  | rdfreq sym =>
    show ExecCases (.rdfreq sym) s (execRdfreq sym s)
    unfold execRdfreq
    exact guarded_execCases fun hw hp => execCases_done hw hp (.rdfreq sym s)
  | build =>
    show ExecCases .build s (execBuild s)
    unfold execBuild
    refine guarded_execCases fun hw hp => ?_
    split
    · next h => exact execCases_done hw hp (.buildEmpty s h)
    · next h0 =>
      split
      · next h => exact execCases_done hw hp (.buildOne s h)
      · next h1 =>
        have hk : 2 ≤ symbolCount s.freq := by omega
        unfold finishBuild
        split
        · next sym hm => exact execCases_fail (.tooLong s sym hk hm)
        · next hm => exact execCases_done hw hp (.buildMany s hk hm)
  | rdnode aux =>
    show ExecCases (.rdnode aux) s (execRdnode aux s)
    unfold execRdnode
    refine guarded_execCases fun hw hp => ?_
    split
    · next h => exact execCases_fail (.rdnodeRange aux s h)
    · next h => exact execCases_done hw hp (.rdnode aux s (Nat.lt_of_not_le h))
  | rdlen sym =>
    show ExecCases (.rdlen sym) s (execRdlen sym s)
    unfold execRdlen
    exact guarded_execCases fun hw hp => execCases_done hw hp (.rdlen sym s)
  | rdcode sym aux =>
    show ExecCases (.rdcode sym aux) s (execRdcode sym aux s)
    unfold execRdcode
    exact guarded_execCases fun hw hp => execCases_done hw hp (.rdcode sym aux s)
  | encb =>
    show ExecCases .encb s (execEncb s)
    unfold execEncb
    exact guarded_execCases fun hw hp => execCases_done hw hp (.encb s)
  | encs sym =>
    show ExecCases (.encs sym) s (execEncs sym s)
    unfold execEncs
    refine guarded_execCases fun hw hp => ?_
    split
    · next h => exact execCases_fail (.unknown sym s h)
    · next hl =>
      rcases packBits_cases (.encs sym) (codeBits (entry s.ct sym).code (entry s.ct sym).len.toNat) s with
        ⟨hc, m, hm, h⟩ | ⟨hc, h⟩ | ⟨f, hm, h⟩ <;> rw [h]
      · rw [length_codeBits] at hc ⊢
        exact execCases_done hw hp (.encs sym s m hl hc hm)
      · rw [length_codeBits] at hc ⊢
        exact execCases_fail (.encsFull sym s hl hc)
      · exact execCases_fault hw hp (.encs sym s f hm)
  | encp aux =>
    show ExecCases (.encp aux) s (execEncp aux s)
    unfold execEncp
    refine guarded_execCases fun hw hp => ?_
    rcases packBits_cases (.encp aux) (codeBits s.opa aux.toNat) s with
      ⟨hc, m, hm, h⟩ | ⟨hc, h⟩ | ⟨f, hm, h⟩ <;> rw [h]
    · rw [length_codeBits] at hc ⊢
      exact execCases_done hw hp (.encp aux s m hc hm)
    · rw [length_codeBits] at hc ⊢
      exact execCases_fail (.encpFull aux s hc)
    · exact execCases_fault hw hp (.encp aux s f hm)
  | ence =>
    show ExecCases .ence s (execEnce s)
    unfold execEnce
    exact guarded_execCases fun hw hp => execCases_done hw hp (.ence s)
  | pbwr data =>
    show ExecCases (.pbwr data) s (execPbwr data s)
    unfold execPbwr
    refine guarded_execCases fun hw hp => ?_
    split
    · next h => exact execCases_fail (.pbwrRange data s h)
    · next h => exact execCases_done hw hp (.pbwr data s (Nat.lt_of_not_le h))
  | pbrd =>
    show ExecCases .pbrd s (execPbrd s)
    unfold execPbrd
    refine guarded_execCases fun hw hp => ?_
    split
    · next h => exact execCases_fail (.pbrdRange s h)
    · next h =>
      split
      · next v hv => exact execCases_done hw hp (.pbrd s v (Nat.lt_of_not_le h) (memRead_eq_ok.mp hv))
      · next f hf =>
        obtain ⟨hn, rfl⟩ := memRead_eq_error.mp hf
        exact execCases_fault hw hp (.pbrd s (Nat.lt_of_not_le h) hn)
  | dec aux =>
    show ExecCases (.dec aux) s (execDec aux s)
    unfold execDec
    refine guarded_execCases fun hw hp => ?_
    unfold decodeBits
    split
    · next h => exact execCases_fail (.decRange aux s h)
    · next h =>
      have hb : decodeBudget aux s ≤ 8 * s.params.pbufBytes := Nat.le_of_not_lt h
      split
      · next out cur hk => exact execCases_done hw hp (.dec aux s out cur hb hk)
      · next e pos cur hk => exact execCases_fail (.decWalk aux s e pos cur hb hk)
      · next f hk => exact execCases_fault hw hp (.dec aux s f hb hk)
  | ord =>
    show ExecCases .ord s (execOrd s)
    unfold execOrd
    refine guarded_execCases fun hw hp => ?_
    split
    · next h => exact execCases_fail (.ordRange s h)
    · next h =>
      split
      · next v hv => exact execCases_done hw hp (.ord s v (Nat.lt_of_not_le h) (memRead_eq_ok.mp hv))
      · next f hf =>
        obtain ⟨hn, rfl⟩ := memRead_eq_error.mp hf
        exact execCases_fault hw hp (.ord s (Nat.lt_of_not_le h) hn)

/-- A term that is no command fails with ILLEGAL_COMMAND. -/
theorem exec_of_illegal {i : Instr} {s : State} (hw : i.wellFormed = false) :
    exec i s = fail i .illegalCommand (encode i) s := by
  cases i <;> simp only [exec, execNop, execClear, execErrclr, execSetf, execCnt, execRdfreq, execBuild, execRdnode, execRdlen,
    execRdcode, execEncb, execEncs, execEncp, execEnce, execPbwr, execPbrd, execDec, execOrd,
    guarded, auxLegal_eq_wellFormed, hw, Bool.not_false, if_true]

/-- A command out of phase fails with PHASE_ERROR (R86). -/
theorem exec_of_phase {i : Instr} {s : State} (hw : i.wellFormed = true) (hp : phaseOk s i = false) :
    exec i s = fail i .phaseError s.statusWord s := by
  cases i <;> simp only [exec, execNop, execClear, execErrclr, execSetf, execCnt, execRdfreq, execBuild, execRdnode, execRdlen,
    execRdcode, execEncb, execEncs, execEncp, execEnce, execPbwr, execPbrd, execDec, execOrd,
    guarded, auxLegal_eq_wellFormed, hw, hp, Bool.not_true, Bool.not_false, if_true, Bool.false_eq_true, if_false]

/-- A command that answers a next state succeeds or fails. -/
theorem exec_next_cases {i : Instr} {s t : State} (h : exec i s = .next t) :
    (∃ u, i.wellFormed = true ∧ phaseOk s i = true ∧ Succeeds i s u ∧ t = u.ok) ∨
      (∃ e info u, Fails i s e info u ∧ t = u.raise (encode i) e info) := by
  rcases exec_cases i s with ⟨u, hw, hp, hs, he⟩ | ⟨e, info, u, hf, he⟩ | ⟨f, -, -, -, he⟩
  · rw [h] at he; cases he; exact .inl ⟨u, hw, hp, hs, rfl⟩
  · rw [h] at he; cases he; exact .inr ⟨e, info, u, hf, rfl⟩
  · rw [h] at he; cases he

/-- A command word's run: the command it decodes to, or ILLEGAL_COMMAND. -/
theorem runCommand_cases (w : Word) (s : State) :
    (∃ i, decode w = .ok i ∧ runCommand w s = exec i s) ∨
      (∃ e, decode w = .error e ∧ runCommand w s = .next (s.raise w .illegalCommand w)) := by
  unfold runCommand
  cases h : decode w with
  | ok i => exact .inl ⟨i, rfl, rfl⟩
  | error e => exact .inr ⟨e, rfl, rfl⟩

/-- What a step that answers a next state can be: idle, a hard reset, an access elsewhere, a host read, a host write
that runs no command, or a write to CMD. -/
theorem step_next_cases {s t : State} (h : step s = .next t) :
    (s.pending = [] ∧ t = s) ∨
      ∃ input rest, s.pending = input :: rest ∧
        ((input = .hardReset ∧ t = hardReset { s with pending := rest }) ∨
          (t = { s with pending := rest }) ∨
          (∃ v, t = { s with pending := rest, reads := s.reads ++ [v] }) ∨
          (∃ v, t = { s with pending := rest, opa := v }) ∨
          (∃ w, runCommand w { s with pending := rest, cmd := w } = .next t)) := by
  unfold step at h
  cases hp : s.pending with
  | nil =>
    rw [hp] at h
    cases h
    exact .inl ⟨rfl, rfl⟩
  | cons input rest =>
    rw [hp] at h
    refine .inr ⟨input, rest, rfl, ?_⟩
    cases input with
    | hardReset => cases h; exact .inl ⟨rfl, rfl⟩
    | access a =>
      right
      simp only [takeInput, hostAccess] at h
      split at h
      · cases h; exact .inl rfl
      · split at h
        · cases h
        · split at h
          · cases h; exact .inr (.inl ⟨_, rfl⟩)
          · next v hk =>
            unfold writeReg at h
            split at h
            · exact .inr (.inr (.inr ⟨v, h⟩))
            · cases h; exact .inr (.inr (.inl ⟨v, rfl⟩))
            · cases h; exact .inl rfl

end Sys2Proof.Machine
end

