-- ==== Sys2Proof/Laws/PerInstr.lean ====
section
/-! SUPPORT. A statement about every command, made one lemma a constructor: its command word has RSV = 0, the OPC of its
row of spec/opcode_table.json, and 0 in each field that its OPC does not use (R70, R82). -/

namespace Sys2Proof.Laws.CommandWord

open Sys2Proof

/-- The word of a command has RSV = 0, the OPC of the command's row, and 0 in each field that its OPC does not use. -/
def Statement (i : Instr) : Prop :=
  fieldRsv (encode i) = 0 ∧ fieldOpc (encode i) = (opcodeRow i).pattern.setWidth 8 ∧
    (usesSym (fieldOpc (encode i)) = true ∨ fieldSym (encode i) = 0) ∧
    (usesAux (fieldOpc (encode i)) = true ∨ fieldAux (encode i) = 0)

/-- The statement from the fields that a word is assembled from. -/
theorem of_assemble (i : Instr) (opc sym aux : Byte) (he : encode i = assemble opc sym aux)
    (ho : opc = (opcodeRow i).pattern.setWidth 8) (hs : usesSym opc = true ∨ sym = 0)
    (ha : usesAux opc = true ∨ aux = 0) : Statement i := by
  simp only [Statement, he, fieldRsv_assemble, fieldOpc_assemble, fieldSym_assemble, fieldAux_assemble]
  exact ⟨trivial, ho, hs, ha⟩

theorem nop : Statement .nop := of_assemble _ _ _ _ rfl rfl (.inr rfl) (.inr rfl)

theorem clear : Statement .clear := of_assemble _ _ _ _ rfl rfl (.inr rfl) (.inr rfl)

theorem errclr : Statement .errclr := of_assemble _ _ _ _ rfl rfl (.inr rfl) (.inr rfl)

theorem setf (sym : Byte) : Statement (.setf sym) := of_assemble _ _ _ _ rfl rfl (.inl rfl) (.inr rfl)

theorem cnt (sym : Byte) : Statement (.cnt sym) := of_assemble _ _ _ _ rfl rfl (.inl rfl) (.inr rfl)

theorem rdfreq (sym : Byte) : Statement (.rdfreq sym) := of_assemble _ _ _ _ rfl rfl (.inl rfl) (.inr rfl)

theorem build : Statement .build := of_assemble _ _ _ _ rfl rfl (.inr rfl) (.inr rfl)

theorem rdnode (aux : Byte) : Statement (.rdnode aux) := of_assemble _ _ _ _ rfl rfl (.inr rfl) (.inl rfl)

theorem rdlen (sym : Byte) : Statement (.rdlen sym) := of_assemble _ _ _ _ rfl rfl (.inl rfl) (.inr rfl)

theorem rdcode (sym aux : Byte) : Statement (.rdcode sym aux) := of_assemble _ _ _ _ rfl rfl (.inl rfl) (.inl rfl)

theorem encb : Statement .encb := of_assemble _ _ _ _ rfl rfl (.inr rfl) (.inr rfl)

theorem encs (sym : Byte) : Statement (.encs sym) := of_assemble _ _ _ _ rfl rfl (.inl rfl) (.inr rfl)

theorem encp (aux : Byte) : Statement (.encp aux) := of_assemble _ _ _ _ rfl rfl (.inr rfl) (.inl rfl)

theorem ence : Statement .ence := of_assemble _ _ _ _ rfl rfl (.inr rfl) (.inr rfl)

theorem pbwr (data : Byte) : Statement (.pbwr data) := of_assemble _ _ _ _ rfl rfl (.inl rfl) (.inr rfl)

theorem pbrd : Statement .pbrd := of_assemble _ _ _ _ rfl rfl (.inr rfl) (.inr rfl)

theorem dec (aux : Byte) : Statement (.dec aux) := of_assemble _ _ _ _ rfl rfl (.inr rfl) (.inl rfl)

theorem ord : Statement .ord := of_assemble _ _ _ _ rfl rfl (.inr rfl) (.inr rfl)

end Sys2Proof.Laws.CommandWord
end

