-- ==== Sys2Proof/Laws/Walk.lean ====
section
/-! SUPPORT. What the walk of DEC (R173) can do: where it can end, what it outputs, and what it reads. -/

namespace Sys2Proof.Machine

open Sys2Proof

theorem walk_zero (s : State) (p : Nat) (cur : NodeId) (out : List Byte) :
    walk s 0 p cur out = if cur ≠ s.root then .failed .malformedEncodedData p cur else .decoded out cur := rfl

/-- One pass of the walk: a failure at this bit, the fault of a byte never written, or the rest of the walk from the
next bit, with at most one more byte of output, which OBUF has room for. -/
theorem walk_succ_cases (s : State) (n p : Nat) (cur : NodeId) (out : List Byte) :
    (∃ pos c, walk s (n + 1) p cur out = .failed .malformedEncodedData pos c ∧ p ≤ pos ∧ pos ≤ p + 1) ∨
      (∃ c, walk s (n + 1) p cur out = .failed .capacityExceeded (p + 1) c ∧ out.length = s.params.obufBytes) ∨
      (walk s (n + 1) p cur out = .faulted (.uninitRead .pbuf (p / 8)) ∧ s.pbuf.read? (p / 8) = none) ∨
      (∃ c ys, walk s (n + 1) p cur out = walk s n (p + 1) c (out ++ ys) ∧
        (ys = [] ∨ ∃ y, ys = [y] ∧ out.length ≠ s.params.obufBytes)) := by
  simp only [walk]
  by_cases hk : s.kind = .empty
  · left; exact ⟨p, cur, by simp [hk], le_refl _, Nat.le_succ _⟩
  · rw [if_neg hk]
    cases hb : bitRead s.pbuf p with
    | error f =>
      obtain ⟨hn, rfl⟩ := bitRead_eq_error.mp hb
      exact .inr (.inr (.inl ⟨rfl, hn⟩))
    | ok b =>
      simp only
      by_cases hd : s.kind = .degenerate
      · rw [if_pos hd]
        by_cases hbt : b = true
        · left; exact ⟨p + 1, cur, by simp [hbt], Nat.le_succ _, le_refl _⟩
        · rw [if_neg hbt]
          by_cases hc : out.length = s.params.obufBytes
          · exact .inr (.inl ⟨cur, by simp [hc], hc⟩)
          · rw [if_neg hc]; exact .inr (.inr (.inr ⟨_, _, rfl, .inr ⟨_, rfl, hc⟩⟩))
      · rw [if_neg hd]
        split
        · split
          · next hc => exact .inr (.inl ⟨_, rfl, hc⟩)
          · next hc => exact .inr (.inr (.inr ⟨_, _, rfl, .inr ⟨_, rfl, hc⟩⟩))
        · exact .inr (.inr (.inr ⟨_, [], by rw [List.append_nil], .inl rfl⟩))

/-- A walk that succeeds ends at the root, extends its output, and never outputs more than OBUF holds (R174, R175). -/
theorem walk_decoded {s : State} {n p : Nat} {cur c : NodeId} {out o : List Byte}
    (h : walk s n p cur out = .decoded o c) (hl : out.length ≤ s.params.obufBytes) :
    c = s.root ∧ o.length ≤ s.params.obufBytes ∧ o.length ≤ out.length + n ∧ ∃ ys, o = out ++ ys := by
  induction n generalizing p cur out with
  | zero =>
    rw [walk_zero] at h
    split at h
    · cases h
    · next hc =>
      cases h
      exact ⟨not_not.mp hc, hl, le_refl _, [], by simp⟩
  | succ n ih =>
    rcases walk_succ_cases s n p cur out with ⟨_, _, he, -⟩ | ⟨_, he, -⟩ | ⟨he, -⟩ | ⟨d, ys, he, hy⟩
    · rw [he] at h; cases h
    · rw [he] at h; cases h
    · rw [he] at h; cases h
    · rw [he] at h
      have hlen : (out ++ ys).length ≤ s.params.obufBytes ∧ (out ++ ys).length ≤ out.length + 1 := by
        rcases hy with rfl | ⟨y, rfl, hne⟩ <;> simp <;> omega
      obtain ⟨h1, h2, h3, zs, h4⟩ := ih h hlen.1
      exact ⟨h1, h2, by omega, ys ++ zs, by rw [h4, List.append_assoc]⟩

/-- A walk fails only with MALFORMED_ENCODED_DATA or CAPACITY_EXCEEDED, at a position inside its budget (R174). -/
theorem walk_failed {s : State} {n p : Nat} {cur c : NodeId} {out : List Byte} {e : ErrorCode} {pos : Nat}
    (h : walk s n p cur out = .failed e pos c) :
    (e = .malformedEncodedData ∨ e = .capacityExceeded) ∧ p ≤ pos ∧ pos ≤ p + n := by
  induction n generalizing p cur out with
  | zero =>
    rw [walk_zero] at h
    split at h
    · cases h; exact ⟨.inl rfl, le_refl _, le_refl _⟩
    · cases h
  | succ n ih =>
    rcases walk_succ_cases s n p cur out with ⟨_, _, he, h1, h2⟩ | ⟨_, he, -⟩ | ⟨he, -⟩ | ⟨d, ys, he, -⟩
    · rw [he] at h; cases h; exact ⟨.inl rfl, h1, by omega⟩
    · rw [he] at h; cases h; exact ⟨.inr rfl, by omega, by omega⟩
    · rw [he] at h; cases h
    · rw [he] at h
      obtain ⟨h1, h2, h3⟩ := ih h
      exact ⟨h1, by omega, by omega⟩

/-- A walk faults only at a byte never written that holds a bit below its budget (R55, R178). -/
theorem walk_faulted {s : State} {n p : Nat} {cur : NodeId} {out : List Byte} {f : Fault}
    (h : walk s n p cur out = .faulted f) :
    ∃ q, p ≤ q ∧ q < p + n ∧ s.pbuf.read? (q / 8) = none ∧ f = .uninitRead .pbuf (q / 8) := by
  induction n generalizing p cur out with
  | zero => rw [walk_zero] at h; split at h <;> cases h
  | succ n ih =>
    rcases walk_succ_cases s n p cur out with ⟨_, _, he, -⟩ | ⟨_, he, -⟩ | ⟨he, hr⟩ | ⟨d, ys, he, -⟩
    · rw [he] at h; cases h
    · rw [he] at h; cases h
    · rw [he] at h; cases h; exact ⟨p, le_refl _, by omega, hr, rfl⟩
    · rw [he] at h
      obtain ⟨q, h1, h2, h3⟩ := ih h
      exact ⟨q, by omega, by omega, h3⟩

/-- A walk depends on the tree, on the size of OBUF, and on the stream bits below its budget, on nothing else (R178). -/
theorem walk_congr {s s' : State} (hk : s'.kind = s.kind) (hr : s'.root = s.root) (hn : s'.node = s.node)
    (ho : s'.params.obufBytes = s.params.obufBytes) (n p : Nat) (cur : NodeId) (out : List Byte)
    (hb : ∀ q, p ≤ q → q < p + n → bitRead s'.pbuf q = bitRead s.pbuf q) :
    walk s' n p cur out = walk s n p cur out := by
  induction n generalizing p cur out with
  | zero => simp only [walk_zero, hr]
  | succ n ih =>
    have ih := fun cur out => ih (p + 1) cur out fun q h1 h2 => hb q (by omega) (by omega)
    simp only [walk, hk, hr, hn, ho, hb p (le_refl _) (by omega), ih]

end Sys2Proof.Machine
end

