-- ==== Sys2Proof/Tests/Slice0.lean ====
section
/-! SUPPORT. Tests of the model: ill-formed terms, words written out from the format of R70 and the opcode map of R76,
one-step tests whose expected values are those of spec/95_test_vectors.md (named in each test), and for every statement with
hypotheses a state and operands that meet them (test_witness_…). -/

namespace Sys2Proof.Tests

open Sys2Proof Sys2Proof.Machine

-- One theorem at a time: the kernel evaluations below would each hold a thread.
set_option Elab.async false

/-! ### Ill-formed terms (R78) -/

theorem test_wf_rdnode : (Instr.rdnode 3).wellFormed = false ∧ (Instr.rdnode 2).wellFormed = true := by decide
theorem test_wf_rdcode : (Instr.rdcode 0 8).wellFormed = false ∧ (Instr.rdcode 255 7).wellFormed = true := by decide
theorem test_wf_encp_zero : (Instr.encp 0).wellFormed = false ∧ (Instr.encp 1).wellFormed = true := by decide
theorem test_wf_encp_many : (Instr.encp 33).wellFormed = false ∧ (Instr.encp 32).wellFormed = true := by decide
theorem test_wf_dec : (Instr.dec 2).wellFormed = false ∧ (Instr.dec 1).wellFormed = true := by decide

/-! ### Words written out as RSV, AUX, SYM, OPC (R70, R76) -/

theorem test_decode_nop : decode (0b00000000#8 ++ 0b00000000#8 ++ 0b00000000#8 ++ 0b00000000#8) = .ok .nop := by decide
theorem test_decode_clear : decode (0b00000000#8 ++ 0b00000000#8 ++ 0b00000000#8 ++ 0b00000001#8) = .ok .clear := by decide
theorem test_decode_errclr : decode (0b00000000#8 ++ 0b00000000#8 ++ 0b00000000#8 ++ 0b00000010#8) = .ok .errclr := by decide
theorem test_decode_setf : decode (0b00000000#8 ++ 0b00000000#8 ++ 0b01000001#8 ++ 0b00000011#8) = .ok (.setf 0x41) := by decide
theorem test_decode_cnt : decode (0b00000000#8 ++ 0b00000000#8 ++ 0b11111111#8 ++ 0b00000100#8) = .ok (.cnt 0xFF) := by decide
theorem test_decode_rdfreq : decode (0b00000000#8 ++ 0b00000000#8 ++ 0b01000011#8 ++ 0b00000101#8) = .ok (.rdfreq 0x43) := by decide
theorem test_decode_build : decode (0b00000000#8 ++ 0b00000000#8 ++ 0b00000000#8 ++ 0b00000110#8) = .ok .build := by decide
theorem test_decode_rdnode : decode (0b00000000#8 ++ 0b00000010#8 ++ 0b00000000#8 ++ 0b00000111#8) = .ok (.rdnode 2) := by decide
theorem test_decode_rdlen : decode (0b00000000#8 ++ 0b00000000#8 ++ 0b01000011#8 ++ 0b00001000#8) = .ok (.rdlen 0x43) := by decide
theorem test_decode_rdcode : decode (0b00000000#8 ++ 0b00000001#8 ++ 0b01000011#8 ++ 0b00001001#8) = .ok (.rdcode 0x43 1) := by decide
theorem test_decode_encb : decode (0b00000000#8 ++ 0b00000000#8 ++ 0b00000000#8 ++ 0b00001010#8) = .ok .encb := by decide
theorem test_decode_encs : decode (0b00000000#8 ++ 0b00000000#8 ++ 0b01000010#8 ++ 0b00001011#8) = .ok (.encs 0x42) := by decide
theorem test_decode_encp : decode (0b00000000#8 ++ 0b00100000#8 ++ 0b00000000#8 ++ 0b00001100#8) = .ok (.encp 32) := by decide
theorem test_decode_ence : decode (0b00000000#8 ++ 0b00000000#8 ++ 0b00000000#8 ++ 0b00001101#8) = .ok .ence := by decide
theorem test_decode_pbwr : decode (0b00000000#8 ++ 0b00000000#8 ++ 0b11011100#8 ++ 0b00001110#8) = .ok (.pbwr 0xDC) := by decide
theorem test_decode_pbrd : decode (0b00000000#8 ++ 0b00000000#8 ++ 0b00000000#8 ++ 0b00001111#8) = .ok .pbrd := by decide
theorem test_decode_dec : decode (0b00000000#8 ++ 0b00000001#8 ++ 0b00000000#8 ++ 0b00010000#8) = .ok (.dec 1) := by decide
theorem test_decode_ord : decode (0b00000000#8 ++ 0b00000000#8 ++ 0b00000000#8 ++ 0b00010001#8) = .ok .ord := by decide

/-- R84's illegal words, one for each check of R71; and the bits above a table row's are 0. -/
theorem test_decode_illegal :
    decode 0x01000000 = .error .rsvNonzero ∧ decode 0x00000012 = .error .reservedOpcode ∧
      decode 0x00004101 = .error .unusedSym ∧ decode 0x00010001 = .error .unusedAux ∧
      decode 0x0021000C = .error .auxOutOfRange ∧ decode 0x00030007 = .error .auxOutOfRange ∧
      decodeTableWord 32 0x0005000C = some (.encp 5) ∧ decodeTableWord 32 0x00020010 = none := by decide

/-! ### Small states -/

/-- The next state of an outcome. -/
def nextOf : Result → Option State
  | .next t => some t
  | .fault _ => none
  | .refused _ => none

/-- The fault of an outcome. -/
def faultOf : Result → Option Fault
  | .next _ => none
  | .fault f => some f
  | .refused _ => none

/-- The refusal of an outcome. -/
def refusalOf : Result → Option Refusal
  | .next _ => none
  | .fault _ => none
  | .refused r => some r

theorem of_nextOf {o : Result} (p : State → Bool) (h : (nextOf o).any p = true) :
    ∃ t, o = .next t ∧ p t = true := by
  cases o with
  | next t => exact ⟨t, rfl, h⟩
  | fault f => simp [nextOf] at h
  | refused r => simp [nextOf] at h

theorem of_faultOf {o : Result} {f : Fault} (h : faultOf o = some f) : o = .fault f := by
  cases o with
  | next t => simp [faultOf] at h
  | fault g => cases h; rfl
  | refused r => simp [faultOf] at h

/-- A state with the given frequencies. -/
def withFreq (fs : List (Byte × Word)) (s : State) : State :=
  { s with freq := fs.foldl (fun v c => setEntry v c.1 c.2) s.freq }

/-- After BUILDFROM "AB" (P4): A is 0, B is 1. -/
def twoSymbols : State :=
  { withFreq [(0x41, 1), (0x42, 1)] State.reset with
    built := true
    kind := .general
    nsym := 2
    nnode := 3
    root := 2
    totalBits := 2
    node := ((State.reset.node.set 0 ⟨true, 0x41, 1, 0, 0⟩).set 1 ⟨true, 0x42, 1, 0, 0⟩).set 2 ⟨false, 0, 2, 0, 1⟩
    ct := setEntry (setEntry State.reset.ct 0x41 ⟨1, 0⟩) 0x42 ⟨1, 1⟩ }

/-- After BUILDFROM "AAA" (V-D10). -/
def oneSymbol : State :=
  { withFreq [(0x41, 3)] State.reset with
    built := true
    kind := .degenerate
    nsym := 1
    nnode := 1
    totalBits := 3
    node := State.reset.node.set 0 ⟨true, 0x41, 3, 0, 0⟩
    ct := setEntry State.reset.ct 0x41 ⟨1, 0⟩ }

/-- After BUILD of an empty frequency table (V-B1). -/
def noSymbol : State := { State.reset with built := true, kind := .empty }

/-- In an encode session after the three bits 101 (P5, step 3). -/
def packing : State := { State.reset with encOpen := true, encBits := 3, pbuf := [(0, 0xA0)] }

/-- The frequencies of "ABC" loaded, before BUILD (V-B4). -/
def loaded : State := withFreq [(0x41, 1), (0x42, 1), (0x43, 1)] State.reset

/-- With an error report of the illegal word 0x12 (V-E1). -/
def reported : State :=
  { State.reset with lastFail := true, errValid := true, err := 0x00001201, errInfo := 0x00000012 }

/-! ### One step a command -/

/-- V-E2. -/
theorem test_nop : (nextOf (exec .nop reported)).any (fun t => t.statusWord = 0x080 ∧ t.err = 0x1201) = true := by
  decide +kernel

/-- V-E5. -/
theorem test_clear : (nextOf (exec .clear twoSymbols)).any (fun t =>
    t.statusWord = 0 ∧ t.totalBits = 0 ∧ t.nsym = 0 ∧ t.nnode = 0 ∧ t.root = 0 ∧ entry t.freq 0x41 = 0) = true := by
  decide +kernel

/-- R90's example. -/
theorem test_errclr : (nextOf (exec .errclr { twoSymbols with
    lastFail := true, errValid := true, errLost := true, err := 0x005A0B05, errInfo := 0x5A })).any (fun t =>
    t.statusWord = 0x007 ∧ t.err = 0 ∧ t.errInfo = 0) = true := by decide +kernel

/-- R103's example. -/
theorem test_setf : (nextOf (exec (.setf 0x41) { State.reset with opa := 13 })).any (fun t =>
    entry t.freq 0x41 = 13 ∧ entry t.freq 0x42 = 0 ∧ t.res = 0) = true := by decide +kernel

/-- V-F3. -/
theorem test_setf_phase : (nextOf (exec (.setf 0x41) twoSymbols)).any (fun t =>
    t.statusWord = 0x0C7 ∧ t.err = 0x00410302 ∧ t.errInfo = 0x007) = true := by decide +kernel

/-- R104's example. -/
theorem test_cnt : (nextOf (exec (.cnt 0x42) (withFreq [(0x42, 5)] State.reset))).any (fun t =>
    entry t.freq 0x42 = 6) = true := by decide +kernel

/-- V-F1. -/
theorem test_cnt_overflow : (nextOf (exec (.cnt 0x41) (withFreq [(0x41, 0xFFFFFFFF)] State.reset))).any (fun t =>
    t.statusWord = 0x0C0 ∧ t.err = 0x00410403 ∧ t.errInfo = 0x41 ∧ entry t.freq 0x41 = 0xFFFFFFFF) = true := by
  decide +kernel

/-- V-F5. -/
theorem test_rdfreq : (nextOf (exec (.rdfreq 0x42) twoSymbols)).any (fun t => t.res = 1) = true := by decide +kernel

/-- V-B4. -/
theorem test_build : (nextOf (exec .build loaded)).any (fun t =>
    t.statusWord = 0x007 ∧ t.nsym = 3 ∧ t.nnode = 5 ∧ t.root = 4 ∧ t.totalBits = 5 ∧
      (List.range 5).map (fun n => (nodeField (nodeAt t.node n) 0).toNat) =
        [0x80000041, 0x80000042, 0x80000043, 0x00020000, 0x00060200] ∧
      entry t.ct 0x41 = ⟨2, 2⟩ ∧ entry t.ct 0x42 = ⟨2, 3⟩ ∧ entry t.ct 0x43 = ⟨1, 0⟩) = true := by decide +kernel

/-- V-B9: the lower frequency goes left. -/
theorem test_build_left : (nextOf (exec .build (withFreq [(0x41, 2), (0x42, 1)] State.reset))).any (fun t =>
    entry t.ct 0x41 = ⟨1, 1⟩ ∧ entry t.ct 0x42 = ⟨1, 0⟩ ∧ t.totalBits = 3 ∧ t.root = 2) = true := by decide +kernel

/-- V-S4's node 5. -/
theorem test_rdnode : (nextOf (exec (.rdnode 0) { twoSymbols with opa := 2 })).any (fun t =>
    t.res = 0x00020000) = true := by decide +kernel

/-- V-B2. -/
theorem test_rdnode_range : (nextOf (exec (.rdnode 0) noSymbol)).any (fun t =>
    t.statusWord = 0x0C3 ∧ t.err = 0x00000708 ∧ t.errInfo = 0) = true := by decide +kernel

/-- V-C1. -/
theorem test_rdlen : (nextOf (exec (.rdlen 0x41) { twoSymbols with ct := setEntry twoSymbols.ct 0x41 ⟨2, 2⟩ })).any
    (fun t => t.res = 2) = true := by decide +kernel

/-- V-C2: bits 63:32 of a 39-bit code. -/
theorem test_rdcode : (nextOf (exec (.rdcode 0 1)
    { twoSymbols with ct := setEntry twoSymbols.ct 0 ⟨39, 0x7FFFFFFFFE⟩ })).any (fun t => t.res = 0x7F) = true := by
  decide +kernel

/-- R148's example. -/
theorem test_encb : (nextOf (exec .encb { State.reset with encBits := 9, encDone := true })).any (fun t =>
    t.statusWord = 0x008 ∧ t.encBits = 0) = true := by decide +kernel

/-- V-K8: the second symbol of "BA". -/
theorem test_encs : (nextOf (exec (.encs 0x41) { twoSymbols with encOpen := true, encBits := 1, pbuf := [(0, 0x80)] })).any
    (fun t => t.encBits = 2 ∧ t.pbuf = [(0, 0x80)]) = true := by decide +kernel

/-- V-K9. -/
theorem test_encs_unknown : (nextOf (exec (.encs 0x5A) { twoSymbols with
    encOpen := true, encBits := 1, pbuf := [(0, 0)] })).any (fun t =>
    t.statusWord = 0x0C7 ∧ t.err = 0x005A0B05 ∧ t.errInfo = 0x5A ∧ t.encBits = 0 ∧ t.pbuf = [(0, 0)]) = true := by
  decide +kernel

/-- P5: seven bits 1100110 after the bits 101, over a byte boundary. -/
theorem test_encp : (nextOf (exec (.encp 7) { packing with opa := 0x66 })).any (fun t =>
    t.encBits = 10 ∧ t.pbuf = [(0, 0xB9), (1, 0x80)]) = true := by decide +kernel

/-- V-K12. -/
theorem test_encp_full : (nextOf (exec (.encp 1) { twoSymbols with
    params := ⟨1, 64, 255, 0⟩, encOpen := true, encBits := 8, pbuf := [(0, 0xFF)] })).any (fun t =>
    t.statusWord = 0x0C7 ∧ t.err = 0x01000C07 ∧ t.errInfo = 9 ∧ t.encBits = 0) = true := by decide +kernel

/-- P5, step 6. -/
theorem test_ence : (nextOf (exec .ence { packing with encBits := 10 })).any (fun t =>
    t.statusWord = 0x010 ∧ t.encBits = 10) = true := by decide +kernel

/-- V-K16. -/
theorem test_pbwr : (nextOf (exec (.pbwr 0x77) { twoSymbols with
    opa := 1, encDone := true, encBits := 2, pbuf := [(0, 0x40)] })).any (fun t =>
    t.statusWord = 0x007 ∧ t.encBits = 2 ∧ t.pbuf = [(0, 0x40), (1, 0x77)]) = true := by decide +kernel

/-- V-K15. -/
theorem test_pbwr_range : (nextOf (exec (.pbwr 1) { State.reset with params := ⟨4, 64, 255, 0⟩, opa := 4 })).any (fun t =>
    t.statusWord = 0x0C0 ∧ t.err = 0x00010E08 ∧ t.errInfo = 4) = true := by decide +kernel

/-- V-K1. -/
theorem test_pbrd : (nextOf (exec .pbrd { State.reset with pbuf := [(0, 0xD8)] })).any (fun t => t.res = 0xD8) = true := by
  decide +kernel

/-- V-K19. -/
theorem test_pbrd_unwritten : faultOf (exec .pbrd { State.reset with opa := 2 }) = some (.uninitRead .pbuf 2) := by
  decide +kernel

/-- V-D10. -/
theorem test_dec : (nextOf (exec (.dec 0) { oneSymbol with pbuf := [(0, 0)] })).any (fun t =>
    t.statusWord = 0x025 ∧ t.outLen = 3 ∧ t.decPos = 3 ∧ t.obuf = [(0, 0x41), (1, 0x41), (2, 0x41)]) = true := by
  decide +kernel

/-- V-D3: the budget ends inside a code, here at node 3 of the tree of "ABC", written out. -/
theorem test_dec_inside : (nextOf (exec (.dec 1) { twoSymbols with
    opa := 1, root := 4, nnode := 5, pbuf := [(0, 0xB0)]
    node := (twoSymbols.node.set 3 ⟨false, 0, 2, 0, 1⟩).set 4 ⟨false, 0, 3, 2, 3⟩ })).any (fun t =>
    t.statusWord = 0x0C7 ∧ t.err = 0x01001006 ∧ t.errInfo = 1 ∧ t.decBudget = 1 ∧ t.decPos = 1 ∧ t.outLen = 0) = true := by
  decide +kernel

/-- V-D2. -/
theorem test_ord : (nextOf (exec .ord { twoSymbols with
    opa := 2, outLen := 3, obuf := [(0, 0x41), (1, 0x42), (2, 0x43)] })).any (fun t => t.res = 0x43) = true := by
  decide +kernel

/-- V-D2. -/
theorem test_ord_range : (nextOf (exec .ord { twoSymbols with opa := 3, outLen := 3, decDone := true })).any (fun t =>
    t.statusWord = 0x0E7 ∧ t.err = 0x00001108 ∧ t.errInfo = 3) = true := by decide +kernel

/-- V-E4: an illegal word over a report; the CLEAR does not run. -/
theorem test_illegal_word : (nextOf (runCommand 0x00004101 reported)).any (fun t =>
    t.statusWord = 0x1C0 ∧ t.err = 0x00410101 ∧ t.errInfo = 0x00004101) = true := by decide +kernel

/-- R25: the word is in CMD, and it was run (V-B1). -/
theorem test_fetch : (nextOf (step (State.reset.withFetchWord 32 0x00000006))).any (fun t =>
    t.cmd = 6 ∧ t.statusWord = 0x003 ∧ t.pending = []) = true := by decide +kernel

/-- R27. -/
theorem test_read_id : (nextOf (step { State.reset with pending := [.access ⟨0, 4, .read⟩] })).any (fun t =>
    t.reads = [0x48434301]) = true := by decide +kernel

/-! ### Witnesses: for each statement with hypotheses, a state and operands that meet them -/

/-- The state with one host input waiting. -/
def waiting (i : HostInput) : State := { State.reset with pending := [i] }

/-- `DecodeInvertsEncode` has no hypothesis; EveryWordDecodesOnce: a word in the row of RDNODE. -/
theorem test_witness_rows :
    (0x00030007#32 &&& (opcodeRow (.rdnode 0)).mask) = (opcodeRow (.rdnode 0)).pattern ∧
      (0x00030007#32 &&& (opcodeRow (.rdnode 2)).mask) = (opcodeRow (.rdnode 2)).pattern ∧
      (Instr.encp 32).wellFormed = true := by decide

/-- IllegalWordsAreReported, and the illegal words of every command's own statement: a word for each check, at the
boundary of its range, and a legal neighbour. -/
theorem test_witness_illegal_words :
    (0x01000000#32).extractLsb' 24 8 ≠ 0 ∧ 0x11 < ((0x00000012#32).extractLsb' 0 8).toNat ∧
      (0x00000101#32).extractLsb' 8 8 ≠ 0 ∧ (0x00010003#32).extractLsb' 16 8 ≠ 0 ∧
      2 < ((0x00030007#32).extractLsb' 16 8).toNat ∧ 7 < ((0x00080009#32).extractLsb' 16 8).toNat ∧
      ((0x0000000C#32).extractLsb' 16 8).toNat = 0 ∧ 32 < ((0x0021000C#32).extractLsb' 16 8).toNat ∧
      1 < ((0x00020010#32).extractLsb' 16 8).toNat ∧ decode 0x00020007 = .ok (.rdnode 2) ∧
      decode 0x00070009 = .ok (.rdcode 0 7) ∧ decode 0x0001000C = .ok (.encp 1) ∧
      decode 0x0020000C = .ok (.encp 32) ∧ decode 0x00010010 = .ok (.dec 1) := by decide

/-- For each opcode a word that its own statement calls illegal. -/
theorem test_witness_illegal_opcodes :
    ([0x0100, 0x0101, 0x0102, 0x10003, 0x10004, 0x10005, 0x0106, 0x30007, 0x10008, 0x80009, 0x010A, 0x1000B, 0x000C,
        0x010D, 0x1000E, 0x010F, 0x20010, 0x0111] : List Word).map (fun w => (fieldOpc w).toNat) = List.range 18 ∧
      ([0x0100, 0x0101, 0x0102, 0x10003, 0x10004, 0x10005, 0x0106, 0x30007, 0x10008, 0x80009, 0x010A, 0x1000B, 0x000C,
        0x010D, 0x1000E, 0x010F, 0x20010, 0x0111] : List Word).all
          (fun w => match decode w with | .ok _ => false | .error _ => true) = true := by decide

/-- StepRunsTheDecodedCommand, HostWritesToOpaAndCmd. -/
theorem test_witness_step :
    (waiting (.access ⟨0x010, 4, .write 0x00004103⟩)).pending = [.access ⟨0x010, 4, .write 0x00004103⟩] ∧
      decode 0x00004103 = .ok (.setf 0x41) ∧
      (waiting (.access ⟨0x014, 4, .write 7⟩)).pending = [.access ⟨0x014, 4, .write 7⟩] :=
  ⟨rfl, by decide, rfl⟩

/-- HostReadAnswersWithTheRegister: the first and the last register of the map. -/
theorem test_witness_read :
    (∃ t, step (waiting (.access ⟨0x000, 4, .read⟩)) = .next t ∧ decide (t.reads = [0x48434301]) = true) ∧
      ∃ t, step { waiting (.access ⟨0x04C, 4, .read⟩) with outLen := 5 } = .next t ∧ decide (t.reads = [5]) = true :=
  ⟨of_nextOf _ (by decide +kernel), of_nextOf _ (by decide +kernel)⟩

/-- ReservedOffsetsAndReadOnlyWrites: the first and the last reserved offset, and a write to ID. -/
theorem test_witness_reserved :
    (∃ t, step (waiting (.access ⟨0x050, 4, .read⟩)) = .next t ∧ decide (t.reads = [0]) = true) ∧
      (∃ t, step (waiting (.access ⟨0xFFC, 4, .read⟩)) = .next t ∧ decide (t.reads = [0]) = true) ∧
      ∃ t, step (waiting (.access ⟨0x000, 4, .write 9⟩)) = .next t ∧ decide (t.reads = [] ∧ t.cmd = 0 ∧ t.opa = 0) = true :=
  ⟨of_nextOf _ (by decide +kernel), of_nextOf _ (by decide +kernel), of_nextOf _ (by decide +kernel)⟩

/-- AccessesOutsideTheInterface: a 16-bit access, a misaligned one at the window's end, and one just past it. -/
theorem test_witness_outside :
    refusalOf (step (waiting (.access ⟨0x000, 2, .read⟩))) = some (.hostAccess ⟨0x000, 2, .read⟩) ∧
      refusalOf (step (waiting (.access ⟨0xFFE, 4, .read⟩))) = some (.hostAccess ⟨0xFFE, 4, .read⟩) ∧
      ∃ t, step (waiting (.access ⟨0x1000, 4, .read⟩)) = .next t ∧ decide (t.reads = []) = true :=
  ⟨by decide +kernel, by decide +kernel, of_nextOf _ (by decide +kernel)⟩

/-- IdleHoldsAndResetRestores. -/
theorem test_witness_idle : twoSymbols.pending = [] ∧ (waiting .hardReset).pending = [.hardReset] := ⟨rfl, rfl⟩

/-- EveryCommandReportsItsOutcome, EngineKeepsHostRegisters, ErrorsDoNotBlockCommands: a command that succeeds and one
that fails. -/
theorem test_witness_outcomes :
    (∃ t, exec (.cnt 0x41) State.reset = .next t ∧ decide (t.lastFail = false) = true) ∧
      ∃ t, exec (.cnt 0x41) twoSymbols = .next t ∧ decide (t.lastFail = true) = true :=
  ⟨of_nextOf _ (by decide +kernel), of_nextOf _ (by decide +kernel)⟩

/-- PreconditionsAreEnforced, and the phase clauses of the commands' own statements: the flags of four states. -/
theorem test_witness_phases :
    (twoSymbols.built = true ∧ twoSymbols.encOpen = false) ∧ (packing.built = false ∧ packing.encOpen = true) ∧
      (State.reset.built = false ∧ State.reset.encOpen = false) ∧
      ∃ t, exec .ord State.reset = .next t ∧ decide (t.lastFail = true) = true :=
  ⟨⟨rfl, rfl⟩, ⟨rfl, rfl⟩, ⟨rfl, rfl⟩, of_nextOf _ (by decide +kernel)⟩

/-- ReadCommandsWriteOnlyRes: a read command that changes RES. -/
theorem test_witness_res : ∃ t, exec (.rdfreq 0x42) twoSymbols = .next t ∧ decide (t.res ≠ twoSymbols.res) = true :=
  of_nextOf _ (by decide +kernel)

/-- OnlyClearUnfreezesTheTree. -/
theorem test_witness_frozen : twoSymbols.built = true ∧ ∃ t, exec .encb twoSymbols = .next t ∧ decide (t.encOpen = true) = true :=
  ⟨rfl, of_nextOf _ (by decide +kernel)⟩

/-- FailureLeavesOnlyItsAbortEffect: a failure with each code from 1 to 8, and 7 in both of its forms. -/
theorem test_witness_failures :
    ([exec (.rdnode 3) twoSymbols, exec .build twoSymbols, exec (.cnt 1) (withFreq [(1, 0xFFFFFFFF)] State.reset),
        exec .build { loaded with params := ⟨64, 64, 1, 0⟩ },
        exec (.encs 0) { twoSymbols with encOpen := true }, exec (.dec 1) { noSymbol with opa := 1 },
        exec (.encp 1) { packing with params := ⟨0, 64, 255, 0⟩ }, exec (.dec 1) { noSymbol with opa := 513 },
        exec .ord State.reset].map fun o => ((nextOf o).map fun t => (t.lastFail, (t.err.extractLsb' 0 8).toNat))) =
      [1, 2, 3, 4, 5, 6, 7, 7, 8].map fun n => some (true, n) := by decide +kernel

/-- The byte-space invariants of a state in a session. -/
theorem packing_buffers : BuffersInvariant packing where
  pbuf_wf := rfl
  obuf_wf := rfl
  pbuf_below := by decide
  obuf_below := rfl
  stream := by
    intro a h
    have h3 : packing.encBits.toNat = 3 := rfl
    have : a = 0 := by omega
    subst this
    rfl
  output := by
    intro a h
    have h0 : packing.outLen.toNat = 0 := rfl
    omega

/-- OnlyUnwrittenPbufBytesFault: PBRD and DEC fault in states with the invariant. -/
theorem test_witness_faults :
    (BuffersInvariant { packing with opa := 1 } ∧ exec .pbrd { packing with opa := 1 } = .fault (.uninitRead .pbuf 1)) ∧
      BuffersInvariant { twoSymbols with opa := 9 } ∧
      exec (.dec 1) { twoSymbols with opa := 9 } = .fault (.uninitRead .pbuf 0) :=
  ⟨⟨⟨packing_buffers.1, packing_buffers.2, packing_buffers.3, packing_buffers.4, packing_buffers.5, packing_buffers.6⟩,
      of_faultOf (by decide +kernel)⟩,
    ⟨rfl, rfl, rfl, rfl, fun a h => absurd h (Nat.not_lt_zero _), fun a h => absurd h (Nat.not_lt_zero _)⟩,
    of_faultOf (by decide +kernel)⟩

/-- The invariants of R45 in a built state. -/
theorem twoSymbols_status : StatusInvariant twoSymbols where
  unbuilt_iff := by constructor <;> (intro h; cases h)
  unbuilt := by intro h; cases h
  empty := by intro h; cases h
  degenerate := by intro h; cases h
  general := by intro _; decide +kernel
  count := by intro _; decide +kernel
  session := by intro h; cases h
  stream := Nat.zero_le _
  undecoded := fun _ => rfl
  output := Nat.zero_le _
  lost := by intro h; cases h
  report := fun _ => ⟨rfl, rfl⟩

/-- A step from a state with the given command waiting. -/
def issuing (i : Instr) (s : State) : State := { s with pending := [cmdWrite s.params (encode i)] }

/-- StepKeepsTheStatusInvariant. -/
theorem test_witness_status : StatusInvariant (issuing .encb twoSymbols) ∧
    ∃ t, step (issuing .encb twoSymbols) = .next t ∧ decide (t.encOpen = true) = true :=
  ⟨⟨twoSymbols_status.1, twoSymbols_status.2, twoSymbols_status.3, twoSymbols_status.4, twoSymbols_status.5,
      twoSymbols_status.6, twoSymbols_status.7, twoSymbols_status.8, twoSymbols_status.9, twoSymbols_status.10,
      twoSymbols_status.11, twoSymbols_status.12⟩, of_nextOf _ (by decide +kernel)⟩

/-- StepKeepsTheBuffersInvariant: a step that packs bits. -/
theorem test_witness_buffers : BuffersInvariant (issuing (.encp 7) packing) ∧
    ∃ t, step (issuing (.encp 7) packing) = .next t ∧ decide (t.encBits = 10) = true :=
  ⟨⟨packing_buffers.1, packing_buffers.2, packing_buffers.3, packing_buffers.4, packing_buffers.5, packing_buffers.6⟩,
    of_nextOf _ (by decide +kernel)⟩

/-- StepKeepsThePaddingZero: the five bits of padding are there and zero. -/
theorem test_witness_padding : packing.params.valid ∧ PaddingInvariant (issuing (.encp 7) packing) ∧
    ∃ t, step (issuing (.encp 7) packing) = .next t ∧ decide (t.encBits = 10) = true := by
  refine ⟨by decide, ?_, of_nextOf _ (by decide +kernel)⟩
  intro _ p h1 h2
  have h3 : 3 ≤ p := h1
  have h4 : p < 8 := h2
  interval_cases p <;> rfl

theorem twoSymbols_entry (sym : Byte) :
    entry twoSymbols.ct sym = (if sym = 0x42#8 then ⟨1, 1⟩ else if sym = 0x41#8 then ⟨1, 0⟩ else ⟨0, 0⟩) ∧
      entry twoSymbols.freq sym = (if sym = 0x42#8 then 1 else if sym = 0x41#8 then 1 else 0) := by
  have hc : twoSymbols.ct = setEntry (setEntry (Vector.replicate 256 ⟨0, 0⟩) 0x41#8 ⟨1, 0⟩) 0x42#8 ⟨1, 1⟩ := rfl
  have hf : twoSymbols.freq = setEntry (setEntry (Vector.replicate 256 0) 0x41#8 1) 0x42#8 1 := rfl
  rw [hc, hf]
  by_cases hb : sym = 0x42#8
  · simp [hb]
  · by_cases ha : sym = 0x41#8
    · rw [entry_setEntry_other _ _ hb, entry_setEntry_other _ _ hb]
      simp [ha]
    · rw [entry_setEntry_other _ _ hb, entry_setEntry_other _ _ hb, entry_setEntry_other _ _ ha,
        entry_setEntry_other _ _ ha]
      simp [ha, hb]

theorem twoSymbols_node : nodeAt twoSymbols.node 0 = ⟨true, 0x41#8, 1, 0#9, 0#9⟩ ∧
    nodeAt twoSymbols.node 1 = ⟨true, 0x42#8, 1, 0#9, 0#9⟩ ∧
    nodeAt twoSymbols.node 2 = ⟨false, 0#8, 2, 0#9, 1#9⟩ := by decide +kernel

/-- Tree and table agree in the state after BUILDFROM "AB". -/
theorem twoSymbols_table : TableInvariant twoSymbols where
  present := by
    intro _ sym
    obtain ⟨h1, h2⟩ := twoSymbols_entry sym
    rw [State.hasCode, h1, h2]
    by_cases hb : sym = 0x42#8
    · simp [hb]
    · by_cases ha : sym = 0x41#8
      · simp [ha]
      · simp [hb, ha]
  paths := by
    intro _ _ sym bits
    obtain ⟨h1, -⟩ := twoSymbols_entry sym
    obtain ⟨n0, n1, n2⟩ := twoSymbols_node
    rw [State.hasCode, State.codeOf, h1, show twoSymbols.root = 2#9 from rfl]
    constructor
    · rintro ⟨hin, hleaf, hsym⟩
      match bits with
      | [] => simp [follow, n2] at hleaf
      | [true] =>
        simp [follow, childOf, n1, n2] at hsym
        simp [← hsym, codeBits]
      | [false] =>
        simp [follow, childOf, n0, n2] at hsym
        simp [← hsym, codeBits]
      | b :: c :: bits =>
        have := hin 1 (by simp)
        cases b <;> simp [follow, childOf, n0, n1, n2] at this
    · rintro ⟨hc, rfl⟩
      by_cases hb : sym = 0x42#8
      · subst hb
        simp [LeadsTo, codeBits, follow, childOf, n1, n2]
      · by_cases ha : sym = 0x41#8
        · subst ha
          simp [LeadsTo, codeBits, follow, childOf, n0, n2]
        · simp [hb, ha] at hc
  descends := by
    intro _ _
    obtain ⟨n0, n1, n2⟩ := twoSymbols_node
    refine ⟨by decide, ?_⟩
    intro n hn
    have h3 : n < 3 := hn
    interval_cases n <;> simp [n0, n1, n2]
  single := by intro _ h; cases h

/-- StepKeepsTreeAndTableInAgreement: a state with a tree, and the step that builds one. -/
theorem test_witness_agreement : StatusInvariant twoSymbols ∧ TableInvariant twoSymbols ∧
    (∃ t, step twoSymbols = .next t ∧ decide (t.built = true) = true) ∧
    ∃ t, step (issuing .build loaded) = .next t ∧ decide (t.built = true ∧ t.kind = .general) = true :=
  ⟨twoSymbols_status, twoSymbols_table, of_nextOf _ (by decide +kernel), of_nextOf _ (by decide +kernel)⟩

/-- CntCountsOneOccurrence: both clauses at the boundary. -/
theorem test_witness_cnt : (entry (withFreq [(1, 0xFFFFFFFF)] State.reset).freq 1).toNat = 2 ^ 32 - 1 ∧
    (entry (withFreq [(1, 0xFFFFFFFE)] State.reset).freq 1).toNat ≠ 2 ^ 32 - 1 ∧ State.reset.built = false := by
  decide +kernel

/-- BuildOfNoneOrOneSymbol, BuildOfManySymbolsSucceeds. -/
theorem test_witness_builds : (∀ sym, entry State.reset.freq sym = 0) ∧
    (entry (withFreq [(0x41, 3)] State.reset).freq 0x41 ≠ 0 ∧
      ∀ sym, sym ≠ 0x41 → entry (withFreq [(0x41, 3)] State.reset).freq sym = 0) ∧
    symbolCount (withFreq [(0, 1), (255, 1)] State.reset).freq = 2 ∧ State.reset.params.maxCodeLen = 255 := by
  decide +kernel

/-- BuiltTreeShape, HeapAndSortedListBuildTheSameTree, CodesAreRootToLeafPaths, ExactlyPresentSymbolsHaveCodes,
KraftSums, TotalBitsIsTheExactSum, CodesArePrefixFree: a GENERAL build, with the codes of C and A. TooLongCodesFailTheBuild:
at MAX_CODE_LEN 1 the code of A is the least that is too long; at 2 none is. -/
theorem test_witness_general : (∃ t, exec .build loaded = .next t ∧ decide (t.lastFail = false ∧ t.kind = .general ∧
    (entry t.ct 0x43).len ≠ 0 ∧ (entry t.ct 0x41).len ≠ 0 ∧
    (entry t.ct 0x43).len.toNat ≤ (entry t.ct 0x41).len.toNat ∧ 1 < (entry t.ct 0x41).len.toNat ∧
    (∀ x : Byte, x.toNat < 0x41 → (entry t.ct x).len.toNat ≤ 1) ∧ ∀ x, (entry t.ct x).len.toNat ≤ 2) = true) ∧
    2 ≤ symbolCount loaded.freq := ⟨of_nextOf _ (by decide +kernel), by decide +kernel⟩

/-- KraftSums: a DEGENERATE build. -/
theorem test_witness_degenerate : ∃ t, exec .build (withFreq [(0x41, 3)] State.reset) = .next t ∧
    decide (t.lastFail = false ∧ t.kind = .degenerate) = true := of_nextOf _ (by decide +kernel)

/-- BuildDependsOnlyOnFrequencies: two states that differ in NODE, HEAP and an error report. -/
theorem test_witness_two_builds :
    ∃ t t', exec .build loaded = .next t ∧ exec .build { loaded with
        node := Vector.replicate 511 ⟨true, 7, 9, 3, 4⟩, heap := Vector.replicate 256 77, errValid := true } = .next t' ∧
      decide (t.lastFail = false ∧ t'.lastFail = false) = true := by
  obtain ⟨t, h, p⟩ := of_nextOf (o := exec .build loaded) (fun t => t.lastFail = false) (by decide +kernel)
  obtain ⟨t', h', p'⟩ := of_nextOf (o := exec .build { loaded with
    node := Vector.replicate 511 ⟨true, 7, 9, 3, 4⟩, heap := Vector.replicate 256 77, errValid := true })
    (fun t => t.lastFail = false) (by decide +kernel)
  exact ⟨t, t', h, h', by simp_all⟩

/-- A builder with the leaves 0 (frequency 1) and 1 (frequency 2) in order. -/
def smallHeap : Builder :=
  ⟨(State.reset.node.set 0 ⟨true, 0, 1, 0, 0⟩).set 1 ⟨true, 1, 2, 0, 0⟩, State.reset.heap.set 1 1, 2, 2⟩

/-- HeapIsAPriorityQueue: an ordered heap with room and with an entry. -/
theorem test_witness_heap : smallHeap.ordered ∧ smallHeap.hsize < 256 ∧ 0 < smallHeap.hsize := by
  refine ⟨?_, by decide, by decide⟩
  intro i h0 h2
  have h2 : i < 2 := h2
  interval_cases i
  decide +kernel

/-- RdnodeReadsOneNodeField: the ids on both sides of NNODE. -/
theorem test_witness_rdnode : twoSymbols.built = true ∧
    ({ twoSymbols with opa := 2 } : State).opa.toNat < twoSymbols.nnode.toNat ∧
    twoSymbols.nnode.toNat ≤ ({ twoSymbols with opa := 3 } : State).opa.toNat := by decide +kernel

/-- EncsEncodesOneSymbol: the last bit of PBUF is packed, one bit more is not, and a symbol without a code. -/
theorem test_witness_encs :
    (entry twoSymbols.ct 0x41).len.toNat ≠ 0 ∧
      (511#32).toNat + (entry twoSymbols.ct 0x41).len.toNat ≤ 8 * twoSymbols.params.pbufBytes ∧
      8 * twoSymbols.params.pbufBytes < (512#32).toNat + (entry twoSymbols.ct 0x41).len.toNat ∧
      (entry twoSymbols.ct 0x5A).len.toNat = 0 ∧ Memory.written [(63, 0)] (511 / 8) = true := by decide +kernel

/-- EncpPacksRawBits: the same for 32 bits. -/
theorem test_witness_encp : packing.encOpen = true ∧
    (480#32).toNat + (32#8).toNat ≤ 8 * packing.params.pbufBytes ∧
    8 * packing.params.pbufBytes < (481#32).toNat + (32#8).toNat ∧ (480#32).toNat % 8 = 0 := by decide

/-- PbwrStoresOneByte, PbrdReadsOneByte: the last byte and the first address past it; a written and an unwritten byte. -/
theorem test_witness_pbuf : (63#32).toNat < State.reset.params.pbufBytes ∧
    State.reset.params.pbufBytes ≤ (64#32).toNat ∧ packing.pbuf.read? (0#32).toNat = some 0xA0 ∧
    packing.pbuf.written (1#32).toNat = false := by decide

/-- DecRunsTheWalk: budgets on both sides of PBUF's size. -/
theorem test_witness_dec_budget : twoSymbols.built = true ∧ twoSymbols.encOpen = false ∧
    decodeBudget 1 { twoSymbols with opa := 512 } ≤ 8 * twoSymbols.params.pbufBytes ∧
    8 * twoSymbols.params.pbufBytes < decodeBudget 1 { twoSymbols with opa := 513 } := by decide +kernel

/-- DecOfNothingAndOfAnEmptyTree: budgets 0 and 1. -/
theorem test_witness_dec_empty : noSymbol.built = true ∧ noSymbol.encOpen = false ∧ noSymbol.kind = .empty ∧
    decodeBudget 0 noSymbol = 0 ∧ decodeBudget 1 { noSymbol with opa := 1 } = 1 := by decide +kernel

/-- DecOfADegenerateTree: three bits 0; then a bit 1 after two bits 0; then more symbols than OBUF holds. -/
theorem test_witness_dec_degenerate : oneSymbol.built = true ∧ oneSymbol.encOpen = false ∧
    oneSymbol.kind = .degenerate ∧ decodeBudget 0 oneSymbol = 3 ∧
    (List.range 3).map (bitRead [(0, 0x00)]) = [.ok false, .ok false, .ok false] ∧
    (List.range 3).map (bitRead [(0, 0x20)]) = [.ok false, .ok false, .ok true] ∧
    ({ oneSymbol with params := ⟨64, 2, 255, 0⟩ } : State).params.obufBytes < decodeBudget 0 oneSymbol := by
  decide +kernel

theorem twoSymbols_codes : twoSymbols.codeOf 0x41#8 = [false] ∧ twoSymbols.codeOf 0x42#8 = [true] ∧
    twoSymbols.hasCode 0x41#8 ∧ twoSymbols.hasCode 0x42#8 := by
  simp [State.codeOf, State.hasCode, (twoSymbols_entry _).1, codeBits]

/-- DecInvertsConcatenatedCodes, DecFailsExactlyInsideACode, EncodePacksTheConcatenatedCodes: the stream 01 of "AB". -/
theorem test_witness_dec_codes : TableInvariant { twoSymbols with pbuf := [(0, 0x40)] } ∧
    (∀ x ∈ [0x41#8, 0x42#8], twoSymbols.hasCode x) ∧ [0x41#8, 0x42#8].flatMap twoSymbols.codeOf = [false, true] ∧
    decodeBudget 0 twoSymbols = 2 ∧ (∀ p (h : p < [false, true].length), bitRead [(0, 0x40)] p = .ok [false, true][p]) ∧
    twoSymbols.params.valid ∧ twoSymbols.errValid = false ∧
    ∃ t, exec (.dec 0) { twoSymbols with pbuf := [(0, 0x40)] } = .next t ∧ decide (t.lastFail = false) = true := by
  obtain ⟨ca, cb, ha, hb⟩ := twoSymbols_codes
  refine ⟨⟨twoSymbols_table.1, twoSymbols_table.2, twoSymbols_table.3, twoSymbols_table.4⟩, ?_, ?_, by decide +kernel, ?_,
    by decide, rfl, of_nextOf _ (by decide +kernel)⟩
  · simp [ha, hb]
  · simp [ca, cb]
  · decide

/-- DecReadsOnlyBitsBelowTheBudget: contents that differ only past the budget. -/
theorem test_witness_dec_below : ∀ p, p < decodeBudget 0 twoSymbols →
    bitRead [(0, 0x7F)] p = bitRead ({ twoSymbols with pbuf := [(0, 0x40)] } : State).pbuf p := by
  have : decodeBudget 0 twoSymbols = 2 := by decide +kernel
  rw [this]
  decide

/-- DecWritesObufOnlyOnSuccess: a DEC that fails after its precondition checks. -/
theorem test_witness_dec_fails : twoSymbols.built = true ∧ twoSymbols.encOpen = false ∧
    ∃ t, exec (.dec 1) { twoSymbols with opa := 513, outLen := 4 } = .next t ∧ decide (t.lastFail = true) = true :=
  ⟨rfl, rfl, of_nextOf _ (by decide +kernel)⟩

/-- OrdReadsOneDecodedByte: the indices on both sides of OUT_LEN. -/
theorem test_witness_ord : (2#32).toNat < (3#32).toNat ∧ (3#32).toNat ≤ (3#32).toNat ∧
    Memory.read? [(0, 0x41), (1, 0x42), (2, 0x43)] (2#32).toNat = some 0x43 := by decide

/-- RoundTripGivesTheInputBack: "AB" fits, and its two bits fit PBUF. -/
theorem test_witness_round_trip : State.reset.params.valid ∧ State.reset.params.maxCodeLen = 255 ∧
    ([0x41, 0x42] : List Byte).length ≤ State.reset.params.obufBytes ∧
    twoSymbols.totalBits.toNat ≤ 8 * State.reset.params.pbufBytes := by decide +kernel

end Sys2Proof.Tests
end

section
/-! PROOFS. The statements of the family 10_state: what every command keeps, the outcome it reports, the values and
invariants at reset, and the two invariants that every step keeps. -/

namespace Sys2Proof.Machine

open Sys2Proof

/-! ### The host window -/

theorem touchesWindow_offset (p : Params) {offset : Nat} (k : AccessKind) (h : offset < 4096) :
    touchesWindow p ⟨p.hccBase + offset, 4, k⟩ = true := by
  simp only [touchesWindow, Bool.and_eq_true, decide_eq_true_eq]
  omega

theorem admitted_offset (p : Params) {offset : Nat} (k : AccessKind) (h : offset % 4 = 0) :
    admitted p ⟨p.hccBase + offset, 4, k⟩ = true := by
  simp [admitted, h]

/-- A 32-bit write at a word-aligned offset of the window is a register write (R51). -/
theorem hostAccess_write (s : State) {offset : Nat} (v : Word) (hw : offset < 4096) (ha : offset % 4 = 0) :
    hostAccess ⟨s.params.hccBase + offset, 4, .write v⟩ s = writeReg offset v s := by
  simp [hostAccess, touchesWindow_offset _ _ hw, admitted_offset _ _ ha]

theorem step_of_access {s : State} {a : HostAccess} {rest : List HostInput} (h : s.pending = .access a :: rest) :
    step s = hostAccess a { s with pending := rest } := by
  rw [step, h]
  rfl

theorem runCommand_of_decode {w : Word} {i : Instr} (h : decode w = .ok i) (s : State) :
    runCommand w s = exec i s := by
  rw [runCommand, h]

/-- Settles O5: the access is a write to CMD's offset, and the word decodes. -/
theorem stepRunsTheDecodedCommand : Obligations.StepRunsTheDecodedCommand := by
  unfold Obligations.StepRunsTheDecodedCommand
  intro s rest w i hp hd
  calc step s
      = writeReg 0x010 w { s with pending := rest } := by
        rw [step_of_access hp]
        exact hostAccess_write { s with pending := rest } w (by decide) (by decide)
    _ = exec i { s with pending := rest, cmd := w } := runCommand_of_decode hd _

/-! ### Reset -/

/-- STATUS does not depend on the parameters. -/
@[simp] theorem statusWord_resetWith (p : Params) : (State.resetWith p).statusWord = 0 := by
  show State.statusWord (State.resetWith ⟨0, 0, 0, 0⟩) = 0
  decide

@[simp] theorem entry_freq_resetWith (p : Params) (sym : Byte) : entry (State.resetWith p).freq sym = 0 :=
  entry_replicate 0 sym

@[simp] theorem entry_ct_resetWith (p : Params) (sym : Byte) :
    entry (State.resetWith p).ct sym = CodeEntry.absent :=
  entry_replicate CodeEntry.absent sym

/-- CAP2 with its zero byte joined to TB_W (R28). -/
theorem cap2Word_eq (p : Params) : cap2Word p = 48#16 ++ 32#8 ++ BitVec.ofNat 8 p.maxCodeLen := rfl

/-- Settles O11: every value is a field of `State.resetWith`. -/
theorem resetValues : Obligations.ResetValues := by
  unfold Obligations.ResetValues
  intro p
  exact ⟨rfl, rfl, rfl, statusWord_resetWith p, rfl, rfl, rfl, rfl, rfl, rfl, rfl, rfl, rfl, rfl,
    entry_freq_resetWith p, entry_ct_resetWith p, fun _ => ⟨rfl, rfl⟩, rfl, rfl, rfl, cap2Word_eq p⟩

theorem statusInvariant_resetWith (p : Params) : StatusInvariant (State.resetWith p) where
  unbuilt_iff := ⟨fun _ => rfl, fun _ => rfl⟩
  unbuilt _ := ⟨rfl, rfl, rfl, rfl, entry_ct_resetWith p⟩
  empty := nofun
  degenerate := nofun
  general := nofun
  count := nofun
  session := nofun
  stream := Nat.zero_le _
  undecoded _ := rfl
  output := Nat.zero_le _
  lost := nofun
  report _ := ⟨rfl, rfl⟩

theorem buffersInvariant_resetWith (p : Params) : BuffersInvariant (State.resetWith p) where
  pbuf_wf := rfl
  obuf_wf := rfl
  pbuf_below := rfl
  obuf_below := rfl
  stream a h := absurd h (Nat.not_lt_zero (8 * a))
  output a h := absurd h (Nat.not_lt_zero a)

/-- No session is open and none was closed. -/
theorem paddingInvariant_resetWith (p : Params) : PaddingInvariant (State.resetWith p) := by
  rintro (h | h) <;> cases h

theorem tableInvariant_resetWith (p : Params) : TableInvariant (State.resetWith p) where
  present := nofun
  paths := nofun
  descends := nofun
  single := nofun

/-- Settles O21. -/
theorem resetMeetsTheInvariants : Obligations.ResetMeetsTheInvariants := by
  unfold Obligations.ResetMeetsTheInvariants
  exact fun p => ⟨statusInvariant_resetWith p, buffersInvariant_resetWith p, paddingInvariant_resetWith p,
    tableInvariant_resetWith p⟩

/-! ### What every command keeps -/

/-- CMD, OPA, the parameters and the host's own fields are the same in both states (R23). -/
def HostKept (s t : State) : Prop :=
  t.cmd = s.cmd ∧ t.opa = s.opa ∧ t.params = s.params ∧ t.pending = s.pending ∧ t.reads = s.reads

theorem Succeeds.hostKept {i : Instr} {s u : State} (h : Succeeds i s u) : HostKept s u := by
  cases h <;> exact ⟨rfl, rfl, rfl, rfl, rfl⟩

theorem Fails.hostKept {i : Instr} {s u : State} {e : ErrorCode} {info : Word} (h : Fails i s e info u) :
    HostKept s u := by
  cases h <;> exact ⟨rfl, rfl, rfl, rfl, rfl⟩

/-- Settles O15: neither a success nor an abort effect touches these registers, and the frame only reports. -/
theorem engineKeepsHostRegisters : Obligations.EngineKeepsHostRegisters := by
  unfold Obligations.EngineKeepsHostRegisters
  intro i s t h
  rcases exec_next_cases h with ⟨u, -, -, hs, rfl⟩ | ⟨e, info, u, hf, rfl⟩
  · exact hs.hostKept
  · exact hf.hostKept

/-- What BUILD fixes is the same in both states: BUILT, the frequencies, the tree, the table, and what describes
them (R30, R68). -/
def TreeKept (s t : State) : Prop :=
  t.built = s.built ∧ t.freq = s.freq ∧ t.node = s.node ∧ t.ct = s.ct ∧ t.totalBits = s.totalBits ∧
    t.nsym = s.nsym ∧ t.nnode = s.nnode ∧ t.root = s.root ∧ t.kind = s.kind

/-- The commands that change what BUILD fixes are SETF, CNT and BUILD, which are out of phase when BUILT = 1, and
CLEAR. -/
theorem Succeeds.treeKept {i : Instr} {s u : State} (h : Succeeds i s u) (hb : s.built = true)
    (hp : phaseOk s i = true) (hi : i ≠ .clear) : TreeKept s u := by
  cases h
  case clear => exact absurd rfl hi
  case setf | cnt | buildEmpty | buildOne | buildMany => simp [phaseOk, hb] at hp
  all_goals exact ⟨rfl, rfl, rfl, rfl, rfl, rfl, rfl, rfl, rfl⟩

/-- Only a BUILD that fails in its rule leaves new nodes. -/
theorem Fails.treeKept {i : Instr} {s u : State} {e : ErrorCode} {info : Word} (h : Fails i s e info u)
    (hi : i ≠ .build) : TreeKept s u := by
  cases h
  case tooLong => exact absurd rfl hi
  all_goals exact ⟨rfl, rfl, rfl, rfl, rfl, rfl, rfl, rfl, rfl⟩

/-- BUILD in a built session is out of phase (R86). -/
theorem exec_build_of_built {s : State} (hb : s.built = true) :
    exec .build s = fail .build .phaseError s.statusWord s :=
  exec_of_phase rfl (by simp [phaseOk, hb])

theorem exec_treeKept {i : Instr} {s t : State} (h : exec i s = .next t) (hb : s.built = true) (hi : i ≠ .clear) :
    TreeKept s t := by
  by_cases hbuild : i = .build
  · subst hbuild
    rw [exec_build_of_built hb] at h
    cases h
    exact ⟨rfl, rfl, rfl, rfl, rfl, rfl, rfl, rfl, rfl⟩
  · rcases exec_next_cases h with ⟨u, -, hp, hs, rfl⟩ | ⟨e, info, u, hf, rfl⟩
    · exact hs.treeKept hb hp hi
    · exact hf.treeKept hbuild

/-- Settles O17. -/
theorem onlyClearUnfreezesTheTree : Obligations.OnlyClearUnfreezesTheTree := by
  unfold Obligations.OnlyClearUnfreezesTheTree
  intro i s t hb hi h
  obtain ⟨hbuilt, hrest⟩ := exec_treeKept h hb hi
  exact ⟨hbuilt.trans hb, hrest⟩

/-! ### The report -/

/-- The report is the same in both states (R186). -/
def ReportKept (s t : State) : Prop :=
  t.err = s.err ∧ t.errInfo = s.errInfo ∧ t.errValid = s.errValid ∧ t.errLost = s.errLost

theorem Succeeds.reportKept {i : Instr} {s u : State} (h : Succeeds i s u) (hc : i ≠ .clear) (he : i ≠ .errclr) :
    ReportKept s u := by
  cases h
  case clear => exact absurd rfl hc
  case errclr => exact absurd rfl he
  all_goals exact ⟨rfl, rfl, rfl, rfl⟩

/-- No abort effect touches the report. -/
theorem Fails.reportKept {i : Instr} {s u : State} {e : ErrorCode} {info : Word} (h : Fails i s e info u) :
    ReportKept s u := by
  cases h <;> exact ⟨rfl, rfl, rfl, rfl⟩

/-- Code 0 is not an error: no failure has it (R185). -/
theorem Fails.error_ne_none {i : Instr} {s u : State} {e : ErrorCode} {info : Word} (h : Fails i s e info u) :
    e ≠ .none := by
  cases h
  case decWalk hw => rcases (walk_failed hw).1 with rfl | rfl <;> nofun
  all_goals nofun

theorem errorNumber_range {e : ErrorCode} (h : e ≠ .none) :
    1 ≤ (errorNumber e).toNat ∧ (errorNumber e).toNat ≤ 8 := by
  cases e
  case none => exact absurd rfl h
  all_goals decide

/-- ERR's code field (R31). -/
@[simp] theorem extractLsb'_errWord_code (w : Word) (e : ErrorCode) :
    (errWord w e).extractLsb' 0 8 = errorNumber e :=
  BitVec.extractLsb'_append_eq_right

/-- ERR's upper fields are AUX, SYM and OPC of the failing word, the word's low 24 bits (R31). -/
@[simp] theorem extractLsb'_errWord_fields (w : Word) (e : ErrorCode) :
    (errWord w e).extractLsb' 8 24 = w.extractLsb' 0 24 := by
  have hfields : (fieldAux w ++ fieldSym w ++ fieldOpc w : BitVec 24) = w.extractLsb' 0 24 := by
    ext i hi
    simp only [fieldAux, fieldSym, fieldOpc, BitVec.getElem_append, BitVec.getElem_extractLsb']
    grind
  exact BitVec.extractLsb'_append_eq_left.trans hfields

/-- Settles O13: a success has LAST_FAIL = 0 and keeps the report, a failure has LAST_FAIL = 1 and reports itself. -/
theorem everyCommandReportsItsOutcome : Obligations.EveryCommandReportsItsOutcome := by
  unfold Obligations.EveryCommandReportsItsOutcome
  intro i s t h
  rcases exec_next_cases h with ⟨u, -, -, hs, rfl⟩ | ⟨e, info, u, hf, rfl⟩
  · exact ⟨fun _ hc he => hs.reportKept hc he, nofun⟩
  · obtain ⟨-, -, hvalid, hlost⟩ := hf.reportKept
    refine ⟨nofun, fun _ => ⟨rfl, ?_, ?_, ?_⟩⟩
    · simp [hvalid, hlost]
    · simp
    · simpa using errorNumber_range hf.error_ne_none

/-! ### Predicates that every step keeps -/

/-- What a predicate on states needs to be kept by every step: it does not depend on the host's registers and
fields, it holds after a hard reset and after a report, and every command's success and abort effect keep it. -/
structure KeptByParts (P : State → Prop) : Prop where
  host : ∀ {s : State} (pending : List HostInput) (reads : List Word) (cmd opa : Word),
    P s → P { s with pending := pending, reads := reads, cmd := cmd, opa := opa }
  reset : ∀ {s : State}, P s → P (State.resetWith s.params)
  ok : ∀ {s : State}, P s → P s.ok
  raise : ∀ {s : State} (w : Word) (e : ErrorCode) (info : Word), P s → P (s.raise w e info)
  succeeds : ∀ {i : Instr} {s u : State}, P s → phaseOk s i = true → Succeeds i s u → P u
  fails : ∀ {i : Instr} {s u : State} {e : ErrorCode} {info : Word}, P s → Fails i s e info u → P u

section
variable {P : State → Prop} (k : KeptByParts P)
include k

theorem KeptByParts.exec {i : Instr} {s t : State} (hs : P s) (h : exec i s = .next t) : P t := by
  rcases exec_next_cases h with ⟨u, -, hp, hu, rfl⟩ | ⟨e, info, u, hu, rfl⟩
  · exact k.ok (k.succeeds hs hp hu)
  · exact k.raise _ e info (k.fails hs hu)

theorem KeptByParts.runCommand {w : Word} {s t : State} (hs : P s) (h : runCommand w s = .next t) : P t := by
  rcases runCommand_cases w s with ⟨i, -, hr⟩ | ⟨e, -, hr⟩ <;> rw [hr] at h
  · exact k.exec hs h
  · cases h
    exact k.raise w _ w hs

/-- The parts are enough. -/
theorem KeptByParts.step {s t : State} (hs : P s) (h : step s = .next t) : P t := by
  rcases step_next_cases h with ⟨-, rfl⟩ | ⟨_, rest, -, ⟨-, rfl⟩ | rfl | ⟨v, rfl⟩ | ⟨v, rfl⟩ | ⟨w, hw⟩⟩
  · exact hs
  · have hreset := k.reset hs
    exact k.host rest s.reads 0 0 hreset
  · exact k.host rest s.reads s.cmd s.opa hs
  · exact k.host rest (s.reads ++ [v]) s.cmd s.opa hs
  · exact k.host rest s.reads s.cmd v hs
  · exact k.runCommand (k.host rest s.reads w s.opa hs) hw

end

/-! ### The buffers' invariant -/

theorem toNat_ofNat_le (w n : Nat) : (BitVec.ofNat w n).toNat ≤ n := by
  rw [BitVec.toNat_ofNat]
  exact Nat.mod_le n _

theorem toNat_ofNat_of_lt {w n : Nat} (h : n < 2 ^ w) : (BitVec.ofNat w n).toNat = n := by
  rw [BitVec.toNat_ofNat]
  exact Nat.mod_eq_of_lt h

/-- After an Append every byte below the new end of the stream is written, if every byte below the old end was. -/
theorem written_below_of_appendBits {bits : List Bool} {m m' : Memory} {p : Nat} (h : appendBits m p bits = .ok m')
    (hw : ∀ a, 8 * a < p → m.written a = true) {a : Nat} (ha : 8 * a < p + bits.length) : m'.written a = true := by
  refine written_appendBits h a ?_
  by_cases hp : 8 * a < p
  · exact .inl (hw a hp)
  · refine .inr ⟨by omega, ha, ?_⟩
    rintro rfl
    exact hp ha

/-- The commit loop leaves each of its bytes written. -/
theorem written_writeAll_zero {m : Memory} {vs : List Byte} {a : Nat} (h : a < vs.length) :
    (m.writeAll 0 vs).written a = true := by
  simp [Memory.written, Memory.read?_writeAll, h]

section
variable {s : State} (h : BuffersInvariant s)
include h

/-- The invariant speaks of the parameters, the buffers, ENC_BITS and OUT_LEN only. -/
theorem BuffersInvariant.congr {t : State} (hparams : t.params = s.params) (hpbuf : t.pbuf = s.pbuf)
    (hobuf : t.obuf = s.obuf) (henc : t.encBits = s.encBits ∨ t.encBits = 0)
    (hout : t.outLen = s.outLen ∨ t.outLen = 0) : BuffersInvariant t where
  pbuf_wf := hpbuf ▸ h.pbuf_wf
  obuf_wf := hobuf ▸ h.obuf_wf
  pbuf_below := by rw [hpbuf, hparams]; exact h.pbuf_below
  obuf_below := by rw [hobuf, hparams]; exact h.obuf_below
  stream a ha := by
    rcases henc with he | he <;> rw [he] at ha
    · rw [hpbuf]; exact h.stream a ha
    · exact absurd ha (Nat.not_lt_zero _)
  output a ha := by
    rcases hout with ho | ho <;> rw [ho] at ha
    · rw [hobuf]; exact h.output a ha
    · exact absurd ha (Nat.not_lt_zero _)

/-- An Append that stays inside PBUF keeps the invariant, whatever its end wraps to. -/
theorem BuffersInvariant.setStream {bits : List Bool} {m : Memory}
    (hc : s.encBits.toNat + bits.length ≤ 8 * s.params.pbufBytes)
    (hm : appendBits s.pbuf s.encBits.toNat bits = .ok m) :
    BuffersInvariant (s.setStream m (s.encBits.toNat + bits.length)) :=
  { h with
    pbuf_wf := wf_appendBits hm h.pbuf_wf
    pbuf_below := below_appendBits hm h.pbuf_below hc
    stream := fun _ ha => written_below_of_appendBits hm h.stream (Nat.lt_of_lt_of_le ha (toNat_ofNat_le 32 _)) }

/-- A PBWR inside PBUF keeps the invariant. -/
theorem BuffersInvariant.write {a : Nat} (v : Byte) (encDone : Bool) (ha : a < s.params.pbufBytes) :
    BuffersInvariant { s with pbuf := s.pbuf.write a v, encDone := encDone } :=
  { h with
    pbuf_wf := Memory.wf_write _ _ _ h.pbuf_wf
    pbuf_below := Memory.below_write _ _ _ _ h.pbuf_below ha
    stream := fun x hx => by simp [Memory.written_write, h.stream x hx] }

/-- The commit of an output that OBUF holds keeps the invariant. -/
theorem BuffersInvariant.commitDecode (budget : Nat) {out : List Byte} (cur : NodeId)
    (hl : out.length ≤ s.params.obufBytes) : BuffersInvariant (s.commitDecode budget out cur) :=
  { h with
    obuf_wf := Memory.wf_writeAll _ _ _ h.obuf_wf
    obuf_below := Memory.below_writeAll _ _ _ _ h.obuf_below (by simpa using hl)
    output := fun _ ha => written_writeAll_zero (Nat.lt_of_lt_of_le ha (toNat_ofNat_le 32 _)) }

theorem BuffersInvariant.succeeds {i : Instr} {u : State} (hu : Succeeds i s u) : BuffersInvariant u := by
  cases hu
  case encs sym m hl hc hm =>
    simpa using h.setStream (by simpa using hc) hm
  case encp aux m hc hm =>
    simpa using h.setStream (by simpa using hc) hm
  case pbwr data ha => exact h.write data false ha
  case dec aux out cur hb hw => exact h.commitDecode _ cur (walk_decoded hw (Nat.zero_le _)).2.1
  case clear => exact h.congr rfl rfl rfl (.inr rfl) (.inr rfl)
  case encb => exact h.congr rfl rfl rfl (.inr rfl) (.inl rfl)
  all_goals exact h.congr rfl rfl rfl (.inl rfl) (.inl rfl)

/-- An abort effect can only empty the stream or the output. -/
theorem BuffersInvariant.fails {i : Instr} {u : State} {e : ErrorCode} {info : Word} (hu : Fails i s e info u) :
    BuffersInvariant u := by
  cases hu
  case unknown | encsFull | encpFull => exact h.congr rfl rfl rfl (.inr rfl) (.inl rfl)
  case decRange | decWalk => exact h.congr rfl rfl rfl (.inl rfl) (.inr rfl)
  all_goals exact h.congr rfl rfl rfl (.inl rfl) (.inl rfl)

end

theorem buffersInvariant_kept : KeptByParts BuffersInvariant where
  host _ _ _ _ h := h.congr rfl rfl rfl (.inl rfl) (.inl rfl)
  reset _ := buffersInvariant_resetWith _
  ok h := h.congr rfl rfl rfl (.inl rfl) (.inl rfl)
  raise _ _ _ h := h.congr rfl rfl rfl (.inl rfl) (.inl rfl)
  succeeds h _ hu := h.succeeds hu
  fails h hu := h.fails hu

/-- Settles O23: only the packing commands, PBWR and DEC write a buffer, and each writes inside it; a counter that
wraps only shrinks. -/
theorem stepKeepsTheBuffersInvariant : Obligations.StepKeepsTheBuffersInvariant := by
  unfold Obligations.StepKeepsTheBuffersInvariant
  exact fun s t h => buffersInvariant_kept.step h

/-! ### The root of the tree that BUILD builds -/

theorem mergeLoop_of_le_one {b : Builder} (h : b.hsize ≤ 1) (fuel : Nat) : mergeLoop fuel b = b := by
  cases fuel with
  | zero => rfl
  | succ fuel => simp [mergeLoop, h]

theorem mergeLoop_succ_of_two_le {b : Builder} (h : 2 ≤ b.hsize) (fuel : Nat) :
    mergeLoop (fuel + 1) b = mergeLoop fuel b.merge := by
  simp [mergeLoop, show ¬b.hsize ≤ 1 by omega]

/-- An id inserted into the empty queue is its top. -/
theorem Builder.top_addNode_of_empty {b : Builder} (h : b.hsize = 0) (e : Node) :
    (b.addNode e).top = BitVec.ofNat 9 b.next := by
  simp [Builder.top, Builder.addNode, Builder.insert, Builder.setNode, siftUp, h, heapAt_setIfInBounds]

/-- Merging the last two entries of the queue leaves the new node on its top. -/
theorem Builder.top_merge_of_two {b : Builder} (h : b.hsize = 2) : b.merge.top = BitVec.ofNat 9 b.next :=
  Builder.top_addNode_of_empty (b := b.pop.pop) (by simp [h]) _

/-- The merge loop ends with the last node created on the top of the queue (R116). -/
theorem top_mergeLoop (fuel : Nat) (b : Builder) (h1 : 2 ≤ b.hsize) (h2 : b.hsize ≤ fuel + 1) :
    (mergeLoop fuel b).top = BitVec.ofNat 9 (b.next + b.hsize - 2) := by
  induction fuel generalizing b with
  | zero => omega
  | succ fuel ih =>
    rw [mergeLoop_succ_of_two_le h1]
    by_cases h : b.hsize = 2
    · rw [mergeLoop_of_le_one (by simp [h]), Builder.top_merge_of_two h, h]
      rfl
    · rw [ih b.merge (by simp; omega) (by simp; omega), Builder.merge_next, Builder.merge_hsize]
      congr 1
      omega

theorem symbolCount_le (freq : Vector Word 256) : symbolCount freq ≤ 256 := by
  simpa [symbolCount] using List.countP_le_length (p := fun f : Word => f != 0) (l := freq.toList)

/-- ROOT is the last of the 2k − 1 node ids (R116). -/
theorem top_buildTree {s : State} (h : 2 ≤ symbolCount s.freq) :
    (buildTree s).top = BitVec.ofNat 9 (2 * symbolCount s.freq - 2) := by
  have hle := symbolCount_le s.freq
  obtain ⟨hnext, hsize⟩ := loadLeaves_counts s.freq.toList 0 ⟨s.node, s.heap, 0, 0⟩
  rw [← symbolCount, Nat.zero_add] at hnext hsize
  rw [buildTree, top_mergeLoop 256 _ (by omega) (by omega), hnext, hsize, ← Nat.two_mul]

/-! ### The invariants of R45 -/

section
variable {s : State} (h : StatusInvariant s)
include h

theorem StatusInvariant.host (pending : List HostInput) (reads : List Word) (cmd opa : Word) :
    StatusInvariant { s with pending := pending, reads := reads, cmd := cmd, opa := opa } :=
  { h with }

theorem StatusInvariant.ok : StatusInvariant s.ok := { h with }

theorem StatusInvariant.raise (w : Word) (e : ErrorCode) (info : Word) : StatusInvariant (s.raise w e info) :=
  { h with
    lost := fun _ => rfl
    report := nofun }

theorem StatusInvariant.clearReport : StatusInvariant s.clearReport :=
  { h with
    lost := nofun
    report := fun _ => ⟨rfl, rfl⟩ }

theorem StatusInvariant.clearSession : StatusInvariant s.clearSession :=
  { statusInvariant_resetWith s.params with
    lost := h.lost
    report := h.report }

theorem StatusInvariant.setRes (v : Word) : StatusInvariant (s.setRes v) := { h with }

/-- A frequency may change before BUILD, when NSYM counts nothing. -/
theorem StatusInvariant.setFreq (sym : Byte) (v : Word) (hb : s.built = false) :
    StatusInvariant (s.setFreq sym v) :=
  { h with
    count := fun hb' => absurd (hb.symm.trans hb') Bool.false_ne_true }

theorem StatusInvariant.openSession : StatusInvariant { s with encOpen := true, encDone := false, encBits := 0 } :=
  { h with
    session := fun _ => rfl
    stream := Nat.zero_le _ }

theorem StatusInvariant.closeSession (encDone : Bool) :
    StatusInvariant { s with encOpen := false, encDone := encDone } :=
  { h with
    session := nofun }

theorem StatusInvariant.abortEncode : StatusInvariant s.abortEncode :=
  { h with
    session := nofun
    stream := Nat.zero_le _ }

theorem StatusInvariant.setStream (m : Memory) {bits : Nat} (hc : bits ≤ 8 * s.params.pbufBytes) :
    StatusInvariant (s.setStream m bits) :=
  { h with
    stream := (toNat_ofNat_le 32 bits).trans hc }

theorem StatusInvariant.setPbuf (m : Memory) : StatusInvariant { s with pbuf := m, encDone := false } :=
  { h with
    session := fun _ => rfl }

theorem StatusInvariant.beginDecode : StatusInvariant s.beginDecode :=
  { h with
    undecoded := fun _ => rfl
    output := Nat.zero_le _ }

theorem StatusInvariant.setWalk (budget pos : Nat) (cur : NodeId) : StatusInvariant (s.setWalk budget pos cur) :=
  { h with }

theorem StatusInvariant.commitDecode (budget : Nat) {out : List Byte} (cur : NodeId)
    (hl : out.length ≤ s.params.obufBytes) : StatusInvariant (s.commitDecode budget out cur) :=
  { h with
    undecoded := nofun
    output := (toNat_ofNat_le 32 _).trans hl }

theorem StatusInvariant.setQueue (b : Builder) : StatusInvariant (s.setQueue b) := { h with }

theorem StatusInvariant.setNode (node : Vector Node 511) : StatusInvariant { s with node := node } := { h with }

theorem StatusInvariant.setTree_empty (node : Vector Node 511) (root : NodeId) (ct : Vector CodeEntry 256)
    (hk : symbolCount s.freq = 0) : StatusInvariant (s.setTree node .empty 0 0 root ct) :=
  { h with
    unbuilt_iff := ⟨nofun, nofun⟩
    unbuilt := nofun
    empty := fun _ => ⟨rfl, rfl⟩
    degenerate := nofun
    general := nofun
    count := fun _ => hk.symm }

theorem StatusInvariant.setTree_degenerate (node : Vector Node 511) (ct : Vector CodeEntry 256)
    (hk : symbolCount s.freq = 1) : StatusInvariant (s.setTree node .degenerate 1 1 0 ct) :=
  { h with
    unbuilt_iff := ⟨nofun, nofun⟩
    unbuilt := nofun
    empty := nofun
    degenerate := fun _ => ⟨rfl, rfl, rfl⟩
    general := nofun
    count := fun _ => hk.symm }

/-- k is at most 256, so NSYM, NNODE and ROOT hold k, 2k − 1 and 2k − 2 (R10, R116). -/
theorem StatusInvariant.setTree_general (node : Vector Node 511) (ct : Vector CodeEntry 256)
    (hk : 2 ≤ symbolCount s.freq) :
    StatusInvariant (s.setTree node .general (symbolCount s.freq) (2 * symbolCount s.freq - 1)
      (BitVec.ofNat 9 (2 * symbolCount s.freq - 2)) ct) := by
  have hle := symbolCount_le s.freq
  have hnsym : (BitVec.ofNat 9 (symbolCount s.freq)).toNat = symbolCount s.freq :=
    toNat_ofNat_of_lt (by omega)
  have hnnode : (BitVec.ofNat 10 (2 * symbolCount s.freq - 1)).toNat = 2 * symbolCount s.freq - 1 :=
    toNat_ofNat_of_lt (by omega)
  have hroot : (BitVec.ofNat 9 (2 * symbolCount s.freq - 2)).toNat = 2 * symbolCount s.freq - 2 :=
    toNat_ofNat_of_lt (by omega)
  exact
    { h with
      unbuilt_iff := ⟨nofun, nofun⟩
      unbuilt := nofun
      empty := nofun
      degenerate := nofun
      general := fun _ => by simp [hnsym, hnnode, hroot, hk]
      count := fun _ => hnsym }

theorem StatusInvariant.succeeds {i : Instr} {u : State} (hp : phaseOk s i = true) (hu : Succeeds i s u) :
    StatusInvariant u := by
  cases hu
  case nop => exact h
  case clear => exact h.clearSession.clearReport
  case errclr => exact h.clearReport
  case setf | cnt => exact h.setFreq _ _ (by simpa [phaseOk] using hp)
  case buildEmpty hk => exact h.setTree_empty _ _ _ hk
  case buildOne hk => exact h.setTree_degenerate _ _ hk
  case buildMany hk hm =>
    rw [top_buildTree hk]
    exact (h.setQueue _).setTree_general _ _ hk
  case encb => exact h.openSession
  case encs hl hc hm => exact h.setStream _ hc
  case encp hc hm => exact h.setStream _ hc
  case ence => exact h.closeSession true
  case pbwr => exact h.setPbuf _
  case dec hb hw => exact h.commitDecode _ _ (walk_decoded hw (Nat.zero_le _)).2.1
  all_goals exact h.setRes _

theorem StatusInvariant.fails {i : Instr} {u : State} {e : ErrorCode} {info : Word} (hu : Fails i s e info u) :
    StatusInvariant u := by
  cases hu
  case tooLong => exact (h.setQueue _).setNode _
  case unknown | encsFull | encpFull => exact h.abortEncode
  case decRange => exact h.beginDecode
  case decWalk => exact h.beginDecode.setWalk _ _ _
  all_goals exact h

end

theorem statusInvariant_kept : KeptByParts StatusInvariant where
  host pending reads cmd opa h := h.host pending reads cmd opa
  reset _ := statusInvariant_resetWith _
  ok h := h.ok
  raise w e info h := h.raise w e info
  succeeds h hp hu := h.succeeds hp hu
  fails h hu := h.fails hu

/-- Settles O22: each update of the state keeps the points of R45; for BUILD it is the count of the nodes that gives
ROOT. -/
theorem stepKeepsTheStatusInvariant : Obligations.StepKeepsTheStatusInvariant := by
  unfold Obligations.StepKeepsTheStatusInvariant
  exact fun s t h => statusInvariant_kept.step h

end Sys2Proof.Machine
end

section
/-! PROOFS. The statements of the family 20_memory: the host's accesses to the register window, and which bytes a
command can fault on. -/

namespace Sys2Proof.Machine

open Sys2Proof

/-! ### Accesses by offset -/

/-- An access that begins in or above the window touches it exactly when its offset is below 0x1000 (R22). -/
theorem touchesWindow_offset_eq (p : Params) (offset bytes : Nat) (k : AccessKind) :
    touchesWindow p ⟨p.hccBase + offset, bytes, k⟩ = decide (offset < 4096) := by
  have htop : p.hccBase < p.hccBase + offset + max bytes 1 := by omega
  simp [touchesWindow, htop]

theorem admitted_offset_iff (p : Params) (offset bytes : Nat) (k : AccessKind) :
    admitted p ⟨p.hccBase + offset, bytes, k⟩ = true ↔ bytes = 4 ∧ offset % 4 = 0 := by
  simp [admitted]

/-- An access past the window is no access to the HCC (R51). -/
theorem hostAccess_past_window (s : State) {offset : Nat} (bytes : Nat) (k : AccessKind) (h : 4096 ≤ offset) :
    hostAccess ⟨s.params.hccBase + offset, bytes, k⟩ s = .next s := by
  simp [hostAccess, touchesWindow_offset_eq, Nat.not_lt.mpr h]

/-- An access of the window with another width or alignment is refused (R51). -/
theorem hostAccess_refused (s : State) {offset bytes : Nat} (k : AccessKind) (hw : offset < 4096)
    (h : bytes ≠ 4 ∨ offset % 4 ≠ 0) :
    hostAccess ⟨s.params.hccBase + offset, bytes, k⟩ s =
      .refused (.hostAccess ⟨s.params.hccBase + offset, bytes, k⟩) := by
  have hadm : admitted s.params ⟨s.params.hccBase + offset, bytes, k⟩ = false := by
    rw [← Bool.not_eq_true, admitted_offset_iff]
    exact not_and_or.mpr h
  simp [hostAccess, touchesWindow_offset_eq, hw, hadm]

/-- A 32-bit read at a word-aligned offset of the window answers with the register there (R52). -/
theorem hostAccess_read (s : State) {offset : Nat} (hw : offset < 4096) (ha : offset % 4 = 0) :
    hostAccess ⟨s.params.hccBase + offset, 4, .read⟩ s =
      .next { s with reads := s.reads ++ [readReg s offset] } := by
  simp [hostAccess, touchesWindow_offset _ _ hw, admitted_offset _ _ ha]

section
variable {s : State} {rest : List HostInput} {offset : Nat} (hw : offset < 4096) (ha : offset % 4 = 0)
include hw ha

/-- The input list is no register: a read answers from the state as it was. -/
theorem step_of_hostRead (hp : s.pending = .access ⟨s.params.hccBase + offset, 4, .read⟩ :: rest) :
    step s = .next { s with pending := rest, reads := s.reads ++ [readReg s offset] } := by
  rw [step_of_access hp]
  exact hostAccess_read { s with pending := rest } hw ha

theorem step_of_hostWrite {v : Word}
    (hp : s.pending = .access ⟨s.params.hccBase + offset, 4, .write v⟩ :: rest) :
    step s = writeReg offset v { s with pending := rest } := by
  rw [step_of_access hp]
  exact hostAccess_write { s with pending := rest } v hw ha

end

/-- Settles O9: an access at offset 0x1000 or more touches no byte of the window, and one below it is admitted only
with 4 bytes at a word-aligned offset. -/
theorem accessesOutsideTheInterface : Obligations.AccessesOutsideTheInterface := by
  unfold Obligations.AccessesOutsideTheInterface
  intro s rest offset bytes kind hp
  rw [step_of_access hp]
  exact ⟨fun hw h => hostAccess_refused { s with pending := rest } kind hw h,
    fun h => hostAccess_past_window { s with pending := rest } bytes kind h⟩

/-! ### Writes of the window -/

/-- Settles O6: both offsets are word-aligned offsets of the window, and `writeReg` there is R54. -/
theorem hostWritesToOpaAndCmd : Obligations.HostWritesToOpaAndCmd := by
  unfold Obligations.HostWritesToOpaAndCmd
  intro s rest v
  exact ⟨step_of_hostWrite (by decide) (by decide), step_of_hostWrite (by decide) (by decide)⟩

/-- Every offset but CMD's and OPA's ignores a write (R53). -/
theorem writeReg_ignored {offset : Nat} (hcmd : offset ≠ 0x010) (hopa : offset ≠ 0x014) (v : Word) (s : State) :
    writeReg offset v s = .next s := by
  unfold writeReg
  split
  · exact absurd rfl hcmd
  · exact absurd rfl hopa
  · rfl

/-! ### Reads of the window -/

/-- The register map ends at OUTLEN, 0x04C (R22, R53). -/
theorem readReg_reserved (s : State) {offset : Nat} (h : 0x050 ≤ offset) : readReg s offset = 0 := by
  unfold readReg
  split
  case h_21 => rfl
  all_goals omega

/-- Settles O8. -/
theorem reservedOffsetsAndReadOnlyWrites : Obligations.ReservedOffsetsAndReadOnlyWrites := by
  unfold Obligations.ReservedOffsetsAndReadOnlyWrites
  intro s rest offset hw ha
  refine ⟨fun hr hp => ?_, fun v hcmd hopa hp => ?_⟩
  · rw [step_of_hostRead hw ha hp, readReg_reserved s hr]
  · rw [step_of_hostWrite hw ha hp, writeReg_ignored hcmd hopa]

/-- The registers of R22, each offset with its value (R27 to R36). -/
def registerMap (s : State) : List (Nat × Word) :=
  [(0x000, 0x48434301#32), (0x004, BitVec.ofNat 32 s.params.pbufBytes),
    (0x008, BitVec.ofNat 32 s.params.obufBytes), (0x00C, 48#16 ++ 32#8 ++ BitVec.ofNat 8 s.params.maxCodeLen),
    (0x010, s.cmd), (0x014, s.opa), (0x018, s.res), (0x01C, s.statusWord), (0x020, s.err), (0x024, s.errInfo),
    (0x028, BitVec.ofNat 32 s.totalBits.toNat), (0x02C, BitVec.ofNat 32 (s.totalBits.toNat / 2 ^ 32)),
    (0x030, BitVec.ofNat 32 s.nsym.toNat), (0x034, BitVec.ofNat 32 s.nnode.toNat),
    (0x038, BitVec.ofNat 32 s.root.toNat), (0x03C, s.encBits),
    (0x040, BitVec.ofNat 32 ((s.encBits.toNat + 7) / 8)), (0x044, s.decBudget), (0x048, s.decPos),
    (0x04C, s.outLen)]

/-- TBHI is the upper half of TOTAL_BITS, zero-extended (R33). -/
theorem setWidth_extractLsb'_high (x : BitVec 48) :
    (x.extractLsb' 32 16).setWidth 32 = BitVec.ofNat 32 (x.toNat / 2 ^ 32) := by
  apply BitVec.eq_of_toNat_eq
  simp only [BitVec.toNat_setWidth, BitVec.extractLsb'_toNat, BitVec.toNat_ofNat, Nat.shiftRight_eq_div_pow]
  omega

/-- The map lists `readReg` at the twenty word-aligned offsets from 0x000 to 0x04C. -/
theorem registerMap_eq_readReg (s : State) :
    registerMap s = (List.range 20).map fun i => (4 * i, readReg s (4 * i)) := by
  rw [registerMap, ← setWidth_extractLsb'_high]
  simp only [BitVec.ofNat_toNat]
  rfl

theorem readReg_of_mem_registerMap {s : State} {offset : Nat} {v : Word} (h : (offset, v) ∈ registerMap s) :
    offset < 4096 ∧ offset % 4 = 0 ∧ readReg s offset = v := by
  rw [registerMap_eq_readReg, List.mem_map] at h
  obtain ⟨i, hi, he⟩ := h
  cases he
  have hi : i < 20 := List.mem_range.mp hi
  exact ⟨by omega, by omega, rfl⟩

/-- The bits of STATUS from bit 0 upward, before its zero bits (R30). -/
def statusBits (s : State) : List Bool :=
  [s.built, (kindBits s.kind)[0], (kindBits s.kind)[1], s.encOpen, s.encDone, s.decDone, s.lastFail, s.errValid,
    s.errLost]

theorem getLsbD_statusWord (s : State) (i : Nat) : s.statusWord.getLsbD i = (statusBits s).getD i false := by
  rw [State.statusWord, statusBits]
  repeat rw [BitVec.getLsbD_append]
  match i with
  | 0 | 1 | 2 | 3 | 4 | 5 | 6 | 7 | 8 => simp
  | _ + 9 => simp

theorem extractLsb'_statusWord_kind (s : State) : s.statusWord.extractLsb' 1 2 = kindBits s.kind := by
  ext i hi
  rw [BitVec.getElem_extractLsb', getLsbD_statusWord]
  interval_cases i <;> rfl

theorem extractLsb'_statusWord_zero (s : State) : s.statusWord.extractLsb' 9 23 = 0 := by
  ext i hi
  rw [BitVec.getElem_extractLsb', getLsbD_statusWord, Nat.add_comm]
  simp [statusBits]

/-- Settles O7: each offset of the map reads as its register, and STATUS is its fields of R30 bit by bit. -/
theorem hostReadAnswersWithTheRegister : Obligations.HostReadAnswersWithTheRegister := by
  unfold Obligations.HostReadAnswersWithTheRegister
  intro s rest offset v hp hmem
  obtain ⟨hw, ha, rfl⟩ := readReg_of_mem_registerMap hmem
  have hbit := getLsbD_statusWord s
  exact ⟨step_of_hostRead hw ha hp, hbit 0,
    (extractLsb'_statusWord_kind s).trans (by cases s.kind <;> rfl),
    hbit 3, hbit 4, hbit 5, hbit 6, hbit 7, hbit 8, extractLsb'_statusWord_zero s⟩

/-! ### Faults -/

/-- No command is refused: it succeeds, fails or faults. -/
theorem exec_ne_refused (i : Instr) (s : State) (r : Refusal) : exec i s ≠ .refused r := by
  rcases exec_cases i s with ⟨u, -, -, -, he⟩ | ⟨e, info, u, -, he⟩ | ⟨f, -, -, -, he⟩ <;> rw [he] <;> nofun

theorem faults_of_exec {i : Instr} {s : State} {f : Fault} (h : exec i s = .fault f) : Faults i s f := by
  rcases exec_cases i s with ⟨u, -, -, -, he⟩ | ⟨e, info, u, -, he⟩ | ⟨g, -, -, hf, he⟩
  · rw [h] at he; cases he
  · rw [h] at he; cases he
  · rw [h] at he; cases he; exact hf

theorem written_eq_false_iff {m : Memory} {a : Nat} : m.written a = false ↔ m.read? a = none := by
  simp [Memory.written]

/-- An Append at the end of the stream never faults: the byte it goes on in holds stream bits, so it was written
(R56). -/
theorem BuffersInvariant.appendBits_ne_error {s : State} (h : BuffersInvariant s) (bits : List Bool) (f : Fault) :
    appendBits s.pbuf s.encBits.toNat bits ≠ .error f := by
  intro hm
  obtain ⟨hp, hn⟩ := appendBits_eq_error hm
  exact Bool.eq_false_iff.mp hn (h.stream _ (by omega))

/-- Settles O20: the invariant shuts out the faults of ENCS, ENCP and ORD, and leaves those of PBRD and DEC. -/
theorem onlyUnwrittenPbufBytesFault : Obligations.OnlyUnwrittenPbufBytesFault := by
  unfold Obligations.OnlyUnwrittenPbufBytesFault
  refine fun i s => ⟨exec_ne_refused i s, fun f hinv h => ?_⟩
  cases faults_of_exec h with
  | encs sym _ _ hm => exact absurd hm (hinv.appendBits_ne_error _ f)
  | encp aux _ _ hm => exact absurd hm (hinv.appendBits_ne_error _ f)
  | pbrd _ ha hr => exact .inl ⟨rfl, ha, written_eq_false_iff.mpr hr, rfl⟩
  | dec aux _ _ hb hw =>
    obtain ⟨p, -, hp, hr, hf⟩ := walk_faulted hw
    rw [Nat.zero_add] at hp
    exact .inr ⟨aux, p, rfl, hp, Nat.lt_of_lt_of_le hp hb, written_eq_false_iff.mpr hr, hf⟩
  | ord _ ha hr => exact absurd (hinv.output _ ha) (Bool.eq_false_iff.mp (written_eq_false_iff.mpr hr))

end Sys2Proof.Machine
end

section
/-! PROOFS. The statements of the family 30_encoding: the decoder and the encoder are inverse on the well-formed
commands, the rows of the opcode table do not overlap, and the words that decode to no command are reported. -/

namespace Sys2Proof

/-! ### Legal words -/

/-- The word passes every check of R71. -/
structure LegalWord (w : Word) : Prop where
  rsv : fieldRsv w = 0
  opcode : isOpcode (fieldOpc w) = true
  sym : usesSym (fieldOpc w) = true ∨ fieldSym w = 0
  aux : usesAux (fieldOpc w) = true ∨ fieldAux w = 0
  range : auxInRange (fieldOpc w) (fieldAux w) = true

theorem decode_of_legalWord {w : Word} (h : LegalWord w) :
    decode w = commandOf (fieldOpc w) (fieldSym w) (fieldAux w) := by
  have hsym : ¬(!usesSym (fieldOpc w) && fieldSym w != 0) = true := by simpa [or_iff_not_imp_left] using h.sym
  have haux : ¬(!usesAux (fieldOpc w) && fieldAux w != 0) = true := by simpa [or_iff_not_imp_left] using h.aux
  rw [decode, if_neg (not_not.mpr h.rsv), if_neg (by simp [h.opcode]), if_neg hsym, if_neg haux,
    if_neg (by simp [h.range])]

/-- Only a word that passes every check reaches the last branch of the decoder. -/
theorem legalWord_of_decode {w : Word} {i : Instr} (h : decode w = .ok i) : LegalWord w := by
  unfold decode at h
  repeat (split at h; · cases h)
  next hrsv hopc hsym haux hrange =>
    exact {
      rsv := not_not.mp hrsv
      opcode := by simpa using hopc
      sym := by simpa [or_iff_not_imp_left] using hsym
      aux := by simpa [or_iff_not_imp_left] using haux
      range := by simpa using hrange }

/-- Every opcode of R76 has a command. -/
theorem exists_commandOf {opc : Byte} (h : isOpcode opc = true) (sym aux : Byte) :
    ∃ i, commandOf opc sym aux = .ok i := by
  have hle : opc.toNat ≤ 0x11 := of_decide_eq_true h
  unfold commandOf
  generalize opc.toNat = n at hle
  interval_cases n <;> exact ⟨_, rfl⟩

theorem legalWord_iff_decode (w : Word) : LegalWord w ↔ ∃ i, decode w = .ok i :=
  ⟨fun h => decode_of_legalWord h ▸ exists_commandOf h.opcode _ _, fun ⟨_, h⟩ => legalWord_of_decode h⟩

/-! ### Decoding and encoding -/

/-- The encoder puts back the fields that the command was taken from, and 0 in the ones that its OPC does not use
(R82). -/
theorem encode_of_commandOf {opc sym aux : Byte} {i : Instr} (hsym : usesSym opc = true ∨ sym = 0)
    (haux : usesAux opc = true ∨ aux = 0) (h : commandOf opc sym aux = .ok i) : encode i = assemble opc sym aux := by
  unfold commandOf at h
  split at h
  case h_19 => cases h
  all_goals
    next hopc =>
      cases h
      obtain ⟨-, rfl⟩ := BitVec.toNat_eq_nat.mp hopc
      simp_all [usesSym, usesAux, encode]

theorem commandOf_encode (i : Instr) :
    commandOf (fieldOpc (encode i)) (fieldSym (encode i)) (fieldAux (encode i)) = .ok i := by
  cases i <;> simp only [encode, fieldOpc_assemble, fieldSym_assemble, fieldAux_assemble] <;> rfl

theorem isOpcode_encode (i : Instr) : isOpcode (fieldOpc (encode i)) = true := by
  cases i <;> simp only [encode, fieldOpc_assemble] <;> rfl

theorem auxInRange_encode (i : Instr) : auxInRange (fieldOpc (encode i)) (fieldAux (encode i)) = i.wellFormed := by
  cases i <;> simp only [encode, fieldOpc_assemble, fieldAux_assemble] <;> rfl

/-- What the encoder keeps to, for every command at once (R70, R82). -/
theorem commandWord_statement (i : Instr) : Laws.CommandWord.Statement i := by
  cases i with
  | nop => exact Laws.CommandWord.nop
  | clear => exact Laws.CommandWord.clear
  | errclr => exact Laws.CommandWord.errclr
  | setf sym => exact Laws.CommandWord.setf sym
  | cnt sym => exact Laws.CommandWord.cnt sym
  | rdfreq sym => exact Laws.CommandWord.rdfreq sym
  | build => exact Laws.CommandWord.build
  | rdnode aux => exact Laws.CommandWord.rdnode aux
  | rdlen sym => exact Laws.CommandWord.rdlen sym
  | rdcode sym aux => exact Laws.CommandWord.rdcode sym aux
  | encb => exact Laws.CommandWord.encb
  | encs sym => exact Laws.CommandWord.encs sym
  | encp aux => exact Laws.CommandWord.encp aux
  | ence => exact Laws.CommandWord.ence
  | pbwr data => exact Laws.CommandWord.pbwr data
  | pbrd => exact Laws.CommandWord.pbrd
  | dec aux => exact Laws.CommandWord.dec aux
  | ord => exact Laws.CommandWord.ord

/-- Of R71's checks, a command's word can only fail the one of AUX's range. -/
theorem legalWord_encode_iff (i : Instr) : LegalWord (encode i) ↔ i.wellFormed = true := by
  obtain ⟨hrsv, -, hsym, haux⟩ := commandWord_statement i
  rw [← auxInRange_encode]
  exact ⟨LegalWord.range, fun hrange => ⟨hrsv, isOpcode_encode i, hsym, haux, hrange⟩⟩

/-- A word decodes to a command exactly when it is the word of that well-formed command. -/
theorem decode_eq_ok_iff {w : Word} {i : Instr} : decode w = .ok i ↔ i.wellFormed = true ∧ encode i = w := by
  constructor
  · intro h
    have hlegal := legalWord_of_decode h
    have hw : encode i = w :=
      (encode_of_commandOf hlegal.sym hlegal.aux (decode_of_legalWord hlegal ▸ h)).trans
        (assemble_fields w hlegal.rsv)
    exact ⟨(legalWord_encode_iff i).mp (hw ▸ hlegal), hw⟩
  · rintro ⟨hwf, rfl⟩
    rw [decode_of_legalWord ((legalWord_encode_iff i).mpr hwf), commandOf_encode]

/-- Settles O1: the word that is decoded is the command's own. -/
theorem decodeInvertsEncode : Obligations.DecodeInvertsEncode := by
  unfold Obligations.DecodeInvertsEncode
  intro i
  rw [decode_eq_ok_iff]
  exact and_iff_left rfl

/-- Settles O4: each word of R84's table is the encoding of its command, and each illegal word fails its check. -/
theorem workedEncodingsDecode : Obligations.WorkedEncodingsDecode := by
  unfold Obligations.WorkedEncodingsDecode
  simp only [decode_eq_ok_iff]
  decide

/-! ### The rows of the opcode table -/

/-- The rows of R76 in the order of their OPC; a row does not depend on the command's fields. -/
def opcodeTable : List OpcodeRow :=
  [opcodeRow .nop, opcodeRow .clear, opcodeRow .errclr, opcodeRow (.setf 0), opcodeRow (.cnt 0), opcodeRow (.rdfreq 0),
    opcodeRow .build, opcodeRow (.rdnode 0), opcodeRow (.rdlen 0), opcodeRow (.rdcode 0 0), opcodeRow .encb,
    opcodeRow (.encs 0), opcodeRow (.encp 0), opcodeRow .ence, opcodeRow (.pbwr 0), opcodeRow .pbrd,
    opcodeRow (.dec 0), opcodeRow .ord]

/-- The row of a command is the table's entry at its OPC. -/
theorem opcodeTable_getElem? (i : Instr) :
    opcodeTable[(fieldOpc (opcodeRow i).pattern).toNat]? = some (opcodeRow i) := by
  cases i <;> rfl

/-- OPC names the row (R76). -/
theorem opcodeRow_eq_iff (i j : Instr) :
    opcodeRow i = opcodeRow j ↔ fieldOpc (opcodeRow i).pattern = fieldOpc (opcodeRow j).pattern := by
  refine ⟨fun h => by rw [h], fun h => Option.some.inj ?_⟩
  rw [← opcodeTable_getElem? i, h, opcodeTable_getElem? j]

theorem fieldOpc_encode (i : Instr) : fieldOpc (encode i) = fieldOpc (opcodeRow i).pattern := by
  obtain ⟨-, hopc, -⟩ := commandWord_statement i
  exact hopc.trans (BitVec.setWidth_eq_extractLsb' (by decide))

@[simp] theorem fieldOpc_and (v w : Word) : fieldOpc (v &&& w) = fieldOpc v &&& fieldOpc w :=
  BitVec.extractLsb'_and

@[simp] theorem fieldSym_and (v w : Word) : fieldSym (v &&& w) = fieldSym v &&& fieldSym w :=
  BitVec.extractLsb'_and

@[simp] theorem fieldAux_and (v w : Word) : fieldAux (v &&& w) = fieldAux v &&& fieldAux w :=
  BitVec.extractLsb'_and

@[simp] theorem fieldRsv_and (v w : Word) : fieldRsv (v &&& w) = fieldRsv v &&& fieldRsv w :=
  BitVec.extractLsb'_and

theorem assemble_and (opc sym aux : Byte) (m : Word) :
    assemble opc sym aux &&& m = assemble (opc &&& fieldOpc m) (sym &&& fieldSym m) (aux &&& fieldAux m) := by
  rw [← assemble_fields (assemble opc sym aux &&& m) (by simp)]
  simp

/-- Every row's mask takes in the whole of OPC. -/
theorem fieldOpc_mask (i : Instr) : fieldOpc (opcodeRow i).mask = BitVec.allOnes 8 := by
  cases i <;> simp only [opcodeRow] <;> rfl

/-- A word in a row has the row's OPC. -/
theorem fieldOpc_of_mem_row {w : Word} {i : Instr} (h : w &&& (opcodeRow i).mask = (opcodeRow i).pattern) :
    fieldOpc w = fieldOpc (opcodeRow i).pattern := by
  rw [← h, fieldOpc_and, fieldOpc_mask, BitVec.and_allOnes]

/-- A byte below 2^k has no bit at k or above. -/
theorem and_highBits_eq_zero {b : Byte} {k : Nat} (h : b.toNat < 2 ^ k) : b &&& (BitVec.allOnes 8 <<< k) = 0 := by
  apply BitVec.eq_of_getLsbD_eq
  intro n hn
  by_cases hk : n < k
  · simp [hk]
  · have hbit : b.getLsbD n = false :=
      Nat.testBit_lt_two_pow (h.trans_le (Nat.pow_le_pow_right (by decide) (Nat.not_lt.mp hk)))
    simp [hbit]

/-- A mask that takes in OPC, and of SYM and AUX only bits that are 0, leaves OPC. -/
theorem assemble_and_eq {opc sym aux : Byte} {m : Word} (ho : fieldOpc m = BitVec.allOnes 8)
    (hs : sym &&& fieldSym m = 0) (ha : aux &&& fieldAux m = 0) :
    assemble opc sym aux &&& m = assemble opc 0 0 := by
  rw [assemble_and, ho, BitVec.and_allOnes, hs, ha]

/-- The masks leave out the bits that a field of the command may set. -/
theorem encode_mem_row {i : Instr} (h : i.wellFormed = true) :
    encode i &&& (opcodeRow i).mask = (opcodeRow i).pattern := by
  cases i <;> simp only [encode, opcodeRow]
  case rdnode aux =>
    have haux : aux.toNat ≤ 2 := of_decide_eq_true h
    exact assemble_and_eq rfl BitVec.zero_and (and_highBits_eq_zero (b := aux) (k := 2) (by omega))
  case rdcode sym aux =>
    have haux : aux.toNat ≤ 7 := of_decide_eq_true h
    exact assemble_and_eq rfl BitVec.and_zero (and_highBits_eq_zero (b := aux) (k := 3) (by omega))
  case dec aux =>
    have haux : aux.toNat ≤ 1 := of_decide_eq_true h
    exact assemble_and_eq rfl BitVec.zero_and (and_highBits_eq_zero (b := aux) (k := 1) (by omega))
  case encp => exact assemble_and_eq rfl BitVec.zero_and BitVec.and_zero
  case setf | cnt | rdfreq | rdlen | encs | pbwr => exact assemble_and_eq rfl BitVec.and_zero BitVec.zero_and
  all_goals rfl

/-- Settles O2: a word is legal or not, and its OPC names the one row it can be in. -/
theorem everyWordDecodesOnce : Obligations.EveryWordDecodesOnce := by
  unfold Obligations.EveryWordDecodesOnce
  refine ⟨fun w => ?_, fun i j w hi hj => ?_, fun i => encode_mem_row, fun i j => ?_⟩
  · cases hd : decode w with
    | ok i =>
      obtain ⟨hwf, hw⟩ := decode_eq_ok_iff.mp hd
      refine .inl ⟨i, hwf, hw, rfl, fun j hj hjw => ?_⟩
      have hdj := decode_eq_ok_iff.mpr ⟨hj, hjw⟩
      exact Except.ok.inj (hdj.symm.trans hd)
    | error e =>
      refine .inr ⟨⟨e, rfl⟩, fun i hi hw => ?_⟩
      rw [decode_eq_ok_iff.mpr ⟨hi, hw⟩] at hd
      cases hd
  · rw [opcodeRow_eq_iff, ← fieldOpc_of_mem_row hi, ← fieldOpc_of_mem_row hj]
  · rw [opcodeRow_eq_iff, ← fieldOpc_encode, ← fieldOpc_encode]
    rfl

/-! ### The words that are no command's -/

theorem isOpcode_eq_true_iff (opc : Byte) : isOpcode opc = true ↔ ¬0x11 < opc.toNat := by
  simp [isOpcode]

theorem usesSym_eq_true_iff (opc : Byte) :
    usesSym opc = true ↔ opc.toNat ∈ [0x03, 0x04, 0x05, 0x08, 0x09, 0x0B, 0x0E] :=
  List.contains_iff_mem

theorem usesAux_eq_true_iff (opc : Byte) : usesAux opc = true ↔ opc.toNat ∈ [0x07, 0x09, 0x0C, 0x10] :=
  List.contains_iff_mem

/-- The AUX column of R76. -/
theorem auxInRange_eq_false_iff (opc aux : Byte) :
    auxInRange opc aux = false ↔
      (opc.toNat = 0x07 ∧ 2 < aux.toNat) ∨ (opc.toNat = 0x09 ∧ 7 < aux.toNat) ∨
        (opc.toNat = 0x0C ∧ (aux.toNat = 0 ∨ 32 < aux.toNat)) ∨ (opc.toNat = 0x10 ∧ 1 < aux.toNat) := by
  unfold auxInRange
  split <;> grind

/-- The conditions of R71, R77 and R78 under which a word is illegal, by its fields. -/
def IllegalFields (w : Word) : Prop :=
  fieldRsv w ≠ 0 ∨ 0x11 < (fieldOpc w).toNat ∨
    ((fieldOpc w).toNat ∉ [0x03, 0x04, 0x05, 0x08, 0x09, 0x0B, 0x0E] ∧ fieldSym w ≠ 0) ∨
    ((fieldOpc w).toNat ∉ [0x07, 0x09, 0x0C, 0x10] ∧ fieldAux w ≠ 0) ∨
    ((fieldOpc w).toNat = 0x07 ∧ 2 < (fieldAux w).toNat) ∨ ((fieldOpc w).toNat = 0x09 ∧ 7 < (fieldAux w).toNat) ∨
    ((fieldOpc w).toNat = 0x0C ∧ ((fieldAux w).toNat = 0 ∨ 32 < (fieldAux w).toNat)) ∨
    ((fieldOpc w).toNat = 0x10 ∧ 1 < (fieldAux w).toNat)

theorem legalWord_iff_not_illegalFields (w : Word) : LegalWord w ↔ ¬IllegalFields w := by
  rw [IllegalFields, ← auxInRange_eq_false_iff, ← usesSym_eq_true_iff, ← usesAux_eq_true_iff]
  simp only [not_or, not_and_or, not_not, ← isOpcode_eq_true_iff, Bool.not_eq_false]
  exact ⟨fun ⟨hrsv, hopc, hsym, haux, hrange⟩ => ⟨hrsv, hopc, hsym, haux, hrange⟩,
    fun ⟨hrsv, hopc, hsym, haux, hrange⟩ => ⟨hrsv, hopc, hsym, haux, hrange⟩⟩

end Sys2Proof

namespace Sys2Proof.Machine

open Sys2Proof

/-- Settles O3: a word whose fields are illegal does not decode, and any other decodes to the command it encodes. -/
theorem illegalWordsAreReported : Obligations.IllegalWordsAreReported := by
  unfold Obligations.IllegalWordsAreReported
  intro w s opc sym aux illegal
  have hlegal : LegalWord w ↔ ¬illegal := legalWord_iff_not_illegalFields w
  rcases runCommand_cases w s with ⟨i, hd, hr⟩ | ⟨e, hd, hr⟩
  · have hnot : ¬illegal := hlegal.mp (legalWord_of_decode hd)
    obtain ⟨hwf, hw⟩ := decode_eq_ok_iff.mp hd
    exact ⟨fun hi => absurd hi hnot, fun _ => ⟨i, hwf, hw, hr⟩⟩
  · refine ⟨fun _ => hr, fun hi => ?_⟩
    obtain ⟨i, hi⟩ := (legalWord_iff_decode w).mp (hlegal.mpr hi)
    rw [hi] at hd
    cases hd

end Sys2Proof.Machine
end

section
/-! PROOFS. The statements of the family 40_session: what a read command writes, the precondition table, and the session
commands NOP, ERRCLR and CLEAR. -/

namespace Sys2Proof.Machine

open Sys2Proof

/-! ### Read commands -/

/-- The read commands of R87. -/
def ReadCommand (i : Instr) : Prop :=
  (∃ sym, i = .rdfreq sym) ∨ (∃ aux, i = .rdnode aux) ∨ (∃ sym, i = .rdlen sym) ∨ (∃ sym aux, i = .rdcode sym aux) ∨
    i = .pbrd ∨ i = .ord

theorem Succeeds.eq_setRes {i : Instr} {s u : State} (h : Succeeds i s u) (hi : ReadCommand i) :
    ∃ v, u = s.setRes v := by
  rcases hi with ⟨sym, rfl⟩ | ⟨aux, rfl⟩ | ⟨sym, rfl⟩ | ⟨sym, aux, rfl⟩ | rfl | rfl <;> cases h <;> exact ⟨_, rfl⟩

/-- A read command's errors have no abort effect. -/
theorem Fails.eq_of_readCommand {i : Instr} {s u : State} {e : ErrorCode} {info : Word} (h : Fails i s e info u)
    (hi : ReadCommand i) : u = s := by
  rcases hi with ⟨sym, rfl⟩ | ⟨aux, rfl⟩ | ⟨sym, rfl⟩ | ⟨sym, aux, rfl⟩ | rfl | rfl <;> cases h <;> rfl

theorem Succeeds.res_eq_or_readCommand {i : Instr} {s u : State} (h : Succeeds i s u) :
    u.res = s.res ∨ ReadCommand i := by
  cases h
  case rdfreq | rdnode | rdlen | rdcode | pbrd | ord => right; simp [ReadCommand]
  all_goals exact .inl rfl

/-- No abort effect touches RES. -/
theorem Fails.res_eq {i : Instr} {s u : State} {e : ErrorCode} {info : Word} (h : Fails i s e info u) :
    u.res = s.res := by
  cases h <;> rfl

/-- Settles O16: a read command's success sets RES, its failures have no abort effect, and no other command's outcome
touches RES. -/
theorem readCommandsWriteOnlyRes : Obligations.ReadCommandsWriteOnlyRes := by
  unfold Obligations.ReadCommandsWriteOnlyRes
  intro i s t h
  rcases exec_next_cases h with ⟨u, -, -, hs, rfl⟩ | ⟨e, info, u, hf, rfl⟩
  · refine ⟨fun hi => ?_, fun hres => ⟨hs.res_eq_or_readCommand.resolve_left hres, rfl⟩⟩
    obtain ⟨v, rfl⟩ := hs.eq_setRes hi
    rfl
  · refine ⟨fun hi => ?_, fun hres => absurd hf.res_eq hres⟩
    obtain rfl := hf.eq_of_readCommand hi
    rfl

/-! ### Preconditions -/

theorem failsWith_phaseError {i : Instr} {s : State} (hw : i.wellFormed = true) (hp : phaseOk s i = false) :
    FailsWith i s .phaseError s.statusWord :=
  exec_of_phase hw hp

/-- PHASE_ERROR is raised by the frame only, never by a command's own rule. -/
theorem Fails.error_ne_phaseError {i : Instr} {s u : State} {e : ErrorCode} {info : Word} (h : Fails i s e info u)
    (hp : phaseOk s i = true) : e ≠ .phaseError := by
  cases h
  case phase hn => rw [hp] at hn; cases hn
  case decWalk hw => rcases (walk_failed hw).1 with rfl | rfl <;> nofun
  all_goals nofun

theorem errorNumber_eq_two_iff (e : ErrorCode) : errorNumber e = 2#8 ↔ e = .phaseError := by
  cases e <;> decide

/-- A command in phase never reports PHASE_ERROR. -/
theorem exec_code_ne_phaseError {i : Instr} {s t : State} (hp : phaseOk s i = true) (h : exec i s = .next t)
    (hfail : t.lastFail = true) : t.err.extractLsb' 0 8 ≠ 2#8 := by
  rcases exec_next_cases h with ⟨u, -, -, -, rfl⟩ | ⟨e, info, u, hf, rfl⟩
  · cases hfail
  · rw [State.raise_err, extractLsb'_errWord_code, ne_eq, errorNumber_eq_two_iff]
    exact hf.error_ne_phaseError hp

/-- Settles O14: each row's premise makes `phaseOk` false, and the commands without a precondition are always in
phase. -/
theorem preconditionsAreEnforced : Obligations.PreconditionsAreEnforced := by
  unfold Obligations.PreconditionsAreEnforced
  intro s sym aux
  refine ⟨fun hb => ?_, fun h => ?_, fun hb => ?_, fun ho => ?_, fun h => ?_, fun ho => ?_, fun h haux => ?_, ?_⟩
  · have hsetf : phaseOk s (.setf sym) = false := by simp [phaseOk, hb]
    exact ⟨failsWith_phaseError rfl hsetf, failsWith_phaseError rfl hsetf⟩
  · exact failsWith_phaseError rfl (by rcases h with h | h <;> simp [phaseOk, h])
  · exact ⟨fun haux => failsWith_phaseError (decide_eq_true haux) hb, failsWith_phaseError rfl hb,
      fun haux => failsWith_phaseError (decide_eq_true haux) hb⟩
  · have hencb : phaseOk s .encb = false := by simp [phaseOk, ho]
    exact ⟨failsWith_phaseError rfl hencb, failsWith_phaseError rfl hencb⟩
  · exact failsWith_phaseError rfl (by rcases h with h | h <;> simp [phaseOk, h])
  · exact ⟨fun haux => failsWith_phaseError (by simp [Instr.wellFormed, haux]) ho, failsWith_phaseError rfl ho⟩
  · exact failsWith_phaseError (decide_eq_true haux) (by rcases h with h | h <;> simp [phaseOk, h])
  · rintro t (h | h | h | h | h | h) <;> exact exec_code_ne_phaseError rfl h

/-! ### Illegal words by opcode -/

/-- A word that fails a check of R71 is reported, whatever the state. -/
theorem allIllegal_of_not_legalWord {bad : Word → Prop} (h : ∀ w, bad w → ¬LegalWord w) : AllIllegal bad := by
  intro w s hw
  rcases runCommand_cases w s with ⟨i, hd, -⟩ | ⟨e, -, hr⟩
  · exact absurd (legalWord_of_decode hd) (h w hw)
  · exact hr

/-- An opcode that uses neither SYM nor AUX has one legal word (R71). -/
theorem allIllegal_of_no_fields {opc : Byte} (hsym : usesSym opc = false) (haux : usesAux opc = false) :
    AllIllegal (fun w => w.extractLsb' 0 8 = opc ∧ w ≠ assemble opc 0 0) := by
  refine allIllegal_of_not_legalWord ?_
  rintro w ⟨rfl, hne⟩ hlegal
  have hsym0 : fieldSym w = 0 := hlegal.sym.resolve_left (Bool.eq_false_iff.mp hsym)
  have haux0 : fieldAux w = 0 := hlegal.aux.resolve_left (Bool.eq_false_iff.mp haux)
  apply hne
  calc w
      = assemble (fieldOpc w) (fieldSym w) (fieldAux w) := (assemble_fields w hlegal.rsv).symm
    _ = assemble (fieldOpc w) 0 0 := by rw [hsym0, haux0]

/-! ### The session commands -/

theorem exec_nop (s : State) : exec .nop s = .next s.ok :=
  guarded_of_ok (i := .nop) done rfl rfl

theorem exec_errclr (s : State) : exec .errclr s = .next s.clearReport.ok :=
  guarded_of_ok (i := .errclr) (fun s => done s.clearReport) rfl rfl

theorem exec_clear (s : State) : exec .clear s = .next s.clearSession.clearReport.ok :=
  guarded_of_ok (i := .clear) (fun s => done s.clearSession.clearReport) rfl rfl

/-- Settles O26. -/
theorem nopAndErrclr : Obligations.NopAndErrclr := by
  unfold Obligations.NopAndErrclr
  exact ⟨rfl, allIllegal_of_no_fields rfl rfl, rfl, allIllegal_of_no_fields rfl rfl,
    fun s => ⟨exec_nop s, exec_errclr s⟩⟩

/-- Settles O27: the files FREQ and CT of the new session are constant. -/
theorem clearStartsASession : Obligations.ClearStartsASession := by
  unfold Obligations.ClearStartsASession
  exact ⟨rfl, allIllegal_of_no_fields rfl rfl, fun s => ⟨_, _, exec_clear s,
    fun sym => ⟨entry_replicate 0 sym, entry_replicate CodeEntry.absent sym⟩⟩⟩

end Sys2Proof.Machine
end

section
/-! PROOFS. The statements of the family 41_frequency: the commands SETF, CNT and RDFREQ, each on one entry of FREQ. -/

namespace Sys2Proof.Machine

open Sys2Proof

/-! ### Commands whose only operand is SYM -/

/-- The command word 0, 0, SYM, OPC (R70). -/
theorem assemble_sym (opc sym : Byte) : assemble opc sym 0 = 0#16 ++ sym ++ opc := rfl

/-- An opcode that does not use AUX has no legal word with AUX or RSV not 0 (R71). -/
theorem allIllegal_of_no_aux {opc : Byte} (haux : usesAux opc = false) :
    AllIllegal (fun w => w.extractLsb' 0 8 = opc ∧ (w.extractLsb' 16 8 ≠ 0 ∨ w.extractLsb' 24 8 ≠ 0)) := by
  refine allIllegal_of_not_legalWord ?_
  rintro w ⟨rfl, hne | hne⟩ hlegal
  · exact hne (hlegal.aux.resolve_left (Bool.eq_false_iff.mp haux))
  · exact hne hlegal.rsv

/-! ### What SETF, CNT and RDFREQ do -/

theorem phaseOk_setf (s : State) (sym : Byte) : phaseOk s (.setf sym) = !s.built := rfl

theorem phaseOk_cnt (s : State) (sym : Byte) : phaseOk s (.cnt sym) = !s.built := rfl

theorem exec_setf {s : State} (sym : Byte) (hb : s.built = false) :
    exec (.setf sym) s = .next (s.setFreq sym s.opa).ok := by
  show execSetf sym s = _
  rw [execSetf, guarded_of_ok _ rfl (by rw [phaseOk_setf, hb, Bool.not_false]), done]

/-- CNT of the greatest frequency fails and leaves it (R102). -/
theorem exec_cnt_of_max {s : State} {sym : Byte} (hb : s.built = false) (hmax : entry s.freq sym = 0xFFFFFFFF) :
    exec (.cnt sym) s = fail (.cnt sym) .freqOverflow (zextByte sym) s := by
  show execCnt sym s = _
  rw [execCnt, guarded_of_ok _ rfl (by rw [phaseOk_cnt, hb, Bool.not_false]), if_pos hmax]

theorem exec_cnt_of_ne_max {s : State} {sym : Byte} (hb : s.built = false) (hmax : entry s.freq sym ≠ 0xFFFFFFFF) :
    exec (.cnt sym) s = .next (s.setFreq sym (entry s.freq sym + 1)).ok := by
  show execCnt sym s = _
  rw [execCnt, guarded_of_ok _ rfl (by rw [phaseOk_cnt, hb, Bool.not_false]), if_neg hmax, done]

theorem exec_rdfreq (sym : Byte) (s : State) : exec (.rdfreq sym) s = .next (s.setRes (entry s.freq sym)).ok :=
  guarded_of_ok (i := .rdfreq sym) _ rfl rfl

/-- The frequency that CNT may not raise (R102). -/
theorem eq_maxWord_iff (f : Word) : f = 0xFFFFFFFF ↔ f.toNat = 2 ^ 32 - 1 :=
  BitVec.toNat_inj.symm

/-- Below 2^32 − 1 one more occurrence does not wrap. -/
theorem toNat_add_one_of_ne_max {f : Word} (h : f.toNat ≠ 2 ^ 32 - 1) : (f + 1).toNat = f.toNat + 1 :=
  BitVec.toNat_add_of_lt (show f.toNat + 1 < 2 ^ 32 by omega)

/-! ### The statements -/

/-- Settles O28: SETF in phase is one write of FREQ. -/
theorem setfLoadsOneFrequency : Obligations.SetfLoadsOneFrequency := by
  unfold Obligations.SetfLoadsOneFrequency
  refine ⟨allIllegal_of_no_aux rfl, fun sym s => ⟨assemble_sym _ sym, fun hb => ?_, fun hb => ?_⟩⟩
  · exact failsWith_phaseError rfl (by rw [phaseOk_setf, hb, Bool.not_true])
  · exact ⟨_, exec_setf sym hb, entry_setEntry_same _ sym _, fun x hx => entry_setEntry_other _ _ hx⟩

/-- Settles O29: CNT in phase is one write of FREQ, but for the value 2^32 − 1, whose successor would wrap. -/
theorem cntCountsOneOccurrence : Obligations.CntCountsOneOccurrence := by
  unfold Obligations.CntCountsOneOccurrence
  refine ⟨allIllegal_of_no_aux rfl,
    fun sym s => ⟨assemble_sym _ sym, fun hb => ?_, fun hb hmax => ?_, fun hb hmax => ?_⟩⟩
  · exact failsWith_phaseError rfl (by rw [phaseOk_cnt, hb, Bool.not_true])
  · exact exec_cnt_of_max hb ((eq_maxWord_iff _).mpr hmax)
  · have hne : entry s.freq sym ≠ 0xFFFFFFFF := mt (eq_maxWord_iff _).mp hmax
    refine ⟨_, exec_cnt_of_ne_max hb hne, ?_, fun x hx => entry_setEntry_other _ _ hx⟩
    rw [State.setFreq_freq, entry_setEntry_same, toNat_add_one_of_ne_max hmax]

/-- Settles O30: RDFREQ has no precondition. -/
theorem rdfreqReadsOneFrequency : Obligations.RdfreqReadsOneFrequency := by
  unfold Obligations.RdfreqReadsOneFrequency
  exact ⟨allIllegal_of_no_aux rfl, fun sym s => ⟨assemble_sym _ sym, exec_rdfreq sym s⟩⟩

end Sys2Proof.Machine
end

section
/-! PROOFS. The statements of the family 42_tree_builder: RDNODE, the three cases of BUILD, the heap as a priority queue,
the tree it builds against the tree of the sorted list, and that tree's shape. -/

namespace Sys2Proof.Machine

open Sys2Proof

/-! ### RDNODE -/

/-- RDNODE has no legal word with AUX above 2 or with SYM or RSV not 0 (R71, R120). -/
theorem allIllegal_rdnode : AllIllegal (fun w => w.extractLsb' 0 8 = 0x07 ∧
    (2 < (w.extractLsb' 16 8).toNat ∨ w.extractLsb' 8 8 ≠ 0 ∨ w.extractLsb' 24 8 ≠ 0)) := by
  refine allIllegal_of_not_legalWord ?_
  rintro w ⟨hopc, hbad⟩ hlegal
  have hopc' : fieldOpc w = 0x07 := hopc
  have hrange : auxInRange 0x07 (fieldAux w) = true := hopc' ▸ hlegal.range
  have hsym : usesSym 0x07 = true ∨ fieldSym w = 0 := hopc' ▸ hlegal.sym
  rcases hbad with haux | hne | hne
  · exact absurd (of_decide_eq_true hrange) (Nat.not_le.mpr haux)
  · exact hne (hsym.resolve_left (by decide))
  · exact hne hlegal.rsv

section
variable {aux : Byte} {s : State} (haux : aux.toNat ≤ 2) (hb : s.built = true)
include haux hb

theorem rdnode_wellFormed_phaseOk :
    (Instr.rdnode aux).wellFormed = true ∧ phaseOk s (.rdnode aux) = true :=
  ⟨decide_eq_true haux, hb⟩

theorem exec_rdnode_of_out_of_range (hn : s.nnode.toNat ≤ s.opa.toNat) :
    exec (.rdnode aux) s = fail (.rdnode aux) .addressRange s.opa s := by
  obtain ⟨hw, hp⟩ := rdnode_wellFormed_phaseOk haux hb
  show execRdnode aux s = _
  rw [execRdnode, guarded_of_ok _ hw hp]
  exact if_pos hn

theorem exec_rdnode_of_valid (hn : s.opa.toNat < s.nnode.toNat) :
    exec (.rdnode aux) s = .next (s.setRes (nodeField (nodeAt s.node s.opa.toNat) aux)).ok := by
  obtain ⟨hw, hp⟩ := rdnode_wellFormed_phaseOk haux hb
  show execRdnode aux s = _
  rw [execRdnode, guarded_of_ok _ hw hp]
  exact if_neg (Nat.not_le.mpr hn)

end

/-- The field word for AUX = 2 is zero-extended (R120). -/
theorem nodeField_two (e : Node) : nodeField e 2 = 0#24 ++ e.nfreq.extractLsb' 32 8 :=
  BitVec.setWidth_eq_append (v := 8) (w := 32) (by decide)

/-- Settles O38: in phase and in range RDNODE is one read of NODE, and AUX names the field word. -/
theorem rdnodeReadsOneNodeField : Obligations.RdnodeReadsOneNodeField := by
  unfold Obligations.RdnodeReadsOneNodeField
  refine ⟨allIllegal_rdnode, fun aux s haux => ⟨rfl, fun hb => ?_, fun hb hn => ?_, fun hb hn => ?_⟩⟩
  · exact failsWith_phaseError (decide_eq_true haux) hb
  · exact exec_rdnode_of_out_of_range haux hb hn
  · have hexec := exec_rdnode_of_valid haux hb hn
    refine ⟨?_, ?_, ?_⟩ <;> rintro rfl
    · exact hexec
    · exact hexec
    · rw [hexec, nodeField_two]; rfl

/-! ### The three cases of BUILD -/

theorem mem_toList_iff_entry {α : Type} {v : Vector α 256} {x : α} : x ∈ v.toList ↔ ∃ sym, entry v sym = x := by
  constructor
  · intro hx
    obtain ⟨i, hi, rfl⟩ := List.mem_iff_getElem.mp hx
    refine ⟨BitVec.ofNat 8 i, ?_⟩
    have hi' : i < 256 := by simpa using hi
    simp [entry, Nat.mod_eq_of_lt hi']
  · rintro ⟨sym, rfl⟩
    exact List.getElem_mem (l := v.toList) (by simpa using sym.isLt)

theorem symbolCount_eq_zero_iff {freq : Vector Word 256} : symbolCount freq = 0 ↔ ∀ sym, entry freq sym = 0 := by
  rw [symbolCount, List.countP_eq_zero]
  simp only [mem_toList_iff_entry, bne_iff_ne, ne_eq, not_not, forall_exists_index, forall_apply_eq_imp_iff]

/-- A frequency table with one present symbol. -/
def singleFreq (x : Byte) (f : Word) : Vector Word 256 := setEntry (Vector.replicate 256 0) x f

theorem eq_singleFreq {freq : Vector Word 256} {x : Byte} (h : ∀ sym, sym ≠ x → entry freq sym = 0) :
    freq = singleFreq x (entry freq x) := by
  refine entry_ext fun sym => ?_
  by_cases hs : sym = x
  · rw [hs, singleFreq, entry_setEntry_same]
  · rw [singleFreq, entry_setEntry_other _ _ hs, entry_replicate, h sym hs]

theorem toList_singleFreq (x : Byte) (f : Word) :
    (singleFreq x f).toList = (List.replicate 256 0).set x.toNat f := by
  rw [singleFreq, setEntry, Vector.toList_set, Vector.toList_replicate]

section
variable {n i : Nat} (hi : i < n) {f : Word} (hf : f ≠ 0)
include hi hf

theorem countP_set_replicate_zero : ((List.replicate n (0 : Word)).set i f).countP (fun f => f != 0) = 1 := by
  rw [List.countP_set (by simpa using hi)]
  simpa [List.countP_replicate] using hf

theorem findIdx_set_replicate_zero : ((List.replicate n (0 : Word)).set i f).findIdx (fun f => f != 0) = i := by
  refine (List.findIdx_eq (by simpa using hi)).mpr ⟨by simpa using hf, fun j hj => ?_⟩
  simp [List.getElem_set_ne (Nat.ne_of_gt hj)]

end

theorem symbolCount_singleFreq (x : Byte) {f : Word} (hf : f ≠ 0) : symbolCount (singleFreq x f) = 1 := by
  rw [symbolCount, toList_singleFreq, countP_set_replicate_zero x.isLt hf]

theorem firstSymbol_singleFreq (x : Byte) {f : Word} (hf : f ≠ 0) : firstSymbol (singleFreq x f) = x := by
  rw [firstSymbol, toList_singleFreq, findIdx_set_replicate_zero x.isLt hf, BitVec.ofNat_toNat, BitVec.setWidth_eq]

/-- TOTAL_BITS sums over the symbols (R133). -/
theorem weightedSum_eq_sum (fs : List Word) (es : List CodeEntry) :
    weightedSum fs es = (List.zipWith (fun f e => f.toNat * e.len.toNat) fs es).sum := by
  induction fs generalizing es with
  | nil => rfl
  | cons f fs ih =>
    cases es with
    | nil => rfl
    | cons e es => rw [weightedSum, List.zipWith_cons_cons, List.sum_cons, ih]

theorem weightedSum_toList {n : Nat} (freq : Vector Word n) (ct : Vector CodeEntry n) :
    weightedSum freq.toList ct.toList = ∑ i : Fin n, freq[i].toNat * ct[i].len.toNat := by
  have hzip : List.zipWith (fun f e => f.toNat * e.len.toNat) freq.toList ct.toList =
      List.ofFn fun i : Fin n => freq[i].toNat * ct[i].len.toNat :=
    List.ext_getElem (by simp) fun i h1 h2 => by simp
  rw [weightedSum_eq_sum, hzip, List.sum_ofFn]

theorem totalBitsOf_absent (freq : Vector Word 256) :
    totalBitsOf freq (Vector.replicate 256 CodeEntry.absent) = 0 := by
  rw [totalBitsOf, weightedSum_toList, Finset.sum_eq_zero fun i _ => by simp [CodeEntry.absent]]
  rfl

/-- One code of length 1 weighs its symbol's frequency (R132, R133). -/
theorem totalBitsOf_degenerateTable (freq : Vector Word 256) (x : Byte) :
    totalBitsOf freq (degenerateTable x) = (entry freq x).setWidth 48 := by
  have hsum : weightedSum freq.toList (degenerateTable x).toList = (entry freq x).toNat := by
    rw [weightedSum_toList, Finset.sum_eq_single (⟨x.toNat, x.isLt⟩ : Fin 256)]
    · simp [degenerateTable, setEntry, entry]
    · intro i _ hi
      have hne : x.toNat ≠ i.val := fun he => hi (Fin.ext he.symm)
      simp [degenerateTable, setEntry, CodeEntry.absent, hne]
    · exact fun h => absurd (Finset.mem_univ _) h
  rw [totalBitsOf, hsum, BitVec.ofNat_toNat]

section
variable {s : State} (hb : s.built = false) (he : s.encOpen = false)
include hb he

theorem phaseOk_build : phaseOk s .build = true := by
  simp [phaseOk, hb, he]

theorem exec_build_of_none (hk : symbolCount s.freq = 0) : exec .build s =
    .next (s.setTree s.node .empty 0 0 0 (Vector.replicate 256 CodeEntry.absent)).ok := by
  show execBuild s = _
  rw [execBuild, guarded_of_ok _ rfl (phaseOk_build hb he), if_pos hk, done]

theorem exec_build_of_one (hk : symbolCount s.freq = 1) : exec .build s =
    .next (s.setTree
      (s.node.setIfInBounds 0 (leafNode (firstSymbol s.freq) (entry s.freq (firstSymbol s.freq))))
      .degenerate 1 1 0 (degenerateTable (firstSymbol s.freq))).ok := by
  show execBuild s = _
  rw [execBuild, guarded_of_ok _ rfl (phaseOk_build hb he), if_neg (by omega), if_pos hk, done]

theorem exec_build_of_many (hk : 2 ≤ symbolCount s.freq) : exec .build s = finishBuild (buildTree s) s := by
  show execBuild s = _
  rw [execBuild, guarded_of_ok _ rfl (phaseOk_build hb he), if_neg (by omega), if_neg (by omega)]

end

/-- The node file after a DEGENERATE build: its one leaf is node 0 (R119). -/
theorem nodeAt_setIfInBounds_zero (v : Vector Node 511) (e : Node) : nodeAt (v.setIfInBounds 0 e) 0 = e := by
  simp [nodeAt_setIfInBounds]

/-- Settles O31: the count of the present symbols selects the case, and in the DEGENERATE one the table of frequencies is
one entry. -/
theorem buildOfNoneOrOneSymbol : Obligations.BuildOfNoneOrOneSymbol := by
  unfold Obligations.BuildOfNoneOrOneSymbol
  refine fun s hb he => ⟨fun h0 => ?_, fun x hx hother => ?_⟩
  · refine ⟨Vector.replicate 256 CodeEntry.absent, ?_, fun sym => entry_replicate _ sym⟩
    rw [exec_build_of_none hb he (symbolCount_eq_zero_iff.mpr h0), State.setTree, totalBitsOf_absent]
    rfl
  · have hfreq := eq_singleFreq hother
    have hcount : symbolCount s.freq = 1 := by rw [hfreq, symbolCount_singleFreq x hx]
    have hfirst : firstSymbol s.freq = x := by rw [hfreq, firstSymbol_singleFreq x hx]
    refine ⟨s.node.setIfInBounds 0 (leafNode x (entry s.freq x)), degenerateTable x, ?_,
      nodeAt_setIfInBounds_zero _ _, entry_setEntry_same _ x _, fun sym hsym => ?_⟩
    · rw [exec_build_of_one hb he hcount, hfirst, State.setTree, totalBitsOf_degenerateTable]
      rfl
    · exact (entry_setEntry_other _ _ hsym).trans (entry_replicate _ sym)

/-! ### The key of the queue -/

/-- The key (NFREQ, node id) of R112 as one number: the order of the queue is the order of these. -/
def queueKey (node : Vector Node 511) (n : NodeId) : Nat := (nodeAt node n.toNat).nfreq.toNat * 512 + n.toNat

theorem less_eq_true_iff {node : Vector Node 511} {a b : NodeId} :
    less node a b = true ↔ queueKey node a < queueKey node b := by
  have ha := a.isLt
  have hb := b.isLt
  simp only [less, queueKey, Bool.or_eq_true, Bool.and_eq_true, decide_eq_true_eq, BitVec.lt_def, ← BitVec.toNat_inj]
  omega

theorem less_eq_false_iff {node : Vector Node 511} {a b : NodeId} :
    less node a b = false ↔ queueKey node b ≤ queueKey node a := by
  rw [← Bool.not_eq_true, less_eq_true_iff, Nat.not_lt]

theorem queueKey_injective (node : Vector Node 511) : Function.Injective (queueKey node) := by
  intro a b h
  have ha := a.isLt
  have hb := b.isLt
  unfold queueKey at h
  exact BitVec.eq_of_toNat_eq (by omega)

/-! ### The heap order -/

/-- The key at a position of HEAP. -/
def keyAt (node : Vector Node 511) (heap : Vector NodeId 256) (i : Nat) : Nat := queueKey node (heapAt heap i)

/-- No entry among the first `size` has a smaller key than its parent (R112). -/
def HeapOrdered (node : Vector Node 511) (heap : Vector NodeId 256) (size : Nat) : Prop :=
  ∀ j, 0 < j → j < size → keyAt node heap ((j - 1) / 2) ≤ keyAt node heap j

theorem Builder.ordered_iff {b : Builder} : b.ordered ↔ HeapOrdered b.node b.heap b.hsize := by
  simp only [Builder.ordered, HeapOrdered, less_eq_false_iff, keyAt]

theorem less_heapAt_iff {node : Vector Node 511} {heap : Vector NodeId 256} {i j : Nat} :
    less node (heapAt heap i) (heapAt heap j) = true ↔ keyAt node heap i < keyAt node heap j :=
  less_eq_true_iff

theorem keyAt_heapSwap (node : Vector Node 511) (heap : Vector NodeId 256) {i j : Nat} (hi : i < 256) (hj : j < 256)
    (n : Nat) : keyAt node (heapSwap heap i j) n =
      if n = j then keyAt node heap i else if n = i then keyAt node heap j else keyAt node heap n := by
  simp only [keyAt, heapAt_heapSwap heap hi hj]
  split_ifs <;> rfl

/-- The heap order but for the entry at `i`, which may be less than its parent: what `insert` has before each pass. -/
structure OrderedBut (node : Vector Node 511) (heap : Vector NodeId 256) (size i : Nat) : Prop where
  others : ∀ j, 0 < j → j < size → j ≠ i → keyAt node heap ((j - 1) / 2) ≤ keyAt node heap j
  children : ∀ j, 0 < i → 0 < j → j < size → (j - 1) / 2 = i → keyAt node heap ((i - 1) / 2) ≤ keyAt node heap j

/-- The heap order but for the children of `i`, which may be less than the entry at `i`: what `removeMin` has before each
pass. -/
structure OrderedBelowBut (node : Vector Node 511) (heap : Vector NodeId 256) (size i : Nat) : Prop where
  others : ∀ j, 0 < j → j < size → (j - 1) / 2 ≠ i → keyAt node heap ((j - 1) / 2) ≤ keyAt node heap j
  children : ∀ j, 0 < i → 0 < j → j < size → (j - 1) / 2 = i → keyAt node heap ((i - 1) / 2) ≤ keyAt node heap j

section
variable {node : Vector Node 511} {heap : Vector NodeId 256} {size i : Nat}

/-- A pass of `insert` moves the exception to the parent: the old parent is not above its other child, nor above the
children of the entry that rises. -/
theorem OrderedBut.swap (h : OrderedBut node heap size i) (hi0 : 0 < i) (hi : i < size) (hs : size ≤ 256)
    (hless : keyAt node heap i < keyAt node heap ((i - 1) / 2)) :
    OrderedBut node (heapSwap heap i ((i - 1) / 2)) size ((i - 1) / 2) := by
  have hswap := keyAt_heapSwap node heap (i := i) (j := (i - 1) / 2) (by omega) (by omega)
  constructor
  · intro j hj0 hj hne
    have hothers := h.others j hj0 hj
    have hchildren := h.children j hi0 hj0 hj
    rw [hswap, hswap]
    grind
  · intro j hp0 hj0 hj hparent
    have hothers := h.others j hj0 hj
    have hgrand := h.others ((i - 1) / 2) hp0 (by omega) (by omega)
    rw [hswap, hswap]
    grind

theorem siftUp_ordered (hs : size ≤ 256) {fuel : Nat} (hf : i ≤ fuel) (hi : i < size)
    (h : OrderedBut node heap size i) : HeapOrdered node (siftUp node fuel heap i) size := by
  induction fuel generalizing heap i with
  | zero => exact fun j hj0 hj => h.others j hj0 hj (by omega)
  | succ fuel ih =>
    rw [siftUp]
    split
    · next hi0 => exact fun j hj0 hj => h.others j hj0 hj (by omega)
    · next hi0 =>
      split
      · next hless => exact ih (by omega) (by omega) (h.swap (by omega) hi hs (less_heapAt_iff.mp hless))
      · next hless =>
        intro j hj0 hj
        by_cases hji : j = i
        · rw [hji]; exact Nat.not_lt.mp (mt less_heapAt_iff.mpr hless)
        · exact h.others j hj0 hj hji

theorem leastChild_eq_or (node : Vector Node 511) (heap : Vector NodeId 256) (size i : Nat) :
    leastChild node heap size i = i ∨ 0 < leastChild node heap size i ∧
      (leastChild node heap size i - 1) / 2 = i ∧ leastChild node heap size i < size := by
  unfold leastChild
  dsimp only
  split_ifs <;> omega

/-- The least child has the smallest key of a position and its children (R112). -/
theorem keyAt_leastChild_le (node : Vector Node 511) (heap : Vector NodeId 256) (size i : Nat) :
    keyAt node heap (leastChild node heap size i) ≤ keyAt node heap i ∧
      ∀ j, 0 < j → j < size → (j - 1) / 2 = i →
        keyAt node heap (leastChild node heap size i) ≤ keyAt node heap j := by
  have hchild : ∀ j, 0 < j → (j - 1) / 2 = i → j = 2 * i + 1 ∨ j = 2 * i + 2 := by omega
  unfold leastChild
  simp only [less_heapAt_iff]
  split_ifs <;> grind

/-- A pass of `removeMin` moves the exception to the lesser child, which is not above its sibling and whose own children
are not below it. -/
theorem OrderedBelowBut.swap (h : OrderedBelowBut node heap size i) (hi : i < size) (hs : size ≤ 256) {m : Nat}
    (hm0 : 0 < m) (hmi : (m - 1) / 2 = i) (hm : m < size) (hleast : ∀ j, 0 < j → j < size → (j - 1) / 2 = i →
      keyAt node heap m ≤ keyAt node heap j) (hle : keyAt node heap m ≤ keyAt node heap i) :
    OrderedBelowBut node (heapSwap heap i m) size m := by
  have hswap := keyAt_heapSwap node heap (i := i) (j := m) (by omega) (by omega)
  constructor
  · intro j hj0 hj hne
    have hothers := h.others j hj0 hj
    have hchildren := h.children m
    have hj' := hleast j hj0 hj
    rw [hswap, hswap]
    grind
  · intro j _ hj0 hj hparent
    have hothers := h.others j hj0 hj
    rw [hswap, hswap]
    grind

theorem siftDown_ordered (hs : size ≤ 256) {fuel : Nat} (hf : size ≤ fuel + i)
    (h : OrderedBelowBut node heap size i) : HeapOrdered node (siftDown node size fuel heap i) size := by
  induction fuel generalizing heap i with
  | zero => exact fun j hj0 hj => h.others j hj0 hj (by omega)
  | succ fuel ih =>
    obtain ⟨hle, hleast⟩ := keyAt_leastChild_le node heap size i
    rw [siftDown]
    split
    · next hm =>
      rw [hm] at hleast
      intro j hj0 hj
      by_cases hji : (j - 1) / 2 = i
      · rw [hji]; exact hleast j hj0 hj hji
      · exact h.others j hj0 hj hji
    · next hm =>
      obtain ⟨hm0, hmi, hms⟩ := (leastChild_eq_or node heap size i).resolve_left hm
      exact ih (by omega) (h.swap (by omega) hs hm0 hmi hms hleast hle)

/-- In a heap no key is below the top's. -/
theorem HeapOrdered.top_le (h : HeapOrdered node heap size) {j : Nat} (hj : j < size) :
    keyAt node heap 0 ≤ keyAt node heap j := by
  induction j using Nat.strong_induction_on with
  | _ j ih =>
    by_cases hj0 : j = 0
    · rw [hj0]
    · exact (ih ((j - 1) / 2) (by omega) (by omega)).trans (h j (by omega) hj)

end

/-! ### The ids in the heap -/

/-- The first `size` ids of HEAP. -/
def heapIds (heap : Vector NodeId 256) (size : Nat) : List NodeId := heap.toList.take size

theorem Builder.queue_eq_heapIds (b : Builder) : b.queue = heapIds b.heap b.hsize := rfl

theorem heapIds_setIfInBounds (heap : Vector NodeId 256) (size i : Nat) (n : NodeId) :
    heapIds (heap.setIfInBounds i n) size = (heapIds heap size).set i n := by
  rw [heapIds, Vector.toList_setIfInBounds, List.take_set, heapIds]

section
variable {node : Vector Node 511} {heap : Vector NodeId 256} {size : Nat} (hs : size ≤ 256)
include hs

theorem length_heapIds : (heapIds heap size).length = size := by
  simpa [heapIds] using hs

theorem getElem_heapIds {i : Nat} (h : i < (heapIds heap size).length) : (heapIds heap size)[i] = heapAt heap i := by
  have hi : i < 256 := by rw [length_heapIds hs] at h; omega
  simp [heapIds, heapAt, hi]

theorem mem_heapIds {n : NodeId} : n ∈ heapIds heap size ↔ ∃ i, i < size ∧ heapAt heap i = n := by
  simp only [List.mem_iff_getElem, getElem_heapIds hs, length_heapIds hs, exists_prop]

theorem heapIds_heapSwap_perm {i j : Nat} (hi : i < size) (hj : j < size) :
    (heapIds (heapSwap heap i j) size).Perm (heapIds heap size) := by
  have hperm := List.set_set_perm (as := heapIds heap size) (i := i) (j := j) (by rwa [length_heapIds hs])
    (by rwa [length_heapIds hs])
  rwa [getElem_heapIds hs, getElem_heapIds hs, ← heapIds_setIfInBounds, ← heapIds_setIfInBounds] at hperm

theorem siftUp_perm (fuel : Nat) {i : Nat} (hi : i < size) :
    (heapIds (siftUp node fuel heap i) size).Perm (heapIds heap size) := by
  induction fuel generalizing heap i with
  | zero => rfl
  | succ fuel ih =>
    rw [siftUp]
    split
    · rfl
    · split
      · exact (ih (by omega)).trans (heapIds_heapSwap_perm hs hi (by omega))
      · rfl

theorem siftDown_perm (fuel i : Nat) :
    (heapIds (siftDown node size fuel heap i) size).Perm (heapIds heap size) := by
  induction fuel generalizing heap i with
  | zero => rfl
  | succ fuel ih =>
    rw [siftDown]
    split
    · rfl
    · next hm =>
      obtain ⟨hm0, hmi, hms⟩ := (leastChild_eq_or node heap size i).resolve_left hm
      exact (ih _).trans (heapIds_heapSwap_perm hs (by omega) hms)

end

theorem heapIds_succ {heap : Vector NodeId 256} {size : Nat} (hs : size < 256) :
    heapIds heap (size + 1) = heapIds heap size ++ [heapAt heap size] := by
  rw [heapIds, List.take_succ_eq_append_getElem (by simpa using hs), heapIds]
  simp [heapAt, hs]

/-! ### `insert` and `removeMin` -/

theorem Builder.insert_ordered {b : Builder} (hb : b.ordered) (n : NodeId) (hs : b.hsize < 256) : (b.insert n).ordered := by
  rw [Builder.ordered_iff] at hb ⊢
  have hkey : ∀ j, j < b.hsize → keyAt b.node (b.heap.setIfInBounds b.hsize n) j = keyAt b.node b.heap j := by
    intro j hj
    rw [keyAt, heapAt_setIfInBounds, if_neg (by omega), keyAt]
  refine siftUp_ordered (size := b.hsize + 1) (by omega) le_rfl (by omega) ⟨?_, ?_⟩
  · intro j hj0 hj hne
    rw [Builder.insert_node, hkey j (by omega), hkey ((j - 1) / 2) (by omega)]
    exact hb j hj0 (by omega)
  · omega

theorem Builder.insert_queue_perm (b : Builder) (n : NodeId) (hs : b.hsize < 256) :
    (b.insert n).queue.Perm (n :: b.queue) := by
  have hids : heapIds (b.heap.setIfInBounds b.hsize n) (b.hsize + 1) = heapIds b.heap b.hsize ++ [n] := by
    rw [heapIds_succ hs, heapIds_setIfInBounds, heapAt_setIfInBounds, if_pos ⟨rfl, hs⟩,
      List.set_eq_of_length_le (length_heapIds hs.le).le]
  calc (b.insert n).queue
      = heapIds (siftUp b.node b.hsize (b.heap.setIfInBounds b.hsize n) b.hsize) (b.hsize + 1) := rfl
    _ |>.Perm (heapIds (b.heap.setIfInBounds b.hsize n) (b.hsize + 1)) := siftUp_perm hs _ (Nat.lt_succ_self _)
    _ |>.Perm (n :: b.queue) := by rw [hids]; exact List.perm_append_singleton n _

theorem Builder.pop_ordered {b : Builder} (hb : b.ordered) (hs : b.hsize ≤ 256) : b.pop.ordered := by
  rw [Builder.ordered_iff] at hb ⊢
  have hkey : ∀ j, 0 < j → keyAt b.node (b.heap.setIfInBounds 0 (heapAt b.heap (b.hsize - 1))) j =
      keyAt b.node b.heap j := by
    intro j hj
    rw [keyAt, heapAt_setIfInBounds, if_neg (by omega), keyAt]
  refine siftDown_ordered (size := b.hsize - 1) (by omega) (by omega) ⟨?_, ?_⟩
  · intro j hj0 hj hne
    rw [Builder.pop_node, hkey j hj0, hkey ((j - 1) / 2) (by omega)]
    exact hb j hj0 (by omega)
  · omega

/-- Moving the last entry to the top is, among the entries that stay, the swap of the two. -/
theorem Builder.queue_perm_top_cons_pop (b : Builder) (h0 : 0 < b.hsize) (hs : b.hsize ≤ 256) :
    b.queue.Perm (b.top :: b.pop.queue) := by
  obtain ⟨m, hm⟩ : ∃ m, b.hsize = m + 1 := ⟨b.hsize - 1, by omega⟩
  have hswap : heapIds (heapSwap b.heap 0 m) (m + 1) =
      heapIds (b.heap.setIfInBounds 0 (heapAt b.heap m)) m ++ [b.top] := by
    rw [heapIds_succ (by omega), heapAt_heapSwap _ (by omega) (by omega), if_pos rfl, heapSwap,
      heapIds_setIfInBounds, List.set_eq_of_length_le (length_heapIds (by omega)).le]
    rfl
  have hpop : b.pop.queue = heapIds (siftDown b.node m (m + 1) (b.heap.setIfInBounds 0 (heapAt b.heap m)) 0) m := by
    rw [Builder.queue_eq_heapIds, Builder.pop, hm, Nat.add_sub_cancel]
  rw [Builder.queue_eq_heapIds, hm, hpop]
  calc heapIds b.heap (m + 1)
    _ |>.Perm (heapIds (heapSwap b.heap 0 m) (m + 1)) := (heapIds_heapSwap_perm (by omega) (by omega) (by omega)).symm
    _ |>.Perm (b.top :: heapIds (b.heap.setIfInBounds 0 (heapAt b.heap m)) m) := by
      rw [hswap]; exact List.perm_append_singleton _ _
    _ |>.Perm _ := ((siftDown_perm (by omega) _ _).symm.cons b.top)

theorem Builder.top_less {b : Builder} (hb : b.ordered) (hs : b.hsize ≤ 256) {n : NodeId} (hn : n ∈ b.queue)
    (hne : n ≠ b.top) : less b.node b.top n = true := by
  obtain ⟨j, hj, rfl⟩ := (mem_heapIds hs).mp hn
  have hle := (Builder.ordered_iff.mp hb).top_le hj
  exact less_eq_true_iff.mpr (lt_of_le_of_ne hle fun he => hne (queueKey_injective b.node he).symm)

/-- Settles O35: the loops of `insert` and `removeMin` are swaps that each move the one exception to the heap order up to
the parent or down to the lesser child. -/
theorem heapIsAPriorityQueue : Obligations.HeapIsAPriorityQueue := by
  unfold Obligations.HeapIsAPriorityQueue
  exact fun b hb => ⟨fun n hs => ⟨Builder.insert_ordered hb n hs, b.insert_queue_perm n hs⟩,
    fun h0 hs => ⟨b.queue_perm_top_cons_pop h0 hs, Builder.pop_ordered hb hs, fun n hn => Builder.top_less hb hs hn⟩⟩

/-! ### The sorted-list queue -/

/-- The key (NFREQ, id) of R112 on the ids of a list of nodes, as one number. -/
def listKey (nodes : List Node) (n : Nat) : Nat := freqIn nodes n * 512 + n

theorem keyLess_eq_true_iff {nodes : List Node} {a b : Nat} (ha : a < 512) (hb : b < 512) :
    keyLess nodes a b = true ↔ listKey nodes a < listKey nodes b := by
  simp only [keyLess, listKey, Bool.or_eq_true, Bool.and_eq_true, decide_eq_true_eq]
  omega

theorem freqIn_append_of_lt {nodes : List Node} {n : Nat} (hn : n < nodes.length) (es : List Node) :
    freqIn (nodes ++ es) n = freqIn nodes n := by
  rw [freqIn, freqIn, List.getElem?_append_left hn]

theorem listKey_append_of_lt {nodes : List Node} {n : Nat} (hn : n < nodes.length) (es : List Node) :
    listKey (nodes ++ es) n = listKey nodes n := by
  rw [listKey, listKey, freqIn_append_of_lt hn]

/-- The node that a merge of the sorted-list builder creates (R113, R115). -/
def mergedNode (nodes : List Node) (x y : Nat) : Node :=
  ⟨false, 0, BitVec.ofNat 40 (freqIn nodes x + freqIn nodes y), BitVec.ofNat 9 x, BitVec.ofNat 9 y⟩

theorem listMerges_of_two {l : ListBuilder} {x y : Nat} {rest : List Nat} (hq : l.queue = x :: y :: rest) (fuel : Nat) :
    listMerges (fuel + 1) l = listMerges fuel (ListBuilder.add ⟨l.nodes, rest⟩ (mergedNode l.nodes x y)) := by
  rw [listMerges, hq]
  rfl

theorem listMerges_of_le_one {l : ListBuilder} (h : l.queue.length ≤ 1) (fuel : Nat) : listMerges fuel l = l := by
  cases fuel with
  | zero => rfl
  | succ fuel =>
    rw [listMerges]
    split
    · next hq => simp [hq] at h
    · rfl

/-- A queue that is not at its end has two entries to merge. -/
theorem eq_cons_cons_of_one_lt_length {q : List Nat} (h : 1 < q.length) : ∃ x y rest, q = x :: y :: rest := by
  match q, h with
  | x :: y :: rest, _ => exact ⟨x, y, rest, rfl⟩

theorem insertSorted_perm (nodes : List Node) (n : Nat) (q : List Nat) : (insertSorted nodes n q).Perm (n :: q) := by
  induction q with
  | nil => rfl
  | cons x xs ih =>
    rw [insertSorted]
    split
    · rfl
    · exact (ih.cons x).trans (List.Perm.swap n x xs)

theorem insertSorted_sorted {nodes : List Node} {n : Nat} {q : List Nat} (hn : n < 512) (hq : ∀ x ∈ q, x < n)
    (hs : q.Pairwise fun x y => listKey nodes x < listKey nodes y) :
    (insertSorted nodes n q).Pairwise fun x y => listKey nodes x < listKey nodes y := by
  induction q with
  | nil => exact List.pairwise_singleton _ _
  | cons x xs ih =>
    have hx : x < n := hq x List.mem_cons_self
    obtain ⟨hmin, hxs⟩ := List.pairwise_cons.mp hs
    rw [insertSorted]
    split
    · next hless =>
      have hnx := (keyLess_eq_true_iff hn (hx.trans hn)).mp hless
      exact List.pairwise_cons.mpr ⟨List.forall_mem_cons.mpr ⟨hnx, fun y hy => hnx.trans (hmin y hy)⟩, hs⟩
    · next hless =>
      have hxn : listKey nodes x < listKey nodes n := by
        have hle := mt (keyLess_eq_true_iff hn (hx.trans hn)).mpr hless
        unfold listKey at hle ⊢
        omega
      refine List.pairwise_cons.mpr ⟨fun y hy => ?_, ih (fun y hy => hq y (List.mem_cons_of_mem x hy)) hxs⟩
      rcases List.mem_cons.mp ((insertSorted_perm nodes n xs).mem_iff.mp hy) with rfl | hy
      · exact hxn
      · exact hmin y hy

/-! ### The heap and the sorted list in step -/

theorem nodeAt_addNode_of_lt (b : Builder) (e : Node) {n : Nat} (hn : n < b.next) :
    nodeAt (b.addNode e).node n = nodeAt b.node n := by
  rw [Builder.addNode_node, nodeAt_setIfInBounds, if_neg (by omega)]

theorem nodeAt_addNode_next (b : Builder) (e : Node) (hn : b.next < 511) :
    nodeAt (b.addNode e).node b.next = e := by
  rw [Builder.addNode_node, nodeAt_setIfInBounds, if_pos ⟨rfl, hn⟩]

/-- The builder with the heap and the builder with the sorted list have the same nodes and the same ids queued, each in
its own order (R118). -/
structure Simulates (b : Builder) (l : ListBuilder) : Prop where
  length : l.nodes.length = b.next
  bound : b.next ≤ 511
  nodes : ∀ n, n < b.next → l.nodes[n]? = some (nodeAt b.node n)
  room : b.hsize ≤ 256
  ordered : b.ordered
  sorted : l.queue.Pairwise fun x y => listKey l.nodes x < listKey l.nodes y
  queue : l.queue.Perm (b.queue.map BitVec.toNat)
  created : ∀ n ∈ b.queue, n.toNat < b.next

theorem simulates_empty (node : Vector Node 511) (heap : Vector NodeId 256) :
    Simulates ⟨node, heap, 0, 0⟩ ⟨[], []⟩ where
  length := rfl
  bound := Nat.zero_le _
  nodes := nofun
  room := Nat.zero_le _
  ordered := nofun
  sorted := List.Pairwise.nil
  queue := List.Perm.nil
  created := nofun

section
variable {b : Builder} {l : ListBuilder} (h : Simulates b l)
include h

theorem Simulates.length_queue : l.queue.length = b.hsize := by
  rw [h.queue.length_eq, List.length_map, Builder.queue_eq_heapIds, length_heapIds h.room]

theorem Simulates.lt_next {x : Nat} (hx : x ∈ l.queue) : x < b.next := by
  obtain ⟨n, hn, rfl⟩ := List.mem_map.mp (h.queue.mem_iff.mp hx)
  exact h.created n hn

theorem Simulates.freqIn_eq {n : Nat} (hn : n < b.next) : freqIn l.nodes n = (nodeAt b.node n).nfreq.toNat := by
  rw [freqIn, h.nodes n hn, Option.map_some, Option.getD_some]

theorem Simulates.listKey_eq {n : NodeId} (hn : n.toNat < b.next) : listKey l.nodes n.toNat = queueKey b.node n := by
  rw [listKey, h.freqIn_eq hn, queueKey]

/-- Writing the next node leaves the keys of the queue. -/
theorem Simulates.setNode_ordered (e : Node) : (b.setNode b.next e).ordered := by
  have hkey : ∀ i, i < b.hsize → keyAt (b.node.setIfInBounds b.next e) b.heap i = keyAt b.node b.heap i := by
    intro i hi
    have hlt := h.created _ ((mem_heapIds h.room).mpr ⟨i, hi, rfl⟩)
    rw [keyAt, queueKey, nodeAt_setIfInBounds, if_neg (by omega), keyAt, queueKey]
  rw [Builder.ordered_iff]
  intro j hj0 hj
  show keyAt (b.node.setIfInBounds b.next e) b.heap _ ≤ keyAt (b.node.setIfInBounds b.next e) b.heap _
  have hj : j < b.hsize := hj
  rw [hkey j hj, hkey ((j - 1) / 2) (by omega)]
  exact Builder.ordered_iff.mp h.ordered j hj0 hj

theorem Simulates.addNode (e : Node) (hn : b.next < 511) (hs : b.hsize < 256) :
    Simulates (b.addNode e) (l.add e) := by
  have hnext : (BitVec.ofNat 9 b.next).toNat = b.next := toNat_ofNat_of_lt (by omega)
  have hqueue : (b.addNode e).queue.Perm (BitVec.ofNat 9 b.next :: b.queue) :=
    (b.setNode b.next e).insert_queue_perm _ hs
  have hlen := h.length
  refine
    { length := by simp [ListBuilder.add, hlen]
      bound := hn
      nodes := fun n hn' => ?_
      room := hs
      ordered := Builder.insert_ordered (h.setNode_ordered e) _ hs
      sorted := ?_
      queue := ?_
      created := fun n hn' => ?_ }
  · by_cases hlt : n < b.next
    · rw [ListBuilder.add, List.getElem?_append_left (by omega), h.nodes n hlt, nodeAt_addNode_of_lt b e hlt]
    · have hn' : n = b.next := Nat.le_antisymm (Nat.lt_succ_iff.mp hn') (Nat.not_lt.mp hlt)
      rw [hn', nodeAt_addNode_next b e hn, ListBuilder.add, ← hlen, List.getElem?_concat_length]
  · refine insertSorted_sorted (by omega) (fun x hx => hlen ▸ h.lt_next hx) (h.sorted.imp_of_mem fun hx hy hxy => ?_)
    rwa [ListBuilder.add, listKey_append_of_lt (hlen ▸ h.lt_next hx), listKey_append_of_lt (hlen ▸ h.lt_next hy)]
  · calc (l.add e).queue
      _ |>.Perm (l.nodes.length :: l.queue) := insertSorted_perm _ _ _
      _ |>.Perm (b.next :: b.queue.map BitVec.toNat) := by rw [hlen]; exact h.queue.cons _
      _ |>.Perm ((b.addNode e).queue.map BitVec.toNat) := by
        have hids := (hqueue.map BitVec.toNat).symm
        rwa [List.map_cons, hnext] at hids
  · rcases List.mem_cons.mp (hqueue.mem_iff.mp hn') with rfl | hn'
    · rw [hnext]; exact Nat.lt_succ_self _
    · exact (h.created n hn').trans (Nat.lt_succ_self _)

/-- The top of the heap is the head of the sorted list, and removing it keeps the two in step. -/
theorem Simulates.pop {x : Nat} {rest : List Nat} (hq : l.queue = x :: rest) :
    b.top.toNat = x ∧ Simulates b.pop ⟨l.nodes, rest⟩ := by
  have hsize := h.length_queue
  rw [hq, List.length_cons] at hsize
  have hperm := b.queue_perm_top_cons_pop (by omega) h.room
  have hmap : (x :: rest).Perm (b.top.toNat :: b.pop.queue.map BitVec.toNat) :=
    hq ▸ h.queue.trans (hperm.map BitVec.toNat)
  have hsorted := h.sorted
  rw [hq] at hsorted
  obtain ⟨hmin, hrest⟩ := List.pairwise_cons.mp hsorted
  have htop : b.top.toNat = x := by
    by_contra hne
    have hmem : b.top.toNat ∈ rest :=
      (List.mem_cons.mp (hmap.mem_iff.mpr List.mem_cons_self)).resolve_left hne
    obtain ⟨n, hn, rfl⟩ := List.mem_map.mp (h.queue.mem_iff.mp (hq ▸ List.mem_cons_self : x ∈ l.queue))
    have hbelow := less_eq_true_iff.mp (Builder.top_less h.ordered h.room hn fun he => hne (he ▸ rfl))
    have habove := hmin _ hmem
    rw [h.listKey_eq (h.created n hn), h.listKey_eq (h.lt_next (hq ▸ List.mem_cons_of_mem _ hmem))] at habove
    omega
  refine ⟨htop,
    { length := h.length
      bound := h.bound
      nodes := h.nodes
      room := (Nat.sub_le _ _).trans h.room
      ordered := Builder.pop_ordered h.ordered h.room
      sorted := hrest
      queue := ?_
      created := fun n hn => h.created n (hperm.mem_iff.mpr (List.mem_cons_of_mem _ hn)) }⟩
  rw [htop] at hmap
  exact hmap.cons_inv

/-- A merge (R114, R115) of the two builders. -/
theorem Simulates.merge {x y : Nat} {rest : List Nat} (hq : l.queue = x :: y :: rest) (hn : b.next < 511) :
    Simulates b.merge (ListBuilder.add ⟨l.nodes, rest⟩ (mergedNode l.nodes x y)) := by
  obtain ⟨rfl, h1⟩ := h.pop hq
  obtain ⟨rfl, h2⟩ := h1.pop rfl
  have hx : b.top.toNat < b.next := h.lt_next (hq ▸ List.mem_cons_self)
  have hy : b.pop.top.toNat < b.next := h.lt_next (hq ▸ List.mem_cons_of_mem _ List.mem_cons_self)
  have hnode : internalNode b.node b.top b.pop.top = mergedNode l.nodes b.top.toNat b.pop.top.toNat := by
    simp [internalNode, mergedNode, h.freqIn_eq hx, h.freqIn_eq hy, BitVec.ofNat_add]
  have hsize : l.queue.length = b.hsize := h.length_queue
  have hroom := h.room
  rw [← hnode]
  exact h2.addNode _ hn (by simp [hq] at hsize ⊢; omega)

theorem Simulates.loadLeaves (fs : List Word) (sym : Nat) (hn : b.next + fs.length ≤ 511)
    (hs : b.hsize + fs.length ≤ 256) : Simulates (loadLeaves fs sym b) (listLeaves fs sym l) := by
  induction fs generalizing sym b l with
  | nil => exact h
  | cons f fs ih =>
    rw [List.length_cons] at hn hs
    rw [Sys2Proof.Machine.loadLeaves, listLeaves]
    split
    · refine ih (h.addNode _ (by omega) (by omega)) _ ?_ ?_
      · rw [Builder.addNode_next]; omega
      · rw [Builder.addNode_hsize]; omega
    · exact ih h _ (by omega) (by omega)

theorem Simulates.mergeLoop (fuel : Nat) (hn : b.next + b.hsize ≤ 512) :
    Simulates (mergeLoop fuel b) (listMerges fuel l) := by
  induction fuel generalizing b l with
  | zero => exact h
  | succ fuel ih =>
    have hsize := h.length_queue
    by_cases hle : l.queue.length ≤ 1
    · rwa [listMerges_of_le_one hle, mergeLoop_of_le_one (by omega)]
    · obtain ⟨x, y, rest, hq⟩ := eq_cons_cons_of_one_lt_length (Nat.lt_of_not_le hle)
      rw [listMerges_of_two hq, mergeLoop_succ_of_two_le (by omega)]
      refine ih (h.merge hq (by omega)) ?_
      rw [Builder.merge_next, Builder.merge_hsize]
      omega

end

/-- The leaf pass of BUILD leaves one node and one queue entry a present symbol. -/
theorem loadLeaves_start_counts (s : State) :
    (loadLeaves s.freq.toList 0 ⟨s.node, s.heap, 0, 0⟩).next = symbolCount s.freq ∧
      (loadLeaves s.freq.toList 0 ⟨s.node, s.heap, 0, 0⟩).hsize = symbolCount s.freq := by
  simpa [symbolCount] using loadLeaves_counts s.freq.toList 0 ⟨s.node, s.heap, 0, 0⟩

theorem simulates_loadLeaves (s : State) :
    Simulates (loadLeaves s.freq.toList 0 ⟨s.node, s.heap, 0, 0⟩) (listLeaves s.freq.toList 0 ⟨[], []⟩) :=
  (simulates_empty s.node s.heap).loadLeaves s.freq.toList 0 (by simp) (by simp)

/-- BUILD's builder and the sorted-list builder stay in step on every frequency table. -/
theorem simulates_buildTree (s : State) : Simulates (buildTree s) (listTree s.freq) := by
  have hle := symbolCount_le s.freq
  obtain ⟨hnext, hsize⟩ := loadLeaves_start_counts s
  exact (simulates_loadLeaves s).mergeLoop 256 (by omega)

/-- The counts of a GENERAL build's builder (R114, R116). -/
theorem buildTree_counts {s : State} (hk : 2 ≤ symbolCount s.freq) :
    (buildTree s).next = 2 * symbolCount s.freq - 1 ∧ (buildTree s).hsize = 1 := by
  have hle := symbolCount_le s.freq
  obtain ⟨hnext, hsize⟩ := loadLeaves_start_counts s
  obtain ⟨hsize', hnext'⟩ := mergeLoop_counts 256 (loadLeaves s.freq.toList 0 ⟨s.node, s.heap, 0, 0⟩)
    (by omega) (by omega)
  rw [buildTree]
  exact ⟨by omega, hsize'⟩

/-- What a GENERAL build leaves in the registers of the tree and the table. -/
structure BuiltGeneral (s t : State) : Prop where
  count : 2 ≤ symbolCount s.freq
  freq : t.freq = s.freq
  node : t.node = (buildTree s).node
  nnode : t.nnode.toNat = 2 * symbolCount s.freq - 1
  root : t.root.toNat = 2 * symbolCount s.freq - 2
  top : t.root = (buildTree s).top
  ct : t.ct = storeTable (buildTree s).table
  fits : firstTooLong s.params.maxCodeLen (buildTree s).table = none

theorem builtGeneral {s t : State} (h : exec .build s = .next t) (hf : t.lastFail = false) (hk : t.kind = .general) :
    BuiltGeneral s t := by
  rcases exec_next_cases h with ⟨u, -, -, hu, rfl⟩ | ⟨e, info, u, -, rfl⟩
  · cases hu
    case buildEmpty => cases hk
    case buildOne => cases hk
    case buildMany hcount hfits =>
      have hle := symbolCount_le s.freq
      have hroot : (BitVec.ofNat 9 (2 * symbolCount s.freq - 2)).toNat = 2 * symbolCount s.freq - 2 :=
        toNat_ofNat_of_lt (by omega)
      exact
        { count := hcount
          freq := rfl
          node := rfl
          nnode := toNat_ofNat_of_lt (by omega)
          root := by rw [← hroot, ← top_buildTree hcount]; rfl
          top := rfl
          ct := rfl
          fits := hfits }
  · cases hf

theorem BuiltGeneral.next_buildTree {s t : State} (h : BuiltGeneral s t) : (buildTree s).next = t.nnode.toNat := by
  rw [h.nnode, (buildTree_counts h.count).1]

theorem BuiltGeneral.listTree_getElem? {s t : State} (h : BuiltGeneral s t) {n : Nat} (hn : n < t.nnode.toNat) :
    (listTree s.freq).nodes[n]? = some (nodeAt t.node n) := by
  rw [h.node]
  exact (simulates_buildTree s).nodes n (h.next_buildTree ▸ hn)

theorem BuiltGeneral.listTree_queue {s t : State} (h : BuiltGeneral s t) :
    (listTree s.freq).queue = [t.root.toNat] := by
  have hsim := simulates_buildTree s
  have hlen := hsim.length_queue
  rw [(buildTree_counts h.count).2] at hlen
  obtain ⟨x, hx⟩ := List.length_eq_one_iff.mp hlen
  rw [hx, h.top, (hsim.pop hx).1]

/-- Settles O37: the two builders run in step, and every id the heap removes is the head of the sorted list. -/
theorem heapAndSortedListBuildTheSameTree : Obligations.HeapAndSortedListBuildTheSameTree := by
  unfold Obligations.HeapAndSortedListBuildTheSameTree
  intro s t h hf hk
  have hbuilt := builtGeneral h hf hk
  exact ⟨(simulates_buildTree s).length.trans hbuilt.next_buildTree, hbuilt.listTree_queue,
    fun n hn => hbuilt.listTree_getElem? hn⟩

/-! ### The leaves -/

/-- The leaves of the present symbols among frequencies that begin at symbol `sym`, in ascending order (R111). -/
def leafNodes (fs : List Word) (sym : Nat) : List Node :=
  ((fs.zipIdx sym).filter fun p => p.1 != 0).map fun p => leafNode (BitVec.ofNat 8 p.2) p.1

theorem leafNodes_cons_zero (fs : List Word) (sym : Nat) : leafNodes (0 :: fs) sym = leafNodes fs (sym + 1) := rfl

theorem leafNodes_cons_of_ne {f : Word} (hf : f ≠ 0) (fs : List Word) (sym : Nat) :
    leafNodes (f :: fs) sym = leafNode (BitVec.ofNat 8 sym) f :: leafNodes fs (sym + 1) := by
  rw [leafNodes, List.zipIdx_cons, List.filter_cons_of_pos (by simpa using hf), List.map_cons, leafNodes]

theorem length_leafNodes (fs : List Word) (sym : Nat) :
    (leafNodes fs sym).length = fs.countP fun f => f != 0 := by
  induction fs generalizing sym with
  | nil => rfl
  | cons f fs ih =>
    by_cases hf : f = 0
    · rw [hf, leafNodes_cons_zero, ih, List.countP_cons_of_neg (by simp)]
    · rw [leafNodes_cons_of_ne hf, List.length_cons, ih, List.countP_cons_of_pos (by simpa using hf)]

/-- The absent symbols add nothing to the sum of the frequencies. -/
theorem sum_nfreq_leafNodes (fs : List Word) (sym : Nat) :
    ((leafNodes fs sym).map fun e => e.nfreq.toNat).sum = (fs.map fun f => f.toNat).sum := by
  induction fs generalizing sym with
  | nil => rfl
  | cons f fs ih =>
    by_cases hf : f = 0
    · rw [hf, leafNodes_cons_zero, ih]
      simp
    · have hnfreq : (f.setWidth 40).toNat = f.toNat := BitVec.toNat_setWidth_of_le (by decide)
      rw [leafNodes_cons_of_ne hf, List.map_cons, List.sum_cons, ih, List.map_cons, List.sum_cons, leafNode, hnfreq]

theorem mem_leafNodes {freq : Vector Word 256} {e : Node} (he : e ∈ leafNodes freq.toList 0) :
    ∃ sym, entry freq sym ≠ 0 ∧ e = leafNode sym (entry freq sym) := by
  obtain ⟨⟨f, i⟩, hp, rfl⟩ := List.mem_map.mp he
  obtain ⟨hp, hf⟩ := List.mem_filter.mp hp
  obtain ⟨hi, hget⟩ := List.mem_zipIdx' hp
  have hi : i < 256 := by simpa using hi
  have hentry : entry freq (BitVec.ofNat 8 i) = f := by
    simp [entry, Nat.mod_eq_of_lt hi, hget]
  exact ⟨BitVec.ofNat 8 i, by simpa [hentry] using hf, by rw [hentry]⟩

theorem leafNodes_pairwise_sym (freq : Vector Word 256) :
    (leafNodes freq.toList 0).Pairwise fun e e' => e.sym.toNat < e'.sym.toNat := by
  have hidx : (freq.toList.zipIdx 0).Pairwise fun p q => p.2 < q.2 := by
    rw [← List.pairwise_map (f := Prod.snd) (R := (· < ·)), List.zipIdx_map_snd]
    exact List.pairwise_lt_range'
  refine List.pairwise_map.mpr ((hidx.filter _).imp_of_mem fun hp hq hpq => ?_)
  have hlt : ∀ p ∈ (freq.toList.zipIdx 0).filter (fun p => p.1 != 0), (BitVec.ofNat 8 p.2).toNat = p.2 :=
    fun p hp => toNat_ofNat_of_lt (by simpa using (List.mem_zipIdx' (List.mem_of_mem_filter hp)).1)
  rwa [leafNode, leafNode, hlt _ hp, hlt _ hq]

theorem totalFrequency_lt (s : State) : totalFrequency s < 2 ^ 40 := by
  have hsum := List.sum_le_card_nsmul (s.freq.toList.map fun f => f.toNat) (2 ^ 32 - 1) fun x hx => by
    obtain ⟨f, -, rfl⟩ := List.mem_map.mp hx
    exact Nat.le_sub_one_of_lt f.isLt
  rw [List.length_map, Vector.length_toList] at hsum
  exact hsum.trans_lt (by decide)

/-! ### The shape of the tree -/

/-- The ids of a node's children. -/
def childIds (e : Node) : List Nat := if e.leaf then [] else [e.left.toNat, e.right.toNat]

theorem childIds_of_leaf_eq_false {e : Node} (he : e.leaf = false) : childIds e = [e.left.toNat, e.right.toNat] := by
  rw [childIds, he, if_neg Bool.false_ne_true]

/-- The node with id `n` is an internal node over two earlier nodes, whose frequencies it sums (R113, R117). -/
structure InternalAt (nodes : List Node) (n : Nat) (e : Node) : Prop where
  leaf : e.leaf = false
  sym : e.sym = 0
  left : e.left.toNat < n
  right : e.right.toNat < n
  nfreq : e.nfreq.toNat = freqIn nodes e.left.toNat + freqIn nodes e.right.toNat

theorem InternalAt.append {nodes : List Node} {n : Nat} {e : Node} (h : InternalAt nodes n e) (hn : n ≤ nodes.length)
    (es : List Node) : InternalAt (nodes ++ es) n e where
  leaf := h.leaf
  sym := h.sym
  left := h.left
  right := h.right
  nfreq := by
    have hl := h.left
    have hr := h.right
    rw [freqIn_append_of_lt (by omega), freqIn_append_of_lt (by omega), h.nfreq]

/-- The builder's nodes are the given leaves and then internal nodes; every node is either queued or the child of one
node, on one side; and the queued nodes share all the frequency (R117). -/
structure Forest (leaves : List Node) (l : ListBuilder) : Prop where
  leaves_first : leaves <+: l.nodes
  internal : ∀ n e, leaves.length ≤ n → l.nodes[n]? = some e → InternalAt l.nodes n e
  partition : (l.queue ++ l.nodes.flatMap childIds).Perm (List.range l.nodes.length)
  total : (l.queue.map (freqIn l.nodes)).sum = (leaves.map fun e => e.nfreq.toNat).sum

theorem forest_empty : Forest [] ⟨[], []⟩ where
  leaves_first := List.prefix_rfl
  internal := nofun
  partition := List.Perm.nil
  total := rfl

section
variable {nodes : List Node} {q : List Nat}

theorem partition_add {e : Node} (h : (childIds e ++ q ++ nodes.flatMap childIds).Perm (List.range nodes.length)) :
    ((ListBuilder.add ⟨nodes, q⟩ e).queue ++ (ListBuilder.add ⟨nodes, q⟩ e).nodes.flatMap childIds).Perm
      (List.range (ListBuilder.add ⟨nodes, q⟩ e).nodes.length) := by
  rw [ListBuilder.add, List.flatMap_append, List.flatMap_singleton, List.length_append, List.length_singleton,
    List.range_succ]
  calc insertSorted (nodes ++ [e]) nodes.length q ++ (nodes.flatMap childIds ++ childIds e)
    _ |>.Perm (nodes.length :: q ++ (nodes.flatMap childIds ++ childIds e)) :=
      (insertSorted_perm _ _ _).append_right _
    _ |>.Perm (nodes.length :: (childIds e ++ q ++ nodes.flatMap childIds)) := by
      rw [List.cons_append, List.append_assoc, ← List.append_assoc q]
      exact List.perm_append_comm.cons _
    _ |>.Perm (List.range nodes.length ++ [nodes.length]) :=
      (h.cons _).trans (List.perm_append_singleton _ _).symm

theorem sum_freqIn_add (e : Node) (h : ∀ x ∈ q, x < nodes.length) :
    ((ListBuilder.add ⟨nodes, q⟩ e).queue.map (freqIn (ListBuilder.add ⟨nodes, q⟩ e).nodes)).sum =
      e.nfreq.toNat + (q.map (freqIn nodes)).sum := by
  have hnew : freqIn (nodes ++ [e]) nodes.length = e.nfreq.toNat := by
    rw [freqIn, List.getElem?_concat_length, Option.map_some, Option.getD_some]
  have hold : q.map (freqIn (nodes ++ [e])) = q.map (freqIn nodes) :=
    List.map_congr_left fun x hx => freqIn_append_of_lt (h x hx) [e]
  rw [ListBuilder.add, ((insertSorted_perm _ _ _).map _).sum_eq, List.map_cons, List.sum_cons, hnew, hold]

end

section
variable {leaves : List Node} {l : ListBuilder} (h : Forest leaves l)
include h

theorem Forest.lt_length {x : Nat} (hx : x ∈ l.queue) : x < l.nodes.length :=
  List.mem_range.mp (h.partition.mem_iff.mp (List.mem_append_left _ hx))

/-- A leaf has no children, so it joins the queue only (R111, R114). -/
theorem Forest.addLeaf {e : Node} (hall : l.nodes = leaves) (he : e.leaf = true) :
    Forest (leaves ++ [e]) (l.add e) where
  leaves_first := by rw [← hall]; exact List.prefix_rfl
  internal := fun n e' hn hget => by
    have hlt : n < (l.nodes ++ [e]).length := (List.getElem?_eq_some_iff.mp hget).1
    rw [hall] at hlt
    omega
  partition := partition_add (by simpa [childIds, he] using h.partition)
  total := by
    rw [sum_freqIn_add e fun x => h.lt_length, h.total, List.map_append, List.sum_append, Nat.add_comm]
    simp

/-- A merge moves two nodes from the queue to the children of the new node (R114, R117). -/
theorem Forest.merge {x y : Nat} {rest : List Nat} (hq : l.queue = x :: y :: rest) (hlen : l.nodes.length ≤ 512)
    (htotal : (leaves.map fun e => e.nfreq.toNat).sum < 2 ^ 40) :
    Forest leaves (ListBuilder.add ⟨l.nodes, rest⟩ (mergedNode l.nodes x y)) := by
  have hx : x < l.nodes.length := h.lt_length (by simp [hq])
  have hy : y < l.nodes.length := h.lt_length (by simp [hq])
  have hleft : (mergedNode l.nodes x y).left.toNat = x := toNat_ofNat_of_lt (by omega)
  have hright : (mergedNode l.nodes x y).right.toNat = y := toNat_ofNat_of_lt (by omega)
  have hsum := h.total
  rw [hq, List.map_cons, List.map_cons, List.sum_cons, List.sum_cons] at hsum
  have hnfreq : (mergedNode l.nodes x y).nfreq.toNat = freqIn l.nodes x + freqIn l.nodes y :=
    toNat_ofNat_of_lt (by omega)
  have hnew : InternalAt l.nodes l.nodes.length (mergedNode l.nodes x y) :=
    ⟨rfl, rfl, by rwa [hleft], by rwa [hright], by rw [hnfreq, hleft, hright]⟩
  refine
    { leaves_first := h.leaves_first.trans (List.prefix_append _ _)
      internal := fun n e hn hget => ?_
      partition := partition_add ?_
      total := ?_ }
  · have hlt : n < (l.nodes ++ [mergedNode l.nodes x y]).length := (List.getElem?_eq_some_iff.mp hget).1
    rw [List.length_append, List.length_singleton] at hlt
    by_cases hold : n < l.nodes.length
    · rw [ListBuilder.add, List.getElem?_append_left hold] at hget
      exact (h.internal n e hn hget).append hold.le _
    · obtain rfl : n = l.nodes.length := by omega
      rw [ListBuilder.add, List.getElem?_concat_length, Option.some_inj] at hget
      exact hget ▸ hnew.append le_rfl _
  · have hpart := h.partition
    rw [hq] at hpart
    rwa [childIds_of_leaf_eq_false hnew.leaf, hleft, hright]
  · rw [sum_freqIn_add _ fun z hz => h.lt_length (by simp [hq, hz]), hnfreq]
    omega

theorem Forest.listMerges (fuel : Nat) (hlen : l.nodes.length + l.queue.length ≤ 512)
    (htotal : (leaves.map fun e => e.nfreq.toNat).sum < 2 ^ 40) : Forest leaves (listMerges fuel l) := by
  induction fuel generalizing l with
  | zero => exact h
  | succ fuel ih =>
    by_cases hle : l.queue.length ≤ 1
    · rwa [listMerges_of_le_one hle]
    · obtain ⟨x, y, rest, hq⟩ := eq_cons_cons_of_one_lt_length (Nat.lt_of_not_le hle)
      rw [listMerges_of_two hq]
      refine ih (h.merge hq (by omega) htotal) ?_
      rw [hq, List.length_cons, List.length_cons] at hlen
      rw [ListBuilder.add, (insertSorted_perm _ _ _).length_eq]
      simp only [List.length_append, List.length_cons, List.length_nil]
      omega

end

theorem forest_listLeaves (fs : List Word) (sym : Nat) {l : ListBuilder} (h : Forest l.nodes l) :
    (listLeaves fs sym l).nodes = l.nodes ++ leafNodes fs sym ∧
      Forest (l.nodes ++ leafNodes fs sym) (listLeaves fs sym l) := by
  induction fs generalizing sym l with
  | nil =>
    have hnil : l.nodes ++ leafNodes [] sym = l.nodes := List.append_nil _
    rw [hnil]
    exact ⟨rfl, h⟩
  | cons f fs ih =>
    rw [listLeaves]
    by_cases hf : f = 0
    · rw [if_neg (not_not.mpr hf), hf, leafNodes_cons_zero]
      exact ih (sym + 1) h
    · rw [if_pos hf, leafNodes_cons_of_ne hf, List.append_cons]
      exact ih (sym + 1) (h.addLeaf rfl rfl)

/-- The tree that BUILD builds, in the list's form (R111, R113, R117). -/
theorem forest_listTree (s : State) : Forest (leafNodes s.freq.toList 0) (listTree s.freq) := by
  obtain ⟨-, hforest⟩ := forest_listLeaves s.freq.toList 0 (l := ⟨[], []⟩) forest_empty
  have hsim := simulates_loadLeaves s
  obtain ⟨hnext, hsize⟩ := loadLeaves_start_counts s
  have hle := symbolCount_le s.freq
  refine hforest.listMerges 256 ?_ ?_
  · rw [hsim.length, hsim.length_queue, hnext, hsize]
    omega
  · rw [List.nil_append, sum_nfreq_leafNodes]
    exact totalFrequency_lt s

/-! ### The tree in NODE -/

theorem childOf_mem_childIds {e : Node} (he : e.leaf = false) (b : Bool) : (childOf e b).toNat ∈ childIds e := by
  rw [childIds_of_leaf_eq_false he]
  cases b <;> simp [childOf]

theorem exists_childOf_of_mem_childIds {e : Node} {c : Nat} (hc : c ∈ childIds e) :
    e.leaf = false ∧ ∃ b, (childOf e b).toNat = c := by
  cases he : e.leaf with
  | true => simp [childIds, he] at hc
  | false =>
    rw [childIds_of_leaf_eq_false he] at hc
    rcases List.mem_pair.mp hc with rfl | rfl
    · exact ⟨rfl, false, rfl⟩
    · exact ⟨rfl, true, rfl⟩

theorem childOf_toNat_injective {e : Node} (he : e.leaf = false) (hnodup : (childIds e).Nodup) {b b' : Bool}
    (h : (childOf e b).toNat = (childOf e b').toNat) : b = b' := by
  have hne : e.left.toNat ≠ e.right.toNat := by simpa [childIds_of_leaf_eq_false he] using hnodup
  cases b <;> cases b'
  · rfl
  · exact absurd h hne
  · exact absurd h hne.symm
  · rfl

/-- Where the lists of children do not overlap, a node has one parent and one side. -/
theorem childIds_parent_unique {nodes : List Node} (hnodup : (nodes.flatMap childIds).Nodup) {m n : Nat} {e e' : Node}
    (hm : nodes[m]? = some e) (hn : nodes[n]? = some e') (he : e.leaf = false) (he' : e'.leaf = false) {b b' : Bool}
    (h : (childOf e b).toNat = (childOf e' b').toNat) : m = n ∧ b = b' := by
  obtain ⟨hself, hpair⟩ := List.nodup_flatMap.mp hnodup
  obtain ⟨hm', rfl⟩ := List.getElem?_eq_some_iff.mp hm
  obtain ⟨hn', rfl⟩ := List.getElem?_eq_some_iff.mp hn
  have hshared := h ▸ childOf_mem_childIds he b
  rcases Nat.lt_trichotomy m n with hlt | rfl | hlt
  · exact absurd (childOf_mem_childIds he' b') (List.pairwise_iff_getElem.mp hpair m n hm' hn' hlt hshared)
  · exact ⟨rfl, childOf_toNat_injective he (hself _ (List.getElem_mem hm')) h⟩
  · exact absurd hshared (List.pairwise_iff_getElem.mp hpair n m hn' hm' hlt (childOf_mem_childIds he' b'))

section
variable {s t : State} (h : BuiltGeneral s t)
include h

theorem BuiltGeneral.length_listTree : (listTree s.freq).nodes.length = 2 * symbolCount s.freq - 1 := by
  rw [(simulates_buildTree s).length, h.next_buildTree, h.nnode]

theorem BuiltGeneral.freqIn_listTree {n : Nat} (hn : n < 2 * symbolCount s.freq - 1) :
    freqIn (listTree s.freq).nodes n = (nodeAt t.node n).nfreq.toNat := by
  rw [freqIn, h.listTree_getElem? (by rwa [h.nnode]), Option.map_some, Option.getD_some]

/-- The first k nodes are the leaves (R111). -/
theorem BuiltGeneral.leafNodes_getElem? {n : Nat} (hn : n < symbolCount s.freq) :
    (leafNodes s.freq.toList 0)[n]? = some (nodeAt t.node n) := by
  have hlen : (leafNodes s.freq.toList 0).length = symbolCount s.freq := length_leafNodes _ _
  rw [← h.listTree_getElem? (by rw [h.nnode]; omega)]
  rw [List.getElem?_eq_getElem (hlen ▸ hn), List.prefix_iff_getElem?.mp (forest_listTree s).leaves_first n (hlen ▸ hn)]

theorem BuiltGeneral.leafAt {n : Nat} (hn : n < symbolCount s.freq) :
    ∃ sym, entry s.freq sym ≠ 0 ∧ nodeAt t.node n = leafNode sym (entry s.freq sym) :=
  mem_leafNodes (List.mem_of_getElem? (h.leafNodes_getElem? hn))

/-- The other nodes are internal (R113, R117). -/
theorem BuiltGeneral.internalAt {n : Nat} (hk : symbolCount s.freq ≤ n) (hn : n < 2 * symbolCount s.freq - 1) :
    InternalAt (listTree s.freq).nodes n (nodeAt t.node n) := by
  have hlen : (leafNodes s.freq.toList 0).length = symbolCount s.freq := length_leafNodes _ _
  exact (forest_listTree s).internal n _ (by omega) (h.listTree_getElem? (by rwa [h.nnode]))

/-- Every node but the root is a child once (R117). -/
theorem BuiltGeneral.children_perm :
    ((listTree s.freq).nodes.flatMap childIds).Perm (List.range (2 * symbolCount s.freq - 2)) := by
  have hk := h.count
  have hpart := (forest_listTree s).partition
  have hsucc : 2 * symbolCount s.freq - 1 = 2 * symbolCount s.freq - 2 + 1 := by omega
  rw [h.listTree_queue, h.root, h.length_listTree, hsucc, List.range_succ] at hpart
  exact (hpart.trans (List.perm_append_singleton _ _)).cons_inv

theorem BuiltGeneral.exists_parent {c : Nat} (hc : c < 2 * symbolCount s.freq - 2) :
    ∃ n b, symbolCount s.freq ≤ n ∧ n < 2 * symbolCount s.freq - 1 ∧ (childOf (nodeAt t.node n) b).toNat = c := by
  obtain ⟨e, he, hce⟩ := List.mem_flatMap.mp (h.children_perm.mem_iff.mpr (List.mem_range.mpr hc))
  obtain ⟨hleaf, b, hb⟩ := exists_childOf_of_mem_childIds hce
  obtain ⟨n, hn⟩ := List.mem_iff_getElem?.mp he
  have hlt : n < 2 * symbolCount s.freq - 1 := h.length_listTree ▸ (List.getElem?_eq_some_iff.mp hn).1
  rw [h.listTree_getElem? (by rwa [h.nnode]), Option.some_inj] at hn
  subst hn
  refine ⟨n, b, Nat.not_lt.mp fun hnk => ?_, hlt, hb⟩
  obtain ⟨sym, -, hnode⟩ := h.leafAt hnk
  rw [hnode] at hleaf
  cases hleaf

theorem BuiltGeneral.parent_unique {m n : Nat} (hkm : symbolCount s.freq ≤ m) (hm : m < 2 * symbolCount s.freq - 1)
    (hkn : symbolCount s.freq ≤ n) (hn : n < 2 * symbolCount s.freq - 1) {b b' : Bool}
    (hc : (childOf (nodeAt t.node m) b).toNat = (childOf (nodeAt t.node n) b').toNat) : m = n ∧ b = b' :=
  childIds_parent_unique (h.children_perm.nodup_iff.mpr List.nodup_range)
    (h.listTree_getElem? (by rwa [h.nnode])) (h.listTree_getElem? (by rwa [h.nnode])) (h.internalAt hkm hm).leaf
    (h.internalAt hkn hn).leaf hc

end

/-- Settles O34: the sorted-list builder keeps a forest whose roots are the queue, and the heap builds the same tree. -/
theorem builtTreeShape : Obligations.BuiltTreeShape := by
  unfold Obligations.BuiltTreeShape
  intro s t hexec hf hkind
  have h := builtGeneral hexec hf hkind
  have hk := h.count
  refine ⟨fun n hn => ?_, fun m n hmn hn => ?_, fun n hkn hn => ?_, fun c hc => ?_, ?_⟩
  · obtain ⟨sym, hsym, hnode⟩ := h.leafAt hn
    rw [hnode]
    exact ⟨rfl, rfl, rfl, hsym, rfl⟩
  · obtain ⟨hm', hem⟩ := List.getElem?_eq_some_iff.mp (h.leafNodes_getElem? (hmn.trans hn))
    obtain ⟨hn', hen⟩ := List.getElem?_eq_some_iff.mp (h.leafNodes_getElem? hn)
    rw [← hem, ← hen]
    exact List.pairwise_iff_getElem.mp (leafNodes_pairwise_sym s.freq) m n hm' hn' hmn
  · obtain ⟨hleaf, hsym, hleft, hright, hnfreq⟩ := h.internalAt hkn hn
    rw [h.freqIn_listTree (by omega), h.freqIn_listTree (by omega)] at hnfreq
    exact ⟨hleaf, hsym, hleft, hright, hnfreq⟩
  · obtain ⟨n, b, hkn, hn, hb⟩ := h.exists_parent hc
    exact ⟨n, b, hkn, hn, hb, fun n' b' hkn' hn' hb' => h.parent_unique hkn' hn' hkn hn (hb'.trans hb.symm)⟩
  · have htotal := (forest_listTree s).total
    rw [h.listTree_queue, sum_nfreq_leafNodes] at htotal
    rw [← h.freqIn_listTree (by rw [h.root]; omega)]
    simpa [totalFrequency] using htotal

/-! ### The code table of a tree that descends -/

/-- Below `next` every internal node has an id of at least `k` and children with smaller ids (R111, R117). -/
def Descends (node : Vector Node 511) (k next : Nat) : Prop :=
  ∀ n, n < next → (nodeAt node n).leaf = false →
    k ≤ n ∧ (nodeAt node n).left.toNat < n ∧ (nodeAt node n).right.toNat < n

theorem descends_buildTree (s : State) :
    Descends (buildTree s).node (symbolCount s.freq) (buildTree s).next := by
  have hforest := forest_listTree s
  have hlen : (leafNodes s.freq.toList 0).length = symbolCount s.freq := length_leafNodes _ _
  intro n hn hinternal
  have hnode := (simulates_buildTree s).nodes n hn
  have hk : symbolCount s.freq ≤ n := by
    by_contra hlt
    rw [List.prefix_iff_getElem?.mp hforest.leaves_first n (by omega), Option.some_inj] at hnode
    obtain ⟨sym, -, hleaf⟩ := mem_leafNodes (hnode ▸ List.getElem_mem _)
    rw [hleaf] at hinternal
    cases hinternal
  have hat := hforest.internal n _ (by omega) hnode
  exact ⟨hk, hat.left, hat.right⟩

section
variable {node : Vector Node 511} {k next : Nat} (h : Descends node k next)
include h

/-- A path takes a step only at an internal node, so it is not longer than the ids from `k` up (R139). -/
theorem Descends.len_walkTree_le {bound : Nat} (fuel : Nat) {n len : Nat} (code : Nat) {table : Vector PathCode 256}
    (hn : n < next) (hbound : len + (n + 1 - k) ≤ bound) (htable : ∀ sym, (entry table sym).len ≤ bound) :
    ∀ sym, (entry (walkTree node fuel n code len table) sym).len ≤ bound := by
  induction fuel generalizing n len code table with
  | zero => exact htable
  | succ fuel ih =>
    rw [walkTree]
    split
    · intro sym
      by_cases hsym : sym = (nodeAt node n).sym
      · rw [hsym, entry_setEntry_same]
        exact (Nat.le_add_right _ _).trans hbound
      · rw [entry_setEntry_other _ _ hsym]
        exact htable sym
    · next hleaf =>
      obtain ⟨hk, hleft, hright⟩ := h n hn (Bool.eq_false_iff.mpr hleaf)
      exact ih _ (hright.trans hn) (by omega) (ih _ (hleft.trans hn) (by omega) htable)

/-- The table is a function of the nodes below the root. -/
theorem Descends.walkTree_congr {node' : Vector Node 511} (hag : ∀ n, n < next → nodeAt node n = nodeAt node' n)
    (fuel : Nat) {n : Nat} (code len : Nat) (table : Vector PathCode 256) (hn : n < next) :
    walkTree node fuel n code len table = walkTree node' fuel n code len table := by
  induction fuel generalizing n code len table with
  | zero => rfl
  | succ fuel ih =>
    rw [walkTree, walkTree, ← hag n hn]
    split
    · rfl
    · next hleaf =>
      obtain ⟨-, hleft, hright⟩ := h n hn (Bool.eq_false_iff.mpr hleaf)
      rw [ih _ _ table (hleft.trans hn), ih _ _ _ (hright.trans hn)]

end

theorem top_toNat_buildTree {s : State} (hk : 2 ≤ symbolCount s.freq) :
    (buildTree s).top.toNat = 2 * symbolCount s.freq - 2 := by
  have hle := symbolCount_le s.freq
  rw [top_buildTree hk]
  exact toNat_ofNat_of_lt (by omega)

/-- A code of a GENERAL tree has at most k − 1 bits (R139). -/
theorem len_table_buildTree_le {s : State} (hk : 2 ≤ symbolCount s.freq) (sym : Byte) :
    (entry (buildTree s).table sym).len ≤ symbolCount s.freq - 1 := by
  have htop := top_toNat_buildTree hk
  have hnext := (buildTree_counts hk).1
  refine (descends_buildTree s).len_walkTree_le _ _ (by omega) (by omega) (fun sym => ?_) sym
  rw [entry_replicate]
  exact Nat.zero_le _

theorem firstTooLong_eq_none_iff {maxLen : Nat} {table : Vector PathCode 256} :
    firstTooLong maxLen table = none ↔ ∀ sym, (entry table sym).len ≤ maxLen := by
  rw [firstTooLong, List.findIdx?_eq_none_iff]
  simp only [mem_toList_iff_entry, decide_eq_false_iff_not, Nat.not_lt, forall_exists_index, forall_apply_eq_imp_iff]

/-! ### The end of a GENERAL build -/

theorem finishBuild_of_fits {b : Builder} {s : State} (h : firstTooLong s.params.maxCodeLen b.table = none) :
    finishBuild b s = .next ((s.setQueue b.pop).setTree b.node .general (symbolCount s.freq)
      (2 * symbolCount s.freq - 1) b.top (storeTable b.table)).ok := by
  rw [finishBuild, h, done]

theorem finishBuild_of_tooLong {b : Builder} {s : State} {sym : Nat}
    (h : firstTooLong s.params.maxCodeLen b.table = some sym) :
    finishBuild b s = fail .build .codeLengthOverflow
      (0#16 ++ BitVec.ofNat 8 (pathAt b.table sym).len ++ BitVec.ofNat 8 sym)
      { s.setQueue b.pop with node := b.node } := by
  rw [finishBuild, h]

/-- Settles O32: k is at most 256, so no code has more than 255 bits. -/
theorem buildOfManySymbolsSucceeds : Obligations.BuildOfManySymbolsSucceeds := by
  unfold Obligations.BuildOfManySymbolsSucceeds
  intro s hb he hmax hk
  have hfits : firstTooLong s.params.maxCodeLen (buildTree s).table = none := by
    have hle := symbolCount_le s.freq
    exact firstTooLong_eq_none_iff.mpr fun sym => (len_table_buildTree_le hk sym).trans (by omega)
  rw [exec_build_of_many hb he hk, finishBuild_of_fits hfits, top_buildTree hk]
  exact ⟨_, _, _, _, _, rfl⟩

/-! ### Two builds of the same frequencies -/

section
variable {s s' : State} (hfreq : s.freq = s'.freq)
include hfreq

theorem next_buildTree_congr : (buildTree s).next = (buildTree s').next := by
  rw [← (simulates_buildTree s).length, hfreq, (simulates_buildTree s').length]

/-- Both trees are the sorted list's (R118). -/
theorem nodeAt_buildTree_congr {n : Nat} (hn : n < (buildTree s).next) :
    nodeAt (buildTree s).node n = nodeAt (buildTree s').node n := by
  have hnode := (simulates_buildTree s).nodes n hn
  rw [hfreq, (simulates_buildTree s').nodes n (next_buildTree_congr hfreq ▸ hn), Option.some_inj] at hnode
  exact hnode.symm

theorem top_buildTree_congr (hk : 2 ≤ symbolCount s.freq) : (buildTree s).top = (buildTree s').top := by
  rw [top_buildTree hk, hfreq, top_buildTree (hfreq ▸ hk)]

theorem table_buildTree_congr (hk : 2 ≤ symbolCount s.freq) : (buildTree s).table = (buildTree s').table := by
  have htop := top_toNat_buildTree hk
  have hnext := (buildTree_counts hk).1
  rw [Builder.table, Builder.table, ← top_buildTree_congr hfreq hk, derive, derive]
  exact (descends_buildTree s).walkTree_congr (fun n => nodeAt_buildTree_congr hfreq) _ _ _ _ (by omega)

end

/-- Two states with the same tree and code table: equal registers, and equal nodes where they are valid. -/
def SameTree (t t' : State) : Prop :=
  t.ct = t'.ct ∧ t.totalBits = t'.totalBits ∧ t.kind = t'.kind ∧ t.nsym = t'.nsym ∧ t.nnode = t'.nnode ∧
    t.root = t'.root ∧ ∀ n, n < t.nnode.toNat → nodeAt t.node n = nodeAt t'.node n

theorem sameTree_setTree {s s' : State} (hfreq : s.freq = s'.freq) {node node' : Vector Node 511} (kind : Kind)
    (k : Nat) {nnode : Nat} (root : NodeId) (ct : Vector CodeEntry 256)
    (hnode : ∀ n, n < nnode → nodeAt node n = nodeAt node' n) :
    SameTree (s.setTree node kind k nnode root ct).ok (s'.setTree node' kind k nnode root ct).ok := by
  refine ⟨rfl, ?_, rfl, rfl, rfl, rfl, fun n hn => hnode n (hn.trans_le (toNat_ofNat_le 10 nnode))⟩
  simp only [State.ok_totalBits, State.setTree_totalBits, hfreq]

/-- Settles O36: the registers of a build are functions of the frequencies and of the sorted list's tree. -/
theorem buildDependsOnlyOnFrequencies : Obligations.BuildDependsOnlyOnFrequencies := by
  unfold Obligations.BuildDependsOnlyOnFrequencies
  intro s s' t t' hfreq hmax hb hb' he he' h h'
  show t.lastFail = t'.lastFail ∧ (t.lastFail = false → SameTree t t')
  obtain hk | hk | hk : symbolCount s.freq = 0 ∨ symbolCount s.freq = 1 ∨ 2 ≤ symbolCount s.freq := by omega
  · rw [exec_build_of_none hb he hk] at h
    rw [exec_build_of_none hb' he' (hfreq ▸ hk)] at h'
    cases h; cases h'
    exact ⟨rfl, fun _ => sameTree_setTree hfreq _ _ _ _ nofun⟩
  · rw [exec_build_of_one hb he hk] at h
    rw [exec_build_of_one hb' he' (hfreq ▸ hk), ← hfreq] at h'
    cases h; cases h'
    refine ⟨rfl, fun _ => sameTree_setTree hfreq _ _ _ _ fun n hn => ?_⟩
    rw [Nat.lt_one_iff.mp hn, nodeAt_setIfInBounds_zero, nodeAt_setIfInBounds_zero]
  · rw [exec_build_of_many hb he hk] at h
    rw [exec_build_of_many hb' he' (hfreq ▸ hk)] at h'
    have htable := table_buildTree_congr hfreq hk
    cases hfits : firstTooLong s.params.maxCodeLen (buildTree s).table with
    | some sym =>
      rw [finishBuild_of_tooLong hfits] at h
      rw [finishBuild_of_tooLong (hmax ▸ htable ▸ hfits)] at h'
      cases h; cases h'
      exact ⟨rfl, nofun⟩
    | none =>
      rw [finishBuild_of_fits hfits] at h
      rw [finishBuild_of_fits (hmax ▸ htable ▸ hfits), ← hfreq, ← htable, ← top_buildTree_congr hfreq hk] at h'
      cases h; cases h'
      have hnext := (buildTree_counts hk).1
      exact ⟨rfl, fun _ => sameTree_setTree hfreq _ _ _ _ fun n hn =>
        nodeAt_buildTree_congr hfreq (by omega)⟩

end Sys2Proof.Machine
end

section
/-! PROOFS. The statements of the family 43_code_table: RDLEN and RDCODE, the codes as the paths of the tree, their
agreement in every step, the sums over the table, and the check against MAX_CODE_LEN. -/

namespace Sys2Proof.Machine

open Sys2Proof

/-! ### RDLEN and RDCODE -/

/-- RDCODE has no legal word with AUX above 7 or RSV not 0 (R71, R138). -/
theorem allIllegal_rdcode : AllIllegal (fun w => w.extractLsb' 0 8 = 0x09 ∧
    (7 < (w.extractLsb' 16 8).toNat ∨ w.extractLsb' 24 8 ≠ 0)) := by
  refine allIllegal_of_not_legalWord ?_
  rintro w ⟨hopc, hbad⟩ hlegal
  have hopc' : fieldOpc w = 0x09 := hopc
  have hrange : auxInRange 0x09 (fieldAux w) = true := hopc' ▸ hlegal.range
  rcases hbad with haux | hne
  · exact absurd (of_decide_eq_true hrange) (Nat.not_le.mpr haux)
  · exact hne hlegal.rsv

theorem exec_rdlen {s : State} (sym : Byte) (hb : s.built = true) :
    exec (.rdlen sym) s = .next (s.setRes (zextByte (entry s.ct sym).len)).ok := by
  show execRdlen sym s = _
  rw [execRdlen, guarded_of_ok (i := .rdlen sym) _ rfl hb, done]

theorem exec_rdcode {s : State} (sym : Byte) {aux : Byte} (haux : aux.toNat ≤ 7) (hb : s.built = true) :
    exec (.rdcode sym aux) s = .next (s.setRes (codeWord (entry s.ct sym).code aux)).ok := by
  show execRdcode sym aux s = _
  rw [execRdcode, guarded_of_ok (i := .rdcode sym aux) _ (decide_eq_true haux) hb, done]

/-- Bit 255 of the zero-extended code is the one bit that CODE lacks, and reads 0 in both. -/
theorem getLsbD_codeWord (c : BitVec 255) {aux : Byte} (haux : aux.toNat ≤ 7) {j : Nat} (hj : j < 32) :
    (codeWord c aux).getLsbD j = c.getLsbD (32 * aux.toNat + j) := by
  have hbit : 32 * aux.toNat + j < 256 := by omega
  rw [codeWord, BitVec.getLsbD_extractLsb', BitVec.getLsbD_setWidth]
  simp [hj, hbit]

/-- Settles O44: in phase each is one read of CT, and a code's word is its bits. -/
theorem rdlenAndRdcodeReadTheTable : Obligations.RdlenAndRdcodeReadTheTable := by
  unfold Obligations.RdlenAndRdcodeReadTheTable
  refine ⟨allIllegal_of_no_aux rfl, allIllegal_rdcode,
    fun sym aux s haux => ⟨assemble_sym _ sym, rfl, fun hb => ?_, fun hb => ?_⟩⟩
  · exact ⟨failsWith_phaseError rfl hb, failsWith_phaseError (decide_eq_true haux) hb⟩
  · exact ⟨exec_rdlen sym hb, _, exec_rdcode sym haux hb, fun j hj => getLsbD_codeWord _ haux hj⟩

/-! ### Paths in the tree -/

/-- A bit string leads from a node through internal nodes only; where it ends is left open. -/
def InternalPath (node : Vector Node 511) (n : NodeId) (bits : List Bool) : Prop :=
  ∀ j, j < bits.length → (nodeAt node (follow node n (bits.take j)).toNat).leaf = false

section
variable {node : Vector Node 511}

theorem follow_append (n : NodeId) (bits bits' : List Bool) :
    follow node n (bits ++ bits') = follow node (follow node n bits) bits' := by
  induction bits generalizing n with
  | nil => rfl
  | cons b bits ih => exact ih _

theorem follow_concat (n : NodeId) (bits : List Bool) (b : Bool) :
    follow node n (bits ++ [b]) = childOf (nodeAt node (follow node n bits).toNat) b :=
  follow_append n bits [b]

theorem internalPath_nil (n : NodeId) : InternalPath node n [] := nofun

theorem internalPath_cons {n : NodeId} {b : Bool} {bits : List Bool} :
    InternalPath node n (b :: bits) ↔
      (nodeAt node n.toNat).leaf = false ∧ InternalPath node (childOf (nodeAt node n.toNat) b) bits := by
  constructor
  · exact fun h => ⟨h 0 (Nat.zero_lt_succ _), fun j hj => h (j + 1) (Nat.succ_lt_succ hj)⟩
  · rintro ⟨h0, h⟩ (_ | j) hj
    · exact h0
    · exact h j (Nat.lt_of_succ_lt_succ hj)

theorem internalPath_concat {n : NodeId} {b : Bool} {bits : List Bool} :
    InternalPath node n (bits ++ [b]) ↔
      InternalPath node n bits ∧ (nodeAt node (follow node n bits).toNat).leaf = false := by
  induction bits generalizing n with
  | nil => simp [internalPath_cons, internalPath_nil, follow]
  | cons b' bits ih => rw [List.cons_append, internalPath_cons, internalPath_cons, ih, and_assoc, follow]

theorem leadsTo_nil {n : NodeId} {sym : Byte} :
    LeadsTo node n [] sym ↔ (nodeAt node n.toNat).leaf = true ∧ (nodeAt node n.toNat).sym = sym :=
  and_iff_right (internalPath_nil n)

theorem leadsTo_cons {n : NodeId} {b : Bool} {bits : List Bool} {sym : Byte} :
    LeadsTo node n (b :: bits) sym ↔
      (nodeAt node n.toNat).leaf = false ∧ LeadsTo node (childOf (nodeAt node n.toNat) b) bits sym :=
  (and_congr_left' internalPath_cons).trans and_assoc

/-- A path ends at the first leaf. -/
theorem LeadsTo.of_leaf {n : NodeId} {bits : List Bool} {sym : Byte} (hleaf : (nodeAt node n.toNat).leaf = true)
    (hto : LeadsTo node n bits sym) : bits = [] ∧ (nodeAt node n.toNat).sym = sym := by
  cases bits with
  | nil => exact ⟨rfl, (leadsTo_nil.mp hto).2⟩
  | cons b bits => cases hleaf.symm.trans (leadsTo_cons.mp hto).1

/-- So no path to a leaf begins another's. -/
theorem LeadsTo.eq_of_prefix {n : NodeId} {bits bits' : List Bool} {x y : Byte} (hx : LeadsTo node n bits x)
    (hy : LeadsTo node n bits' y) (hp : bits <+: bits') : x = y := by
  induction bits generalizing n bits' with
  | nil =>
    obtain ⟨hleaf, hsym⟩ := leadsTo_nil.mp hx
    exact hsym.symm.trans (hy.of_leaf hleaf).2
  | cons b bits ih =>
    obtain ⟨suffix, rfl⟩ := hp
    exact ih (leadsTo_cons.mp hx).2 (leadsTo_cons.mp hy).2 (List.prefix_append bits suffix)

end

/-! ### The value of a path -/

/-- The code value of a path that goes on from the code value `code` (R131): each step appends its bit. -/
def pathValue : Nat → List Bool → Nat
  | code, [] => code
  | code, b :: bits => pathValue (2 * code + b.toNat) bits

/-- The bits of a path are the low ones of its value. -/
theorem pathValue_div (code : Nat) (bits : List Bool) : pathValue code bits / 2 ^ bits.length = code := by
  induction bits generalizing code with
  | nil => exact Nat.div_one code
  | cons b bits ih =>
    have hb := b.toNat_le
    rw [pathValue, List.length_cons, Nat.pow_succ, ← Nat.div_div_eq_div_mul, ih]
    omega

theorem pathValue_lt (bits : List Bool) : pathValue 0 bits < 2 ^ bits.length :=
  Nat.lt_of_div_eq_zero (Nat.two_pow_pos _) (pathValue_div 0 bits)

/-- The first step of a path is the most significant bit of its code (R131). -/
theorem testBit_pathValue (code : Nat) (b : Bool) (bits : List Bool) :
    (pathValue code (b :: bits)).testBit bits.length = b := by
  rw [Nat.testBit_eq_decide_div_mod_eq, pathValue, pathValue_div]
  cases b <;> simp

/-- A path is read back from its value, stored in a field with room for it (R39). -/
theorem codeBits_pathValue {w : Nat} (code : Nat) {bits : List Bool} (hw : bits.length ≤ w) :
    codeBits (BitVec.ofNat w (pathValue code bits)) bits.length = bits := by
  induction bits generalizing code with
  | nil => rfl
  | cons b bits ih =>
    have hlt : bits.length < w := hw
    rw [List.length_cons, codeBits, BitVec.getLsbD_ofNat, testBit_pathValue, pathValue, ih _ hlt.le]
    simp [hlt]

/-- The first `a` bits of a code are the code shifted right by the others. -/
theorem take_codeBits {w : Nat} (c : BitVec w) {a l : Nat} (h : a ≤ l) :
    (codeBits c l).take a = codeBits (c >>> (l - a)) a := by
  refine List.ext_getElem (by simpa using h) fun j h1 h2 => ?_
  rw [length_codeBits] at h2
  rw [List.getElem_take, getElem_codeBits, getElem_codeBits, BitVec.getLsbD_ushiftRight]
  congr 1
  omega

/-! ### What the derivation stores -/

section
variable {node : Vector Node 511} {n : Nat}

theorem walkTree_of_leaf (hleaf : (nodeAt node n).leaf = true) (fuel code len : Nat) (table : Vector PathCode 256) :
    walkTree node (fuel + 1) n code len table = setEntry table (nodeAt node n).sym ⟨len, code⟩ := by
  rw [walkTree, if_pos hleaf]

theorem walkTree_of_internal (hleaf : (nodeAt node n).leaf = false) (fuel code len : Nat)
    (table : Vector PathCode 256) :
    walkTree node (fuel + 1) n code len table =
      walkTree node fuel (childOf (nodeAt node n) true).toNat (2 * code + 1) (len + 1)
        (walkTree node fuel (childOf (nodeAt node n) false).toNat (2 * code) (len + 1) table) := by
  rw [walkTree, if_neg (Bool.eq_false_iff.mp hleaf)]
  rfl

end

section
variable {node : Vector Node 511} {k next : Nat} (h : Descends node k next)
include h

theorem Descends.childOf_lt {n : Nat} (hn : n < next) (hleaf : (nodeAt node n).leaf = false) (b : Bool) :
    (childOf (nodeAt node n) b).toNat < n := by
  obtain ⟨-, hleft, hright⟩ := h n hn hleaf
  cases b
  · exact hleft
  · exact hright

/-- The derivation stores the path of a symbol it meets, and leaves the entry of any other symbol. -/
theorem Descends.entry_walkTree (sym : Byte) (fuel : Nat) {n : NodeId} (code len : Nat) (table : Vector PathCode 256)
    (hn : n.toNat < next) (hfuel : n.toNat < fuel) :
    (∃ bits, LeadsTo node n bits sym ∧
      entry (walkTree node fuel n.toNat code len table) sym = ⟨len + bits.length, pathValue code bits⟩) ∨
    ((∀ bits, ¬LeadsTo node n bits sym) ∧
      entry (walkTree node fuel n.toNat code len table) sym = entry table sym) := by
  induction fuel generalizing n code len table with
  | zero => cases hfuel
  | succ fuel ih =>
    cases hleaf : (nodeAt node n.toNat).leaf with
    | true =>
      rw [walkTree_of_leaf hleaf]
      by_cases hsym : (nodeAt node n.toNat).sym = sym
      · rw [hsym]
        exact .inl ⟨[], leadsTo_nil.mpr ⟨hleaf, hsym⟩, entry_setEntry_same _ _ _⟩
      · exact .inr ⟨fun bits hto => hsym (hto.of_leaf hleaf).2, entry_setEntry_other _ _ (Ne.symm hsym)⟩
    | false =>
      have hlt := h.childOf_lt hn hleaf
      have hchild := fun b code table => ih code (len + 1) table ((hlt b).trans hn)
        ((hlt b).trans_le (Nat.le_of_lt_succ hfuel))
      rw [walkTree_of_internal hleaf]
      rcases hchild true (2 * code + 1) _ with ⟨bits, hto, he⟩ | ⟨hright, he⟩
      · refine .inl ⟨true :: bits, leadsTo_cons.mpr ⟨hleaf, hto⟩, he.trans (by rw [Nat.add_right_comm]; rfl)⟩
      · rw [he]
        rcases hchild false (2 * code) table with ⟨bits, hto, he⟩ | ⟨hleft, he⟩
        · refine .inl ⟨false :: bits, leadsTo_cons.mpr ⟨hleaf, hto⟩, he.trans (by rw [Nat.add_right_comm]; rfl)⟩
        · refine .inr ⟨fun bits hto => ?_, he⟩
          cases bits with
          | nil => cases hleaf.symm.trans (leadsTo_nil.mp hto).1
          | cons b bits =>
            cases b
            · exact hleft bits (leadsTo_cons.mp hto).2
            · exact hright bits (leadsTo_cons.mp hto).2

end

/-! ### The paths of a GENERAL build -/

/-- The leaf of a present symbol is among the leaves. -/
theorem leafNode_mem_leafNodes {freq : Vector Word 256} {sym : Byte} (hsym : entry freq sym ≠ 0) :
    leafNode sym (entry freq sym) ∈ leafNodes freq.toList 0 := by
  have hzip : (entry freq sym, sym.toNat) ∈ freq.toList.zipIdx 0 :=
    List.mk_mem_zipIdx_iff_getElem?.mpr (by simp [entry])
  exact List.mem_map.mpr ⟨_, List.mem_filter.mpr ⟨hzip, by simpa using hsym⟩, by simp⟩

section
variable {s t : State} (h : BuiltGeneral s t)
include h

theorem BuiltGeneral.descends : Descends t.node (symbolCount s.freq) (2 * symbolCount s.freq - 1) := by
  have hdesc := descends_buildTree s
  rwa [h.next_buildTree, h.nnode, ← h.node] at hdesc

theorem BuiltGeneral.root_lt : t.root.toNat < 2 * symbolCount s.freq - 1 := by
  have hk := h.count
  rw [h.root]
  omega

theorem BuiltGeneral.lt_of_leaf {n : Nat} (hn : n < 2 * symbolCount s.freq - 1)
    (hleaf : (nodeAt t.node n).leaf = true) : n < symbolCount s.freq := by
  by_contra hk
  cases hleaf.symm.trans (h.internalAt (Nat.le_of_not_lt hk) hn).leaf

theorem BuiltGeneral.leaf_root : (nodeAt t.node t.root.toNat).leaf = false := by
  have hk := h.count
  exact (h.internalAt (by rw [h.root]; omega) h.root_lt).leaf

/-- The leaves of different ids have different symbols (R111). -/
theorem BuiltGeneral.leaf_injective {m n : Nat} (hm : m < symbolCount s.freq) (hn : n < symbolCount s.freq)
    (hsym : (nodeAt t.node m).sym = (nodeAt t.node n).sym) : m = n := by
  obtain ⟨hm', hem⟩ := List.getElem?_eq_some_iff.mp (h.leafNodes_getElem? hm)
  obtain ⟨hn', hen⟩ := List.getElem?_eq_some_iff.mp (h.leafNodes_getElem? hn)
  have hnodup : ((leafNodes s.freq.toList 0).map Node.sym).Nodup :=
    List.pairwise_map.mpr ((leafNodes_pairwise_sym s.freq).imp fun hlt he => hlt.ne (congrArg BitVec.toNat he))
  refine (hnodup.getElem_inj_iff (hi := by simpa using hm') (hj := by simpa using hn')).mp ?_
  rw [List.getElem_map, List.getElem_map, hem, hen, hsym]

theorem BuiltGeneral.follow_lt {bits : List Bool} (hpath : InternalPath t.node t.root bits) :
    (follow t.node t.root bits).toNat < 2 * symbolCount s.freq - 1 := by
  induction bits using List.reverseRecOn with
  | nil => exact h.root_lt
  | append_singleton bits b ih =>
    obtain ⟨hpath, hleaf⟩ := internalPath_concat.mp hpath
    rw [follow_concat]
    exact (h.descends.childOf_lt (ih hpath) hleaf b).trans (ih hpath)

/-- No path leads back to the root, which has the greatest id (R116). -/
theorem BuiltGeneral.follow_concat_ne_root {bits : List Bool} {b : Bool}
    (hpath : InternalPath t.node t.root (bits ++ [b])) : follow t.node t.root (bits ++ [b]) ≠ t.root := by
  obtain ⟨hpath, hleaf⟩ := internalPath_concat.mp hpath
  have hlt := h.follow_lt hpath
  have hchild := h.descends.childOf_lt hlt hleaf b
  intro he
  rw [← follow_concat, he, h.root] at hchild
  omega

/-- Every node but the root has one parent and one side, so one path leads to it (R117). -/
theorem BuiltGeneral.internalPath_unique {bits bits' : List Bool} (hp : InternalPath t.node t.root bits)
    (hp' : InternalPath t.node t.root bits') (he : follow t.node t.root bits = follow t.node t.root bits') :
    bits = bits' := by
  induction bits using List.reverseRecOn generalizing bits' with
  | nil =>
    cases bits' using List.reverseRecOn with
    | nil => rfl
    | append_singleton bits' b' => exact absurd he.symm (h.follow_concat_ne_root hp')
  | append_singleton bits b ih =>
    cases bits' using List.reverseRecOn with
    | nil => exact absurd he (h.follow_concat_ne_root hp)
    | append_singleton bits' b' =>
      obtain ⟨hpre, hleaf⟩ := internalPath_concat.mp hp
      obtain ⟨hpre', hleaf'⟩ := internalPath_concat.mp hp'
      rw [follow_concat, follow_concat] at he
      obtain ⟨hnode, rfl⟩ := h.parent_unique (h.descends _ (h.follow_lt hpre) hleaf).1 (h.follow_lt hpre)
        (h.descends _ (h.follow_lt hpre') hleaf').1 (h.follow_lt hpre') (congrArg BitVec.toNat he)
      rw [ih hpre hpre' (BitVec.eq_of_toNat_eq hnode)]

/-- A path leads from the root to every node: one leads to its parent, whose id is greater. -/
theorem BuiltGeneral.exists_internalPath (n : Nat) (hn : n < 2 * symbolCount s.freq - 1) :
    ∃ bits, InternalPath t.node t.root bits ∧ (follow t.node t.root bits).toNat = n := by
  by_cases hroot : n = t.root.toNat
  · exact ⟨[], internalPath_nil _, hroot.symm⟩
  · rw [h.root] at hroot
    obtain ⟨p, b, hkp, hp, rfl⟩ := h.exists_parent (c := n) (by omega)
    have hleaf := (h.internalAt hkp hp).leaf
    have hlt := h.descends.childOf_lt hp hleaf b
    obtain ⟨bits, hpath, rfl⟩ := exists_internalPath p hp
    exact ⟨bits ++ [b], internalPath_concat.mpr ⟨hpath, hleaf⟩, by rw [follow_concat]⟩
termination_by 2 * symbolCount s.freq - n

/-- The leaf of a symbol is one node, and one path leads to it. -/
theorem BuiltGeneral.leadsTo_unique {sym : Byte} {bits bits' : List Bool} (hto : LeadsTo t.node t.root bits sym)
    (hto' : LeadsTo t.node t.root bits' sym) : bits = bits' := by
  obtain ⟨hpath, hleaf, hsym⟩ := hto
  obtain ⟨hpath', hleaf', hsym'⟩ := hto'
  have hid := h.leaf_injective (h.lt_of_leaf (h.follow_lt hpath) hleaf) (h.lt_of_leaf (h.follow_lt hpath') hleaf')
    (hsym.trans hsym'.symm)
  exact h.internalPath_unique hpath hpath' (BitVec.eq_of_toNat_eq hid)

/-- The leaves reached are those of the present symbols (R111, R130). -/
theorem BuiltGeneral.exists_leadsTo_iff {sym : Byte} :
    (∃ bits, LeadsTo t.node t.root bits sym) ↔ entry s.freq sym ≠ 0 := by
  constructor
  · rintro ⟨bits, hpath, hleaf, rfl⟩
    obtain ⟨sym, hsym, hnode⟩ := h.leafAt (h.lt_of_leaf (h.follow_lt hpath) hleaf)
    rwa [hnode]
  · intro hsym
    obtain ⟨n, hn⟩ := List.mem_iff_getElem?.mp (leafNode_mem_leafNodes hsym)
    have hlt : n < symbolCount s.freq := by
      rw [symbolCount, ← length_leafNodes s.freq.toList 0]
      exact (List.getElem?_eq_some_iff.mp hn).1
    rw [h.leafNodes_getElem? hlt, Option.some_inj] at hn
    obtain ⟨bits, hpath, rfl⟩ := h.exists_internalPath n (by omega)
    exact ⟨bits, hpath, by rw [hn, leafNode], by rw [hn, leafNode]⟩

end

/-! ### The table of a GENERAL build -/

theorem entry_storeTable (table : Vector PathCode 256) (sym : Byte) :
    entry (storeTable table) sym = ⟨BitVec.ofNat 8 (entry table sym).len, BitVec.ofNat 255 (entry table sym).code⟩ := by
  simp [entry, storeTable]

theorem len_storeTable {table : Vector PathCode 256} {sym : Byte} (hlen : (entry table sym).len ≤ 255) :
    (entry (storeTable table) sym).len.toNat = (entry table sym).len := by
  rw [entry_storeTable]
  exact toNat_ofNat_of_lt (Nat.lt_succ_of_le hlen)

/-- k is at most 256, so a code's length fits in LEN (R139). -/
theorem len_table_buildTree_le_255 {s : State} (hk : 2 ≤ symbolCount s.freq) (sym : Byte) :
    (entry (buildTree s).table sym).len ≤ 255 := by
  have hle := symbolCount_le s.freq
  exact (len_table_buildTree_le hk sym).trans (by omega)

section
variable {s t : State} (h : BuiltGeneral s t)
include h

theorem BuiltGeneral.ct_eq : t.ct = storeTable (derive t.node t.root.toNat) := by
  rw [h.ct, Builder.table, h.node, h.top]

theorem BuiltGeneral.len_derive_le (sym : Byte) :
    (entry (derive t.node t.root.toNat) sym).len ≤ symbolCount s.freq - 1 := by
  have hlen := len_table_buildTree_le h.count sym
  rwa [Builder.table, ← h.node, ← h.top] at hlen

/-- The entry of a symbol is the path to its leaf; a symbol without a leaf has none (R131). -/
theorem BuiltGeneral.entry_derive (sym : Byte) :
    (∃ bits, LeadsTo t.node t.root bits sym ∧ bits ≠ [] ∧
      entry (derive t.node t.root.toNat) sym = ⟨bits.length, pathValue 0 bits⟩) ∨
    ((∀ bits, ¬LeadsTo t.node t.root bits sym) ∧ entry (derive t.node t.root.toNat) sym = ⟨0, 0⟩) := by
  have hle := symbolCount_le s.freq
  have hroot := h.root_lt
  rcases h.descends.entry_walkTree sym 511 0 0 (Vector.replicate 256 ⟨0, 0⟩) hroot (by omega) with
    ⟨bits, hto, he⟩ | ⟨hno, he⟩
  · refine .inl ⟨bits, hto, ?_, by rwa [Nat.zero_add] at he⟩
    rintro rfl
    cases h.leaf_root.symm.trans (leadsTo_nil.mp hto).1
  · exact .inr ⟨hno, by rwa [entry_replicate] at he⟩

theorem BuiltGeneral.len_ct (sym : Byte) :
    (entry t.ct sym).len.toNat = (entry (derive t.node t.root.toNat) sym).len := by
  have hle := symbolCount_le s.freq
  have hlen := h.len_derive_le sym
  rw [h.ct_eq, len_storeTable (by omega)]

/-- LEN and CODE hold the whole path (R39, R131). -/
theorem BuiltGeneral.code_cases (sym : Byte) :
    (∃ bits, LeadsTo t.node t.root bits sym ∧ t.hasCode sym ∧ t.codeOf sym = bits ∧
      (entry t.ct sym).code.toNat < 2 ^ (entry t.ct sym).len.toNat) ∨
    ((∀ bits, ¬LeadsTo t.node t.root bits sym) ∧ ¬t.hasCode sym ∧ entry t.ct sym = CodeEntry.absent) := by
  have hle := symbolCount_le s.freq
  have hlen := h.len_derive_le sym
  have hlenct := h.len_ct sym
  have hct : entry t.ct sym = _ := h.ct_eq ▸ entry_storeTable (derive t.node t.root.toNat) sym
  rcases h.entry_derive sym with ⟨bits, hto, hne, he⟩ | ⟨hno, he⟩
  · rw [he] at hct hlen hlenct
    have hlen : bits.length ≤ symbolCount s.freq - 1 := hlen
    have hlenct : (entry t.ct sym).len.toNat = bits.length := hlenct
    have hcode : (entry t.ct sym).code = BitVec.ofNat 255 (pathValue 0 bits) := by rw [hct]
    refine .inl ⟨bits, hto, ?_, ?_, ?_⟩
    · intro h0
      rw [h0] at hlenct
      exact hne (List.eq_nil_of_length_eq_zero hlenct.symm)
    · rw [State.codeOf, hcode, hlenct, codeBits_pathValue 0 (by omega)]
    · rw [hcode, hlenct]
      exact (toNat_ofNat_le _ _).trans_lt (pathValue_lt bits)
  · rw [he] at hct
    exact .inr ⟨hno, fun hcode => hcode (congrArg CodeEntry.len hct), hct⟩

theorem BuiltGeneral.leadsTo_iff (sym : Byte) (bits : List Bool) :
    LeadsTo t.node t.root bits sym ↔ t.hasCode sym ∧ bits = t.codeOf sym := by
  rcases h.code_cases sym with ⟨bits', hto, hcode, rfl, -⟩ | ⟨hno, hcode, -⟩
  · exact ⟨fun hto' => ⟨hcode, h.leadsTo_unique hto' hto⟩, fun ⟨_, he⟩ => he ▸ hto⟩
  · exact ⟨fun hto => absurd hto (hno bits), fun hhas => absurd hhas.1 hcode⟩

theorem BuiltGeneral.hasCode_iff (sym : Byte) : t.hasCode sym ↔ entry s.freq sym ≠ 0 := by
  rw [← h.exists_leadsTo_iff]
  simp [h.leadsTo_iff]

theorem BuiltGeneral.code_lt (sym : Byte) :
    (entry t.ct sym).code.toNat < 2 ^ (entry t.ct sym).len.toNat := by
  rcases h.code_cases sym with ⟨bits, -, -, -, hlt⟩ | ⟨-, -, habsent⟩
  · exact hlt
  · rw [habsent]
    decide

theorem BuiltGeneral.tableInvariant (hk : t.kind = .general) : TableInvariant t where
  present _ sym := h.freq ▸ h.hasCode_iff sym
  paths _ _ sym bits := h.leadsTo_iff sym bits
  descends _ _ := by
    rw [h.nnode]
    exact ⟨h.root_lt, fun n hn hleaf => (h.descends n hn hleaf).2⟩
  single _ hd := by cases hk.symm.trans hd

end

/-! ### What a BUILD that succeeds leaves -/

/-- Two present symbols make k at least 2. -/
theorem eq_of_symbolCount_eq_one {freq : Vector Word 256} (hk : symbolCount freq = 1) {x y : Byte}
    (hx : entry freq x ≠ 0) (hy : entry freq y ≠ 0) : x = y := by
  rw [symbolCount, ← length_leafNodes freq.toList 0] at hk
  obtain ⟨e, he⟩ := List.length_eq_one_iff.mp hk
  have hex := List.mem_singleton.mp (he ▸ leafNode_mem_leafNodes hx)
  have hey := List.mem_singleton.mp (he ▸ leafNode_mem_leafNodes hy)
  exact congrArg Node.sym (hex.trans hey.symm)

/-- For k = 1 the present symbol is the one the build names (R119). -/
theorem present_iff_of_symbolCount_eq_one {freq : Vector Word 256} (hk : symbolCount freq = 1) (sym : Byte) :
    entry freq sym ≠ 0 ↔ sym = firstSymbol freq := by
  have hexists : ∃ x, entry freq x ≠ 0 := by
    by_contra hnone
    push Not at hnone
    cases hk.symm.trans (symbolCount_eq_zero_iff.mpr hnone)
  obtain ⟨x, hx⟩ := hexists
  have hfreq := eq_singleFreq fun y hy => not_not.mp fun hy0 => hy (eq_of_symbolCount_eq_one hk hy0 hx)
  have hfirst : firstSymbol freq = x := by rw [hfreq, firstSymbol_singleFreq x hx]
  rw [hfirst]
  exact ⟨fun hsym => eq_of_symbolCount_eq_one hk hsym hx, fun he => he ▸ hx⟩

theorem entry_degenerateTable (x sym : Byte) :
    entry (degenerateTable x) sym = if sym = x then ⟨1, 0⟩ else CodeEntry.absent := by
  split
  · next he => rw [he, degenerateTable, entry_setEntry_same]
  · next hne => rw [degenerateTable, entry_setEntry_other _ _ hne, entry_replicate]

/-- What an EMPTY build leaves (R119). -/
structure BuiltEmpty (s t : State) : Prop where
  count : symbolCount s.freq = 0
  freq : t.freq = s.freq
  kind : t.kind = .empty
  ct : t.ct = Vector.replicate 256 CodeEntry.absent

/-- What a DEGENERATE build leaves in the registers of the leaf and the table (R119, R132). -/
structure BuiltDegenerate (s t : State) : Prop where
  count : symbolCount s.freq = 1
  freq : t.freq = s.freq
  kind : t.kind = .degenerate
  leaf : (nodeAt t.node 0).sym = firstSymbol s.freq
  ct : t.ct = degenerateTable (firstSymbol s.freq)

section
variable {s t : State} (h : exec .build s = .next t) (hf : t.lastFail = false)
include h hf

/-- The three results of a BUILD that succeeds (R110). -/
theorem exec_build_cases : BuiltEmpty s t ∨ BuiltDegenerate s t ∨ (t.kind = .general ∧ BuiltGeneral s t) := by
  rcases exec_next_cases h with ⟨u, -, -, hu, rfl⟩ | ⟨e, info, u, -, rfl⟩
  · cases hu
    case buildEmpty hk => exact .inl ⟨hk, rfl, rfl, rfl⟩
    case buildOne hk =>
      exact .inr (.inl ⟨hk, rfl, rfl, congrArg Node.sym (nodeAt_setIfInBounds_zero _ _), rfl⟩)
    case buildMany => exact .inr (.inr ⟨rfl, builtGeneral h hf rfl⟩)
  · cases hf

theorem registers_of_build :
    t.built = true ∧ t.freq = s.freq ∧ t.totalBits = totalBitsOf s.freq t.ct := by
  rcases exec_next_cases h with ⟨u, -, -, hu, rfl⟩ | ⟨e, info, u, -, rfl⟩
  · cases hu <;> exact ⟨rfl, rfl, rfl⟩
  · cases hf

end

theorem BuiltEmpty.tableInvariant {s t : State} (h : BuiltEmpty s t) : TableInvariant t where
  present _ sym := by
    have hcode : ¬t.hasCode sym := fun hcode => hcode (by rw [h.ct, entry_replicate]; rfl)
    rw [h.freq]
    exact iff_of_false hcode (not_not.mpr (symbolCount_eq_zero_iff.mp h.count sym))
  paths _ hk := by cases h.kind.symm.trans hk
  descends _ hk := by cases h.kind.symm.trans hk
  single _ hk := by cases h.kind.symm.trans hk

section
variable {s t : State} (h : BuiltDegenerate s t)
include h

theorem BuiltDegenerate.hasCode_iff (sym : Byte) : t.hasCode sym ↔ sym = firstSymbol s.freq := by
  rw [State.hasCode, h.ct, entry_degenerateTable]
  split <;> simp [*, CodeEntry.absent]

theorem BuiltDegenerate.codeOf_firstSymbol : t.codeOf (firstSymbol s.freq) = [false] := by
  rw [State.codeOf, h.ct, entry_degenerateTable, if_pos rfl]
  rfl

theorem BuiltDegenerate.tableInvariant : TableInvariant t where
  present _ sym := by
    rw [h.hasCode_iff, h.freq, present_iff_of_symbolCount_eq_one h.count]
  paths _ hk := by cases h.kind.symm.trans hk
  descends _ hk := by cases h.kind.symm.trans hk
  single _ _ sym hsym := by
    rw [(h.hasCode_iff sym).mp hsym]
    exact ⟨h.codeOf_firstSymbol, h.leaf⟩

end

/-- A BUILD that succeeds leaves tree and table in agreement. -/
theorem tableInvariant_of_build {s t : State} (h : exec .build s = .next t) (hf : t.lastFail = false) :
    TableInvariant t := by
  rcases exec_build_cases h hf with hbuilt | hbuilt | ⟨hk, hbuilt⟩
  · exact hbuilt.tableInvariant
  · exact hbuilt.tableInvariant
  · exact hbuilt.tableInvariant hk

/-! ### Every step keeps the agreement -/

/-- The agreement speaks of what BUILD fixes only. -/
theorem TableInvariant.of_treeKept {s t : State} (h : TableInvariant s) (hkept : TreeKept s t) : TableInvariant t := by
  obtain ⟨hbuilt, hfreq, hnode, hct, -, -, hnnode, hroot, hkind⟩ := hkept
  obtain ⟨hpresent, hpaths, hdescends, hsingle⟩ := h
  simp only [State.hasCode, State.codeOf, ← hbuilt, ← hfreq, ← hnode, ← hct, ← hnnode, ← hroot, ← hkind]
    at hpresent hpaths hdescends hsingle
  exact ⟨hpresent, hpaths, hdescends, hsingle⟩

theorem tableInvariant_of_unbuilt {s : State} (hb : s.built = false) : TableInvariant s := by
  have hne : s.built ≠ true := Bool.eq_false_iff.mp hb
  exact ⟨fun h => absurd h hne, fun h => absurd h hne, fun h => absurd h hne, fun h => absurd h hne⟩

/-- Only BUILD sets BUILT. -/
theorem Succeeds.built_eq {i : Instr} {s u : State} (h : Succeeds i s u) (hi : i ≠ .build) :
    u.built = s.built ∨ u.built = false := by
  cases h
  case clear => exact .inr rfl
  case buildEmpty | buildOne | buildMany => exact absurd rfl hi
  all_goals exact .inl rfl

theorem Fails.built_eq {i : Instr} {s u : State} {e : ErrorCode} {info : Word} (h : Fails i s e info u) :
    u.built = s.built := by
  cases h <;> rfl

theorem TableInvariant.exec {i : Instr} {s t : State} (h : TableInvariant s) (hexec : exec i s = .next t) :
    TableInvariant t := by
  by_cases hclear : i = .clear
  · subst hclear
    rw [exec_clear] at hexec
    cases hexec
    exact tableInvariant_of_unbuilt rfl
  cases hb : s.built with
  | true => exact h.of_treeKept (exec_treeKept hexec hb hclear)
  | false =>
    rcases exec_next_cases hexec with ⟨u, -, -, hu, rfl⟩ | ⟨e, info, u, hu, rfl⟩
    · by_cases hbuild : i = .build
      · subst hbuild
        exact tableInvariant_of_build hexec rfl
      · exact tableInvariant_of_unbuilt (by simpa [hb] using hu.built_eq hbuild)
    · exact tableInvariant_of_unbuilt (hu.built_eq.trans hb)

theorem TableInvariant.host {s : State} (h : TableInvariant s) (pending : List HostInput) (reads : List Word)
    (cmd opa : Word) : TableInvariant { s with pending := pending, reads := reads, cmd := cmd, opa := opa } :=
  h.of_treeKept ⟨rfl, rfl, rfl, rfl, rfl, rfl, rfl, rfl, rfl⟩

theorem TableInvariant.runCommand {w : Word} {s t : State} (h : TableInvariant s) (hrun : runCommand w s = .next t) :
    TableInvariant t := by
  rcases runCommand_cases w s with ⟨i, -, hr⟩ | ⟨e, -, hr⟩ <;> rw [hr] at hrun
  · exact h.exec hrun
  · cases hrun
    exact h.of_treeKept ⟨rfl, rfl, rfl, rfl, rfl, rfl, rfl, rfl, rfl⟩

/-- Settles O25: a built tree is kept or cleared, and only BUILD makes a new one, which agrees with its table. -/
theorem stepKeepsTreeAndTableInAgreement : Obligations.StepKeepsTreeAndTableInAgreement := by
  unfold Obligations.StepKeepsTreeAndTableInAgreement
  intro s t _ h hstep
  rcases step_next_cases hstep with ⟨-, rfl⟩ | ⟨_, rest, -, ⟨-, rfl⟩ | rfl | ⟨v, rfl⟩ | ⟨v, rfl⟩ | ⟨w, hw⟩⟩
  · exact h
  · exact tableInvariant_of_unbuilt rfl
  · exact h.host rest s.reads s.cmd s.opa
  · exact h.host rest (s.reads ++ [v]) s.cmd s.opa
  · exact h.host rest s.reads s.cmd v
  · exact (h.host rest s.reads w s.opa).runCommand hw

/-! ### The codes -/

/-- Settles O39: the derivation stores the path of every leaf it meets, and one path leads to each. -/
theorem codesAreRootToLeafPaths : Obligations.CodesAreRootToLeafPaths := by
  unfold Obligations.CodesAreRootToLeafPaths
  intro s t h hf hk sym
  have hbuilt := builtGeneral h hf hk
  exact ⟨hbuilt.leadsTo_iff sym, hbuilt.code_lt sym⟩

/-- Settles O40: the leaves reached are the present symbols', by paths of at most k − 1 steps. -/
theorem exactlyPresentSymbolsHaveCodes : Obligations.ExactlyPresentSymbolsHaveCodes := by
  unfold Obligations.ExactlyPresentSymbolsHaveCodes
  intro s t h hf sym
  obtain ⟨hb, hfreq, -⟩ := registers_of_build h hf
  refine ⟨hfreq ▸ (tableInvariant_of_build h hf).present hb sym, fun hk => ?_⟩
  have hbuilt := builtGeneral h hf hk
  exact hbuilt.len_ct sym ▸ hbuilt.len_derive_le sym

/-- R135 compares the shorter code with the first bits of the longer one. -/
theorem codeOf_prefix {t : State} {x y : Byte} (hlen : (entry t.ct x).len.toNat ≤ (entry t.ct y).len.toNat)
    (hcode : (entry t.ct y).code >>> ((entry t.ct y).len.toNat - (entry t.ct x).len.toNat) = (entry t.ct x).code) :
    t.codeOf x <+: t.codeOf y := by
  rw [State.codeOf, State.codeOf, ← hcode, ← take_codeBits _ hlen]
  exact List.take_prefix _ _

/-- In a table that agrees with its tree no code begins another: a path ends at the first leaf (R135). -/
theorem TableInvariant.eq_of_codeOf_prefix {t : State} (h : TableInvariant t) (hb : t.built = true)
    (hk : t.kind = .general ∨ t.kind = .degenerate) {x y : Byte} (hx : t.hasCode x) (hy : t.hasCode y)
    (hp : t.codeOf x <+: t.codeOf y) : x = y := by
  rcases hk with hk | hk
  · have hto := fun sym hsym => (h.paths hb hk sym (t.codeOf sym)).mpr ⟨hsym, rfl⟩
    exact (hto x hx).eq_of_prefix (hto y hy) hp
  · exact (h.single hb hk x hx).2.symm.trans (h.single hb hk y hy).2

/-- Settles O41: an EMPTY table has no codes, and in the others a code that begins another's ends at its leaf. -/
theorem codesArePrefixFree : Obligations.CodesArePrefixFree := by
  unfold Obligations.CodesArePrefixFree
  intro s t h hf x y hne hx hy hlen hcode
  obtain ⟨hb, hfreq, -⟩ := registers_of_build h hf
  have htable := tableInvariant_of_build h hf
  have hk : t.kind = .general ∨ t.kind = .degenerate := by
    rcases exec_build_cases h hf with hbuilt | hbuilt | ⟨hk, -⟩
    · exact absurd (symbolCount_eq_zero_iff.mp hbuilt.count x) (hfreq ▸ (htable.present hb x).mp hx)
    · exact .inr hbuilt.kind
    · exact .inl hk
  exact hne (htable.eq_of_codeOf_prefix hb hk hx hy (codeOf_prefix hlen hcode))

/-! ### TOTAL_BITS -/

/-- The sum over the register files, symbol by symbol. -/
theorem weightedSum_eq_sum_entries (freq : Vector Word 256) (ct : Vector CodeEntry 256) :
    weightedSum freq.toList ct.toList =
      ((List.range 256).map fun x =>
        (entry freq (BitVec.ofNat 8 x)).toNat * (entry ct (BitVec.ofNat 8 x)).len.toNat).sum := by
  calc weightedSum freq.toList ct.toList
    _ = ∑ i : Fin 256, freq[i].toNat * ct[i].len.toNat := weightedSum_toList freq ct
    _ = ∑ i : Fin 256, (entry freq (BitVec.ofNat 8 i)).toNat * (entry ct (BitVec.ofNat 8 i)).len.toNat := by
      simp [entry]
    _ = _ := Fin.sum_univ_eq_sum_range
      (fun x => (entry freq (BitVec.ofNat 8 x)).toNat * (entry ct (BitVec.ofNat 8 x)).len.toNat) 256

/-- 256 products of a 32-bit frequency and an 8-bit length fit in 48 bits (R10). -/
theorem weightedSum_lt (freq : Vector Word 256) (ct : Vector CodeEntry 256) :
    weightedSum freq.toList ct.toList < 2 ^ 48 := by
  have hterm : ∀ i : Fin 256, freq[i].toNat * ct[i].len.toNat ≤ (2 ^ 32 - 1) * (2 ^ 8 - 1) := fun i =>
    Nat.mul_le_mul (Nat.le_sub_one_of_lt freq[i].isLt) (Nat.le_sub_one_of_lt ct[i].len.isLt)
  rw [weightedSum_toList]
  exact (Finset.sum_le_card_nsmul _ _ _ fun i _ => hterm i).trans_lt (by norm_num)

/-- Settles O43: the sum fits in TB_W bits, so it is stored exactly. -/
theorem totalBitsIsTheExactSum : Obligations.TotalBitsIsTheExactSum := by
  unfold Obligations.TotalBitsIsTheExactSum
  intro s t h hf
  obtain ⟨-, -, htotal⟩ := registers_of_build h hf
  rw [htotal, totalBitsOf, toNat_ofNat_of_lt (weightedSum_lt _ _), weightedSum_eq_sum_entries]

/-! ### The Kraft sum -/

/-- The Kraft weight 2^(−LEN) of a code of the given length, in units of 2^(−255); length 0 is no code (R136). -/
def kraftWeight (len : Nat) : Nat := if len = 0 then 0 else 2 ^ (255 - len)

theorem kraftWeight_zero : kraftWeight 0 = 0 := rfl

theorem kraftWeight_of_pos {len : Nat} (h : 0 < len) : kraftWeight len = 2 ^ (255 - len) :=
  if_neg h.ne'

theorem kraftSum_eq_sum (t : State) : kraftSum t = (t.ct.toList.map fun e => kraftWeight e.len.toNat).sum := by
  simp only [kraftSum, kraftWeight, ← BitVec.toNat_inj]
  rfl

/-- The Kraft sum of a derived table. -/
def kraftSumOf (table : Vector PathCode 256) : Nat := (table.toList.map fun e => kraftWeight e.len).sum

/-- A sum over a register file grows by what is written to an entry that weighed nothing. -/
theorem sum_map_setEntry {α : Type} (w : α → Nat) (v : Vector α 256) (sym : Byte) (x : α)
    (h : w (entry v sym) = 0) :
    ((setEntry v sym x).toList.map w).sum = (v.toList.map w).sum + w x := by
  have hi : sym.toNat < (v.toList.map w).length := by simpa using sym.isLt
  have hget : (v.toList.map w)[sym.toNat] = 0 := by simpa [entry] using h
  rw [setEntry, Vector.toList_set, List.map_set, List.sum_set, if_pos hi]
  conv_rhs => rw [← List.sum_take_add_sum_drop _ sym.toNat, List.drop_eq_getElem_cons hi, List.sum_cons, hget]
  omega

theorem sum_map_replicate {α : Type} (w : α → Nat) {x : α} (h : w x = 0) :
    ((Vector.replicate 256 x).toList.map w).sum = 0 := by
  rw [Vector.toList_replicate, List.map_replicate, h, List.sum_replicate, smul_zero]

theorem kraftSum_storeTable {table : Vector PathCode 256} (hlen : ∀ sym, (entry table sym).len ≤ 255) :
    ((storeTable table).toList.map fun e => kraftWeight e.len.toNat).sum = kraftSumOf table := by
  rw [storeTable, Vector.toList_map, List.map_map, kraftSumOf]
  congr 1
  refine List.map_congr_left fun e he => ?_
  obtain ⟨sym, rfl⟩ := mem_toList_iff_entry.mp he
  exact congrArg kraftWeight (toNat_ofNat_of_lt (Nat.lt_succ_of_le (hlen sym)))

/-- At most one path leads from a node to a leaf of any one symbol. -/
def UniquePaths (node : Vector Node 511) (n : NodeId) : Prop :=
  ∀ sym bits bits', LeadsTo node n bits sym → LeadsTo node n bits' sym → bits = bits'

/-- No symbol with a leaf below a node has a code in the table yet. -/
def Unstored (node : Vector Node 511) (n : NodeId) (table : Vector PathCode 256) : Prop :=
  ∀ sym bits, LeadsTo node n bits sym → (entry table sym).len = 0

section
variable {node : Vector Node 511} {n : NodeId} (hleaf : (nodeAt node n.toNat).leaf = false)
include hleaf

theorem UniquePaths.child (h : UniquePaths node n) (b : Bool) :
    UniquePaths node (childOf (nodeAt node n.toNat) b) := fun sym bits bits' hto hto' =>
  List.tail_eq_of_cons_eq
    (h sym (b :: bits) (b :: bits') (leadsTo_cons.mpr ⟨hleaf, hto⟩) (leadsTo_cons.mpr ⟨hleaf, hto'⟩))

theorem Unstored.child {table : Vector PathCode 256} (h : Unstored node n table) (b : Bool) :
    Unstored node (childOf (nodeAt node n.toNat) b) table := fun sym bits hto =>
  h sym (b :: bits) (leadsTo_cons.mpr ⟨hleaf, hto⟩)

/-- What the derivation stores on the left is of symbols that have no leaf on the right. -/
theorem Unstored.walkTree_left {k next : Nat} (hd : Descends node k next) (fuel code len : Nat)
    {table : Vector PathCode 256} (hn : n.toNat < next) (hfuel : n.toNat ≤ fuel) (hunique : UniquePaths node n)
    (h : Unstored node n table) :
    Unstored node (childOf (nodeAt node n.toNat) true)
      (walkTree node fuel (childOf (nodeAt node n.toNat) false).toNat code len table) := by
  intro sym bits hto
  have hlt := hd.childOf_lt hn hleaf false
  have hright := leadsTo_cons.mpr ⟨hleaf, hto⟩
  rcases hd.entry_walkTree sym fuel code len table (hlt.trans hn) (hlt.trans_le hfuel) with ⟨bits', hto', -⟩ | ⟨-, he⟩
  · cases hunique sym (true :: bits) (false :: bits') hright (leadsTo_cons.mpr ⟨hleaf, hto'⟩)
  · rw [he]
    exact h sym (true :: bits) hright

end

/-- Below `n` the derivation adds the weight of a code that ends at `n`: each step halves it, to the left and to the
right. -/
theorem Descends.kraftSumOf_walkTree {node : Vector Node 511} {k next : Nat} (h : Descends node k next) (fuel : Nat)
    {n : NodeId} (code : Nat) {len : Nat} {table : Vector PathCode 256} (hn : n.toNat < next) (hfuel : n.toNat < fuel)
    (hlen : len + (n.toNat + 1 - k) ≤ 255) (hpos : 0 < len ∨ (nodeAt node n.toNat).leaf = false)
    (hunique : UniquePaths node n) (hfresh : Unstored node n table) :
    kraftSumOf (walkTree node fuel n.toNat code len table) = kraftSumOf table + 2 ^ (255 - len) := by
  induction fuel generalizing n code len table with
  | zero => cases hfuel
  | succ fuel ih =>
    cases hleaf : (nodeAt node n.toNat).leaf with
    | true =>
      have hlen0 : 0 < len := hpos.resolve_right (by simp [hleaf])
      have habsent := hfresh _ [] (leadsTo_nil.mpr ⟨hleaf, rfl⟩)
      rw [walkTree_of_leaf hleaf, kraftSumOf, sum_map_setEntry _ _ _ _ (by rw [habsent, kraftWeight_zero]),
        kraftWeight_of_pos hlen0, kraftSumOf]
    | false =>
      have hlt := h.childOf_lt hn hleaf
      have hk := (h n.toNat hn hleaf).1
      have hfuel := Nat.le_of_lt_succ hfuel
      have hchild : ∀ b code table, Unstored node (childOf (nodeAt node n.toNat) b) table →
          kraftSumOf (walkTree node fuel (childOf (nodeAt node n.toNat) b).toNat code (len + 1) table) =
            kraftSumOf table + 2 ^ (255 - (len + 1)) := fun b code table hfresh =>
        have hltb := hlt b
        ih code (hltb.trans hn) (hltb.trans_le hfuel) (by omega) (.inl len.succ_pos) (hunique.child hleaf b) hfresh
      have hhalf : 255 - len = (255 - (len + 1)) + 1 := by omega
      rw [walkTree_of_internal hleaf, hchild true _ _ (hfresh.walkTree_left hleaf h _ _ _ hn hfuel hunique),
        hchild false _ _ (hfresh.child hleaf false), hhalf, Nat.pow_succ]
      omega

/-- The codes of a GENERAL table weigh what the empty path would. -/
theorem BuiltGeneral.kraftSum_eq {s t : State} (h : BuiltGeneral s t) : kraftSum t = 2 ^ 255 := by
  have hle := symbolCount_le s.freq
  have hk := h.count
  have hroot := h.root
  have hderive : kraftSumOf (derive t.node t.root.toNat) =
      kraftSumOf (Vector.replicate 256 ⟨0, 0⟩) + 2 ^ (255 - 0) :=
    h.descends.kraftSumOf_walkTree 511 0 h.root_lt (by omega) (by omega) (.inr h.leaf_root)
      (fun _ _ _ => h.leadsTo_unique) fun _ _ _ => by rw [entry_replicate]
  have hempty : kraftSumOf (Vector.replicate 256 ⟨0, 0⟩) = 0 :=
    sum_map_replicate (fun e : PathCode => kraftWeight e.len) kraftWeight_zero
  rw [kraftSum_eq_sum, h.ct_eq, kraftSum_storeTable fun sym => (h.len_derive_le sym).trans (by omega), hderive, hempty,
    Nat.zero_add, Nat.sub_zero]

/-- One code of one bit weighs one half. -/
theorem BuiltDegenerate.kraftSum_eq {s t : State} (h : BuiltDegenerate s t) : kraftSum t = 2 ^ 254 := by
  have habsent : kraftWeight CodeEntry.absent.len.toNat = 0 := rfl
  rw [kraftSum_eq_sum, h.ct, degenerateTable, sum_map_setEntry _ _ _ _ (by rwa [entry_replicate]),
    sum_map_replicate (fun e : CodeEntry => kraftWeight e.len.toNat) habsent, Nat.zero_add]
  exact kraftWeight_of_pos Nat.one_pos

/-- Settles O42: each code of a GENERAL table is the only path to its leaf, so no weight is written over. -/
theorem kraftSums : Obligations.KraftSums := by
  unfold Obligations.KraftSums
  intro s t h hf
  refine ⟨fun hk => (builtGeneral h hf hk).kraftSum_eq, fun hk => ?_⟩
  rcases exec_build_cases h hf with hbuilt | hbuilt | ⟨hk', -⟩
  · cases hk.symm.trans hbuilt.kind
  · exact hbuilt.kraftSum_eq
  · cases hk.symm.trans hk'

/-! ### Codes that are too long -/

theorem firstTooLong_eq_some {maxLen : Nat} {table : Vector PathCode 256} {sym : Byte}
    (hsym : maxLen < (entry table sym).len)
    (hleast : ∀ x : Byte, x.toNat < sym.toNat → (entry table x).len ≤ maxLen) :
    firstTooLong maxLen table = some sym.toNat := by
  rw [firstTooLong, List.findIdx?_eq_some_iff_getElem]
  refine ⟨by simpa using sym.isLt, by simpa [entry] using hsym, fun j hj => ?_⟩
  have hlt := sym.isLt
  have hj' := hleast (BitVec.ofNat 8 j) (by rwa [toNat_ofNat_of_lt (by omega)])
  simpa [entry, Nat.mod_eq_of_lt (show j < 256 by omega)] using hj'

theorem pathAt_toNat (table : Vector PathCode 256) (sym : Byte) : pathAt table sym.toNat = entry table sym := by
  simp [pathAt, entry, Vector.getElem?_eq_getElem sym.isLt]

/-- With MAX_CODE_LEN 255 a GENERAL build succeeds (R139). -/
theorem exec_build_of_many_of_max {s : State} (hb : s.built = false) (he : s.encOpen = false)
    (hmax : s.params.maxCodeLen = 255) (hk : 2 ≤ symbolCount s.freq) :
    exec .build s = .next ((s.setQueue (buildTree s).pop).setTree (buildTree s).node .general (symbolCount s.freq)
      (2 * symbolCount s.freq - 1) (buildTree s).top (storeTable (buildTree s).table)).ok := by
  rw [exec_build_of_many hb he hk,
    finishBuild_of_fits (hmax ▸ firstTooLong_eq_none_iff.mpr (len_table_buildTree_le_255 hk))]

/-- The state with another MAX_CODE_LEN. -/
def State.withMaxCodeLen (maxLen : Nat) (s : State) : State :=
  { s with params := { s.params with maxCodeLen := maxLen } }

section
variable {s t : State} (hb : s.built = false) (he : s.encOpen = false)
  (h : exec .build (s.withMaxCodeLen 255) = .next t)
include hb he h

/-- The check of R134 is made on the lengths that the build at 255 stores. -/
theorem exec_build_of_tooLong (hk : 2 ≤ symbolCount s.freq) {sym : Byte}
    (hlong : s.params.maxCodeLen < (entry t.ct sym).len.toNat)
    (hleast : ∀ x : Byte, x.toNat < sym.toNat → (entry t.ct x).len.toNat ≤ s.params.maxCodeLen) :
    exec .build s = fail .build .codeLengthOverflow (0#16 ++ (entry t.ct sym).len ++ sym)
      { s.setQueue (buildTree s).pop with node := (buildTree s).node } := by
  rw [exec_build_of_many_of_max (s := s.withMaxCodeLen 255) hb he rfl hk] at h
  have hct : t.ct = storeTable (buildTree s).table := by cases h; rfl
  have hlen : ∀ x, (entry t.ct x).len.toNat = (entry (buildTree s).table x).len :=
    fun x => hct ▸ len_storeTable (len_table_buildTree_le_255 hk x)
  have htoo := firstTooLong_eq_some (hlen sym ▸ hlong) fun x hx => hlen x ▸ hleast x hx
  rw [exec_build_of_many hb he hk, finishBuild_of_tooLong htoo, pathAt_toNat, BitVec.ofNat_toNat, BitVec.setWidth_eq,
    hct, entry_storeTable]

theorem exec_build_of_fits (hfits : ∀ sym, (entry t.ct sym).len.toNat ≤ s.params.maxCodeLen) :
    exec .build s = .next { t with params := s.params } := by
  obtain hk | hk | hk : symbolCount s.freq = 0 ∨ symbolCount s.freq = 1 ∨ 2 ≤ symbolCount s.freq := by omega
  · rw [exec_build_of_none (s := s.withMaxCodeLen 255) hb he hk] at h
    rw [exec_build_of_none hb he hk]
    cases h
    rfl
  · rw [exec_build_of_one (s := s.withMaxCodeLen 255) hb he hk] at h
    rw [exec_build_of_one hb he hk]
    cases h
    rfl
  · rw [exec_build_of_many_of_max (s := s.withMaxCodeLen 255) hb he rfl hk] at h
    cases h
    have hnone : firstTooLong s.params.maxCodeLen (buildTree s).table = none :=
      firstTooLong_eq_none_iff.mpr fun x => len_storeTable (len_table_buildTree_le_255 hk x) ▸ hfits x
    rw [exec_build_of_many hb he hk, finishBuild_of_fits hnone]
    rfl

end

/-- Settles O33: the tree does not depend on MAX_CODE_LEN, only the check of its lengths does. -/
theorem tooLongCodesFailTheBuild : Obligations.TooLongCodesFailTheBuild := by
  unfold Obligations.TooLongCodesFailTheBuild
  intro s t hb he h
  exact ⟨fun sym hlong hk hleast => ⟨_, _, _, exec_build_of_tooLong hb he h hk hlong hleast⟩,
    exec_build_of_fits hb he h⟩

end Sys2Proof.Machine
end

section
/-! PROOFS. The statements of the family 44_bit_packer: the padding that every step keeps, the commands of an encode
session, PBWR and PBRD, and the stream that ENCODE (R83) packs. -/

namespace Sys2Proof.Machine

open Sys2Proof

/-! ### The padding of the stream -/

/-- The bits from stream bit `n` to the end of the byte that a stream of `n` bits ends in are 0 (R154). -/
def ZeroPadded (m : Memory) (n : Nat) : Prop := ∀ p, n ≤ p → p < 8 * bytesFor n → bitRead m p = .ok false

/-- A stream of no bits has no padding. -/
theorem zeroPadded_zero (m : Memory) : ZeroPadded m 0 :=
  fun p _ hp => absurd hp (Nat.not_lt_zero p)

theorem ZeroPadded.append {bits : List Bool} {m m' : Memory} {p : Nat} (h : ZeroPadded m p)
    (hm : appendBits m p bits = .ok m') : ZeroPadded m' (p + bits.length) :=
  bitRead_appendBits_padding hm h

/-- A byte that has padding was written. -/
theorem ZeroPadded.written {m : Memory} {n : Nat} (h : ZeroPadded m n) (hn : n % 8 ≠ 0) : m.written (n / 8) = true := by
  obtain ⟨v, hv, -⟩ := bitRead_eq_ok.mp (h n (Nat.le_refl n) (by unfold bytesFor; omega))
  exact Option.isSome_iff_exists.mpr ⟨v, hv⟩

/-- ENC_BITS holds every bit count of a PBUF in R9's range (R10). -/
theorem toNat_streamEnd {p : Params} (hv : p.valid) {n : Nat} (hn : n ≤ 8 * p.pbufBytes) :
    (BitVec.ofNat 32 n).toNat = n := by
  obtain ⟨⟨-, hsize⟩, -⟩ := hv
  exact toNat_ofNat_of_lt (by omega)

/-- With no session, open or just ended, the invariant says nothing. -/
theorem paddingInvariant_of_no_session {s : State} (hopen : s.encOpen = false) (hdone : s.encDone = false) :
    PaddingInvariant s := by
  rintro (h | h)
  · exact absurd h (Bool.eq_false_iff.mp hopen)
  · exact absurd h (Bool.eq_false_iff.mp hdone)

section
variable {s : State} (h : PaddingInvariant s)
include h

theorem PaddingInvariant.setStream {bits : List Bool} {m : Memory} (hv : s.params.valid) (hopen : s.encOpen = true)
    (hfit : s.encBits.toNat + bits.length ≤ 8 * s.params.pbufBytes)
    (hm : appendBits s.pbuf s.encBits.toNat bits = .ok m) :
    PaddingInvariant (s.setStream m (s.encBits.toNat + bits.length)) := by
  intro _
  rw [State.setStream_encBits, toNat_streamEnd hv hfit]
  exact ZeroPadded.append (h (.inl hopen)) hm

/-- A success that writes PBUF appends in a session, or is PBWR, which runs in no session and clears ENC_DONE. -/
theorem PaddingInvariant.succeeds {i : Instr} {u : State} (hv : s.params.valid) (hp : phaseOk s i = true)
    (hu : Succeeds i s u) : PaddingInvariant u := by
  cases hu
  case encs sym m hl hfit hm =>
    obtain ⟨hopen, -⟩ := Bool.and_eq_true_iff.mp hp
    simpa using h.setStream hv hopen (by simpa using hfit) hm
  case encp aux m hfit hm => simpa using h.setStream hv hp (by simpa using hfit) hm
  case encb => exact fun _ => zeroPadded_zero s.pbuf
  case ence => exact fun _ => h (.inl hp)
  case pbwr data ha => exact paddingInvariant_of_no_session (Bool.not_eq_true' _ ▸ hp) rfl
  case clear => exact paddingInvariant_of_no_session rfl rfl
  all_goals exact h

/-- An abort effect on the stream ends the session. -/
theorem PaddingInvariant.fails {i : Instr} {u : State} {e : ErrorCode} {info : Word} (hu : Fails i s e info u) :
    PaddingInvariant u := by
  cases hu
  case unknown | encsFull | encpFull => exact paddingInvariant_of_no_session rfl rfl
  all_goals exact h

end

theorem paddingInvariant_kept : KeptByParts fun s => s.params.valid ∧ PaddingInvariant s where
  host _ _ _ _ h := h
  reset := fun ⟨hv, _⟩ => ⟨hv, paddingInvariant_resetWith _⟩
  ok h := h
  raise _ _ _ h := h
  succeeds := fun ⟨hv, h⟩ hp hu => by
    obtain ⟨-, -, hparams, -⟩ := hu.hostKept
    exact ⟨hparams ▸ hv, h.succeeds hv hp hu⟩
  fails := fun ⟨hv, h⟩ hu => by
    obtain ⟨-, -, hparams, -⟩ := hu.hostKept
    exact ⟨hparams ▸ hv, h.fails hu⟩

/-- Settles O24: the stream grows in a session only, where an Append keeps zero padding, and its end does not wrap. -/
theorem stepKeepsThePaddingZero : Obligations.StepKeepsThePaddingZero := by
  unfold Obligations.StepKeepsThePaddingZero
  intro s t hv h hstep
  obtain ⟨-, ht⟩ := paddingInvariant_kept.step ⟨hv, h⟩ hstep
  exact ht

/-! ### The bounds of a session -/

theorem phaseOk_encb (s : State) : phaseOk s .encb = !s.encOpen := rfl

theorem phaseOk_ence (s : State) : phaseOk s .ence = s.encOpen := rfl

theorem exec_encb {s : State} (hopen : s.encOpen = false) :
    exec .encb s = .next { s with encOpen := true, encDone := false, encBits := 0, lastFail := false } := by
  show execEncb s = _
  rw [execEncb, guarded_of_ok _ rfl (by rw [phaseOk_encb, hopen, Bool.not_false])]
  rfl

theorem exec_ence {s : State} (hopen : s.encOpen = true) :
    exec .ence s = .next { s with encOpen := false, encDone := true, lastFail := false } := by
  show execEnce s = _
  rw [execEnce, guarded_of_ok _ rfl (by rw [phaseOk_ence, hopen])]
  rfl

/-- Settles O45. -/
theorem encbAndEnceBoundASession : Obligations.EncbAndEnceBoundASession := by
  unfold Obligations.EncbAndEnceBoundASession
  refine ⟨rfl, allIllegal_of_no_fields rfl rfl, rfl, allIllegal_of_no_fields rfl rfl,
    fun s => ⟨fun hopen => ⟨?_, exec_ence hopen⟩, fun hopen => ⟨?_, exec_encb hopen⟩⟩⟩
  · exact failsWith_phaseError rfl (by rw [phaseOk_encb, hopen, Bool.not_true])
  · exact failsWith_phaseError rfl (by rw [phaseOk_ence, hopen])

/-! ### PBWR and PBRD -/

theorem phaseOk_pbwr (s : State) (data : Byte) : phaseOk s (.pbwr data) = !s.encOpen := rfl

section
variable {s : State} (data : Byte) (hopen : s.encOpen = false)
include hopen

theorem exec_pbwr_of_out_of_range (ha : s.params.pbufBytes ≤ s.opa.toNat) :
    exec (.pbwr data) s = fail (.pbwr data) .addressRange s.opa s := by
  show execPbwr data s = _
  rw [execPbwr, guarded_of_ok _ rfl (by rw [phaseOk_pbwr, hopen, Bool.not_false])]
  exact if_pos ha

theorem exec_pbwr_of_in_range (ha : s.opa.toNat < s.params.pbufBytes) :
    exec (.pbwr data) s =
      .next { s with pbuf := s.pbuf.write s.opa.toNat data, encDone := false, lastFail := false } := by
  show execPbwr data s = _
  rw [execPbwr, guarded_of_ok _ rfl (by rw [phaseOk_pbwr, hopen, Bool.not_false])]
  exact if_neg (Nat.not_le.mpr ha)

end

/-- Settles O48: PBWR in phase and in range is one write of PBUF. -/
theorem pbwrStoresOneByte : Obligations.PbwrStoresOneByte := by
  unfold Obligations.PbwrStoresOneByte
  refine ⟨allIllegal_of_no_aux rfl,
    fun data s => ⟨assemble_sym _ data, fun hopen => ?_, exec_pbwr_of_out_of_range data, fun hopen ha => ?_⟩⟩
  · exact failsWith_phaseError rfl (by rw [phaseOk_pbwr, hopen, Bool.not_true])
  · exact ⟨_, exec_pbwr_of_in_range data hopen ha, Memory.read?_write_same _ _ _,
      fun a hne => Memory.read?_write_other _ _ hne⟩

theorem exec_pbrd_of_out_of_range {s : State} (ha : s.params.pbufBytes ≤ s.opa.toNat) :
    exec .pbrd s = fail .pbrd .addressRange s.opa s := by
  show execPbrd s = _
  rw [execPbrd, guarded_of_ok (i := .pbrd) _ rfl rfl]
  exact if_pos ha

section
variable {s : State} (ha : s.opa.toNat < s.params.pbufBytes)
include ha

theorem exec_pbrd_of_written {v : Byte} (hv : s.pbuf.read? s.opa.toNat = some v) :
    exec .pbrd s = .next (s.setRes (zextByte v)).ok := by
  show execPbrd s = _
  rw [execPbrd, guarded_of_ok (i := .pbrd) _ rfl rfl, State.opaIndex, if_neg (Nat.not_le.mpr ha), memRead_eq_ok.mpr hv]
  rfl

theorem exec_pbrd_of_unwritten (hn : s.pbuf.written s.opa.toNat = false) :
    exec .pbrd s = .fault (.uninitRead .pbuf s.opa.toNat) := by
  show execPbrd s = _
  rw [execPbrd, guarded_of_ok (i := .pbrd) _ rfl rfl, State.opaIndex, if_neg (Nat.not_le.mpr ha),
    memRead_eq_error.mpr ⟨written_eq_false_iff.mp hn, rfl⟩]

end

/-- Settles O49: PBRD has no precondition, and in range it is one read of PBUF. -/
theorem pbrdReadsOneByte : Obligations.PbrdReadsOneByte := by
  unfold Obligations.PbrdReadsOneByte
  exact ⟨rfl, allIllegal_of_no_fields rfl rfl, fun s => ⟨exec_pbrd_of_out_of_range,
    fun ha => ⟨fun _ hv => exec_pbrd_of_written ha hv, exec_pbrd_of_unwritten ha⟩⟩⟩

/-! ### Packing the bits of a code -/

/-- `m'` is the buffer `m` after the low `l` bits of `c` are packed at stream bit `p`, the most significant first (R146):
the bits before are kept, the rest of the last byte is 0 where that byte begins here and is kept where it does not, and
the bytes that hold none of the bits are kept (R149). -/
structure PacksCode {w : Nat} (c : BitVec w) (l p : Nat) (m m' : Memory) : Prop where
  bits : ∀ j, j < l → bitRead m' (p + j) = .ok (c.getLsbD (l - 1 - j))
  before : ∀ q, q < p → bitRead m' q = bitRead m q
  after : ∀ q, p + l ≤ q → q / 8 = (p + l - 1) / 8 →
    bitRead m' q = if p % 8 ≠ 0 ∧ q / 8 = p / 8 then bitRead m q else .ok false
  bytes : ∀ a, a < p / 8 ∨ (p + l - 1) / 8 < a → m'.read? a = m.read? a

section
variable {w l p : Nat} {c : BitVec w} {m : Memory}

theorem packsCode_of_appendBits {m' : Memory} (hl : l ≠ 0) (h : appendBits m p (codeBits c l) = .ok m') :
    PacksCode c l p m m' where
  bits j hj := by
    rw [← getElem_codeBits c l j (by simpa using hj)]
    exact bitRead_appendBits h _
  before q hq := bitRead_appendBits_before h hq
  after q h1 h2 := by
    have hne : codeBits c l ≠ [] := List.ne_nil_of_length_pos (by rw [length_codeBits]; omega)
    exact bitRead_appendBits_after h hne (by simpa using h1) (by simpa using h2)
  bytes a ha := read?_appendBits h a (by rw [length_codeBits]; omega)

/-- Packing completes where the byte that the stream ends in was written. -/
theorem exists_packsCode (c : BitVec w) (hl : l ≠ 0) (hw : p % 8 ≠ 0 → m.written (p / 8) = true) :
    ∃ m', appendBits m p (codeBits c l) = .ok m' ∧ PacksCode c l p m m' := by
  obtain ⟨m', hm⟩ := appendBits_completes (codeBits c l) m p (Decidable.or_iff_not_imp_left.mpr hw)
  exact ⟨m', hm, packsCode_of_appendBits hl hm⟩

end

section
variable (i : Instr) {bits : List Bool} {s : State}

theorem packBits_of_full (h : 8 * s.params.pbufBytes < s.encBits.toNat + bits.length) :
    packBits i bits s = fail i .capacityExceeded (BitVec.ofNat 32 (s.encBits.toNat + bits.length)) s.abortEncode :=
  if_pos h

theorem packBits_of_fits (h : s.encBits.toNat + bits.length ≤ 8 * s.params.pbufBytes) {m : Memory}
    (hm : appendBits s.pbuf s.encBits.toNat bits = .ok m) :
    packBits i bits s = done (s.setStream m (s.encBits.toNat + bits.length)) := by
  rw [packBits, State.pbufBits, if_neg (Nat.not_lt.mpr h), hm]

end

/-! ### ENCS -/

theorem phaseOk_encs (s : State) (sym : Byte) : phaseOk s (.encs sym) = (s.encOpen && s.built) := rfl

theorem length_codeOf (s : State) (sym : Byte) : (s.codeOf sym).length = (entry s.ct sym).len.toNat :=
  length_codeBits _ _

theorem hasCode_iff_len {s : State} {sym : Byte} : s.hasCode sym ↔ (entry s.ct sym).len.toNat ≠ 0 :=
  BitVec.toNat_inj.symm.not

section
variable {s : State} {sym : Byte} (hopen : s.encOpen = true) (hb : s.built = true)
include hopen hb

theorem guarded_encs (rule : State → Result) : guarded (.encs sym) s rule = rule s :=
  guarded_of_ok rule rfl (by rw [phaseOk_encs, hopen, hb, Bool.and_self])

theorem exec_encs_of_no_code (hcode : ¬s.hasCode sym) :
    exec (.encs sym) s = fail (.encs sym) .unknownSymbol (zextByte sym) s.abortEncode := by
  show execEncs sym s = _
  rw [execEncs, guarded_encs hopen hb]
  exact if_pos (not_not.mp hcode)

theorem exec_encs_of_code (hcode : s.hasCode sym) :
    exec (.encs sym) s = packBits (.encs sym) (s.codeOf sym) s := by
  show execEncs sym s = _
  rw [execEncs, guarded_encs hopen hb]
  exact if_neg hcode

end

/-- Settles O46: ENCS in phase looks the code up and packs it. -/
theorem encsEncodesOneSymbol : Obligations.EncsEncodesOneSymbol := by
  unfold Obligations.EncsEncodesOneSymbol
  refine ⟨allIllegal_of_no_aux rfl, fun sym s => ⟨assemble_sym _ sym, fun h => ?_, fun hopen hb => ?_⟩⟩
  · exact failsWith_phaseError rfl (by rcases h with h | h <;> simp [phaseOk_encs, h])
  · intro l
    have hlen : (s.codeOf sym).length = l := length_codeOf s sym
    refine ⟨fun hl => ?_, fun hl hfull => ?_, fun hl hfit hw => ?_⟩
    · exact exec_encs_of_no_code hopen hb (hasCode_iff_len.not.mpr (not_not.mpr hl))
    · rw [exec_encs_of_code hopen hb (hasCode_iff_len.mpr hl), packBits_of_full _ (hlen ▸ hfull), hlen]
      rfl
    · obtain ⟨m, hm, hpack⟩ : ∃ m, appendBits s.pbuf s.encBits.toNat (s.codeOf sym) = .ok m ∧
          PacksCode (entry s.ct sym).code l s.encBits.toNat s.pbuf m := exists_packsCode _ hl hw
      refine ⟨m, ?_, hpack.bits, hpack.before, hpack.after, hpack.bytes⟩
      rw [exec_encs_of_code hopen hb (hasCode_iff_len.mpr hl), packBits_of_fits _ (hlen ▸ hfit) hm, hlen]
      rfl

/-! ### ENCP -/

theorem wellFormed_encp_iff {n : Byte} : (Instr.encp n).wellFormed = true ↔ 1 ≤ n.toNat ∧ n.toNat ≤ 32 := by
  simp [Instr.wellFormed]

/-- ENCP has no legal word with AUX 0 or above 32 or with SYM or RSV not 0 (R71, R150). -/
theorem allIllegal_encp : AllIllegal (fun w => w.extractLsb' 0 8 = 0x0C ∧
    ((w.extractLsb' 16 8).toNat = 0 ∨ 32 < (w.extractLsb' 16 8).toNat ∨ w.extractLsb' 8 8 ≠ 0 ∨
      w.extractLsb' 24 8 ≠ 0)) := by
  refine allIllegal_of_not_legalWord ?_
  rintro w ⟨hopc, hbad⟩ hlegal
  have hopc' : fieldOpc w = 0x0C := hopc
  have hrange : auxInRange 0x0C (fieldAux w) = true := hopc' ▸ hlegal.range
  have hsym : usesSym 0x0C = true ∨ fieldSym w = 0 := hopc' ▸ hlegal.sym
  obtain ⟨hpos, hle⟩ := wellFormed_encp_iff.mp hrange
  rcases hbad with hzero | hmany | hne | hne
  · exact Nat.one_le_iff_ne_zero.mp hpos hzero
  · exact Nat.not_lt.mpr hle hmany
  · exact hne (hsym.resolve_left (by decide))
  · exact hne hlegal.rsv

theorem phaseOk_encp (s : State) (n : Byte) : phaseOk s (.encp n) = s.encOpen := rfl

theorem exec_encp {s : State} {n : Byte} (h1 : 1 ≤ n.toNat) (h2 : n.toNat ≤ 32) (hopen : s.encOpen = true) :
    exec (.encp n) s = packBits (.encp n) (codeBits s.opa n.toNat) s := by
  show execEncp n s = _
  rw [execEncp, guarded_of_ok _ (wellFormed_encp_iff.mpr ⟨h1, h2⟩) (by rw [phaseOk_encp, hopen])]

/-- Settles O47: ENCP in phase packs the low bits of OPA as ENCS packs a code. -/
theorem encpPacksRawBits : Obligations.EncpPacksRawBits := by
  unfold Obligations.EncpPacksRawBits
  refine ⟨allIllegal_encp, fun n s h1 h2 => ⟨rfl, fun hopen => ?_, fun hopen hfull => ?_, fun hopen hfit hw => ?_⟩⟩
  · exact failsWith_phaseError (wellFormed_encp_iff.mpr ⟨h1, h2⟩) (by rw [phaseOk_encp, hopen])
  · rw [exec_encp h1 h2 hopen, packBits_of_full _ (by rwa [length_codeBits]), length_codeBits]
    rfl
  · obtain ⟨m, hm, hpack⟩ := exists_packsCode s.opa (Nat.one_le_iff_ne_zero.mp h1) hw
    refine ⟨m, ?_, hpack.bits, hpack.before, hpack.after, hpack.bytes⟩
    rw [exec_encp h1 h2 hopen, packBits_of_fits _ (by rwa [length_codeBits]) hm, length_codeBits]
    rfl

/-! ### Runs of issued commands -/

section
variable {M : Host.Core} {s t : M.State}

theorem run_succ_of_next (h : M.step s = .next t) (n : Nat) : M.run (n + 1) s = M.run n t := by
  rw [Host.Core.run, h]

theorem run_add_of_next {m : Nat} (h : M.run m s = .next t) (n : Nat) : M.run (m + n) s = M.run n t := by
  induction m generalizing s with
  | zero => cases h; rw [Nat.zero_add]
  | succ m ih =>
    rw [Host.Core.run] at h
    split at h
    · next u hu =>
      rw [Nat.succ_add, run_succ_of_next hu]
      exact ih h
    · cases h
    · cases h

end

/-- A step that takes an issued command runs it (R54). -/
theorem step_of_issue {s : State} {i : Instr} {rest : List HostInput} (hw : i.wellFormed = true)
    (hp : s.pending = issue s.params i :: rest) : step s = exec i { s with pending := rest, cmd := encode i } :=
  stepRunsTheDecodedCommand s rest (encode i) i hp (decode_eq_ok_iff.mpr ⟨hw, rfl⟩)

/-! ### The stream that ENCODE packs -/

/-- The stream in the buffer begins with the bits (R56). -/
def StreamHolds (m : Memory) (bits : List Bool) : Prop := ∀ p (h : p < bits.length), bitRead m p = .ok bits[p]

theorem streamHolds_nil (m : Memory) : StreamHolds m [] := nofun

theorem StreamHolds.append {bits new : List Bool} {m m' : Memory} (h : StreamHolds m bits)
    (hm : appendBits m bits.length new = .ok m') : StreamHolds m' (bits ++ new) := by
  intro p hp
  by_cases hlt : p < bits.length
  · rw [bitRead_appendBits_before hm hlt, h p hlt, List.getElem_append_left hlt]
  · obtain ⟨j, rfl⟩ := Nat.exists_eq_add_of_le (Nat.le_of_not_lt hlt)
    have hj : j < new.length := by simpa using hp
    rw [bitRead_appendBits hm hj, List.getElem_append_right (Nat.le_add_right _ j)]
    simp

/-- The packed stream of `t` is `bits` with zero padding, the host inputs that wait are `rest`, and the tree, the
parameters and ERR_VALID are those of `s`. -/
structure Packed (s : State) (bits : List Bool) (rest : List HostInput) (t : State) : Prop where
  tree : TreeKept s t
  params : t.params = s.params
  errValid : t.errValid = s.errValid
  pending : t.pending = rest
  encBits : t.encBits.toNat = bits.length
  stream : StreamHolds t.pbuf bits
  padding : ZeroPadded t.pbuf bits.length

/-- In the session that ENCODE opened. -/
structure Packing (s : State) (bits : List Bool) (rest : List HostInput) (t : State) : Prop
    extends Packed s bits rest t where
  encOpen : t.encOpen = true

/-- After the ENCE that closes ENCODE's session. -/
structure Encoded (s : State) (bits : List Bool) (rest : List HostInput) (t : State) : Prop
    extends Packed s bits rest t where
  encOpen : t.encOpen = false
  encDone : t.encDone = true
  lastFail : t.lastFail = false

section
variable {s t : State} {bits : List Bool} {rest : List HostInput}

theorem step_encb (hopen : s.encOpen = false) (hp : s.pending = issue s.params .encb :: rest) :
    ∃ t, step s = .next t ∧ Packing s [] rest t := by
  refine ⟨_, (step_of_issue rfl hp).trans (exec_encb hopen), ?_⟩
  exact {
    tree := ⟨rfl, rfl, rfl, rfl, rfl, rfl, rfl, rfl, rfl⟩
    params := rfl
    errValid := rfl
    pending := rfl
    encBits := rfl
    stream := streamHolds_nil _
    padding := zeroPadded_zero _
    encOpen := rfl }

/-- The step that takes an issued command starts it in the same session. -/
theorem Packing.step_issue {i : Instr} (h : Packing s bits (issue s.params i :: rest) t) (hw : i.wellFormed = true) :
    ∃ t', step t = exec i t' ∧ Packing s bits rest t' :=
  ⟨_, step_of_issue hw (h.params ▸ h.pending), { h with pending := rfl }⟩

theorem Packing.exec_ence (h : Packing s bits rest t) : ∃ u, exec .ence t = .next u ∧ Encoded s bits rest u :=
  ⟨_, Machine.exec_ence h.encOpen, { h with encOpen := rfl, encDone := rfl, lastFail := rfl }⟩

theorem Packed.built_eq (h : Packed s bits rest t) : t.built = s.built := by
  obtain ⟨hbuilt, -⟩ := h.tree
  exact hbuilt

theorem Packed.codeOf_eq (h : Packed s bits rest t) (sym : Byte) : t.codeOf sym = s.codeOf sym := by
  obtain ⟨-, -, -, hct, -⟩ := h.tree
  rw [State.codeOf, State.codeOf, hct]

theorem Packed.hasCode_iff (h : Packed s bits rest t) (sym : Byte) : t.hasCode sym ↔ s.hasCode sym := by
  obtain ⟨-, -, -, hct, -⟩ := h.tree
  rw [State.hasCode, State.hasCode, hct]

/-- The Append of a code at the end of the stream completes: the byte it goes on in has padding. -/
theorem Packed.exists_appendBits (h : Packed s bits rest t) (new : List Bool) :
    ∃ m, appendBits t.pbuf bits.length new = .ok m :=
  appendBits_completes new t.pbuf bits.length (Decidable.or_iff_not_imp_left.mpr h.padding.written)

section
variable (hv : s.params.valid) (hb : s.built = true)
include hv hb

theorem Packing.exec_encs {sym : Byte} (h : Packing s bits rest t) (hcode : s.hasCode sym)
    (hfit : (bits ++ s.codeOf sym).length ≤ 8 * s.params.pbufBytes) :
    ∃ u, exec (.encs sym) t = .next u ∧ Packing s (bits ++ s.codeOf sym) rest u := by
  obtain ⟨m, hm⟩ := h.exists_appendBits (s.codeOf sym)
  have hend : t.encBits.toNat + (s.codeOf sym).length = (bits ++ s.codeOf sym).length := by
    rw [h.encBits, List.length_append]
  have hexec : exec (.encs sym) t = done (t.setStream m (bits ++ s.codeOf sym).length) := by
    rw [exec_encs_of_code h.encOpen (h.built_eq.trans hb) ((h.hasCode_iff sym).mpr hcode), h.codeOf_eq,
      packBits_of_fits _ (by rwa [hend, h.params]) (by rwa [h.encBits]), hend]
  refine ⟨_, hexec, ?_⟩
  exact { h with
    encBits := toNat_streamEnd hv hfit
    stream := h.stream.append hm
    padding := List.length_append ▸ h.padding.append hm }

theorem Packing.run_encs (xs : List Byte)
    (h : Packing s bits ((xs.map fun x => issue s.params (.encs x)) ++ rest) t) (hcodes : ∀ x ∈ xs, s.hasCode x)
    (hfit : (bits ++ xs.flatMap s.codeOf).length ≤ 8 * s.params.pbufBytes) :
    ∃ u, core.run xs.length t = .next u ∧ Packing s (bits ++ xs.flatMap s.codeOf) rest u := by
  induction xs generalizing bits t with
  | nil => exact ⟨t, rfl, by simpa using h⟩
  | cons x xs ih =>
    obtain ⟨hx, hxs⟩ := List.forall_mem_cons.mp hcodes
    rw [List.flatMap_cons, ← List.append_assoc] at hfit ⊢
    obtain ⟨t', hstep, ht'⟩ := h.step_issue rfl
    obtain ⟨u, hexec, hu⟩ := ht'.exec_encs hv hb hx (by rw [List.length_append] at hfit; omega)
    obtain ⟨v, hrun, hend⟩ := ih hu hxs hfit
    exact ⟨v, (run_succ_of_next (M := core) (hstep.trans hexec) xs.length).trans hrun, hend⟩

/-- ENCODE of bytes that have codes and fit PBUF packs their codes and closes its session. -/
theorem run_encode (xs : List Byte) (hopen : s.encOpen = false)
    (hp : s.pending = (Macro.encode xs).expand s.params ++ rest) (hcodes : ∀ x ∈ xs, s.hasCode x)
    (hfit : (xs.flatMap s.codeOf).length ≤ 8 * s.params.pbufBytes) :
    ∃ t, core.run (xs.length + 2) s = .next t ∧ Encoded s (xs.flatMap s.codeOf) rest t := by
  have hp' : s.pending = issue s.params .encb ::
      ((xs.map fun x => issue s.params (.encs x)) ++ issue s.params .ence :: rest) := by
    rw [hp, Macro.expand]
    simp
  obtain ⟨t, hbegin, ht⟩ := step_encb hopen hp'
  obtain ⟨u, hrun, hu⟩ := ht.run_encs hv hb xs hcodes hfit
  obtain ⟨u', hstep, hu'⟩ := hu.step_issue rfl
  obtain ⟨v, hclose, hend⟩ := hu'.exec_ence
  refine ⟨v, ?_, hend⟩
  calc core.run (xs.length + 2) s
      = core.run (xs.length + 1) t := run_succ_of_next (M := core) hbegin _
    _ = core.run 1 u := run_add_of_next hrun 1
    _ = .next v := run_succ_of_next (M := core) (hstep.trans hclose) 0

end

end

/-- Settles O58: each ENCS appends one code to the stream, and an Append keeps zero padding. -/
theorem encodePacksTheConcatenatedCodes : Obligations.EncodePacksTheConcatenatedCodes := by
  unfold Obligations.EncodePacksTheConcatenatedCodes
  intro s xs hv hb hopen hvalid hcodes hfit
  obtain ⟨t, hrun, ht⟩ := run_encode (s := { s with pending := (Macro.encode xs).expand s.params }) (rest := []) hv hb
    xs hopen (List.append_nil _).symm hcodes hfit
  refine ⟨t, hrun, ht.lastFail, ht.errValid.trans hvalid, ht.encOpen, ht.encDone, ?_, ht.stream, ?_⟩
  · calc t.encBits.toNat
        = (xs.flatMap s.codeOf).length := ht.encBits
      _ = (xs.map fun x => (s.codeOf x).length).sum := List.length_flatMap
      _ = (xs.map fun x => (entry s.ct x).len.toNat).sum := by simp only [length_codeOf]
  · rw [ht.encBits]
    exact ht.padding

end Sys2Proof.Machine
end

section
/-! PROOFS. The statements of the family 45_decoder: ORD, the checks of DEC and what a walk leaves, the walk of a
DEGENERATE and of a GENERAL tree, and the round trip. -/

namespace Sys2Proof.Machine

open Sys2Proof

/-! ### ORD -/

theorem exec_ord_of_out_of_range {s : State} (ha : s.outLen.toNat ≤ s.opa.toNat) :
    exec .ord s = fail .ord .addressRange s.opa s := by
  show execOrd s = _
  rw [execOrd, guarded_of_ok (i := .ord) _ rfl rfl]
  exact if_pos ha

theorem exec_ord_of_written {s : State} (ha : s.opa.toNat < s.outLen.toNat) {v : Byte}
    (hv : s.obuf.read? s.opa.toNat = some v) : exec .ord s = .next (s.setRes (zextByte v)).ok := by
  show execOrd s = _
  rw [execOrd, guarded_of_ok (i := .ord) _ rfl rfl, State.opaIndex, if_neg (Nat.not_le.mpr ha), memRead_eq_ok.mpr hv]
  rfl

/-- Settles O57: ORD has no precondition, and below OUT_LEN it is one read of OBUF. -/
theorem ordReadsOneDecodedByte : Obligations.OrdReadsOneDecodedByte := by
  unfold Obligations.OrdReadsOneDecodedByte
  exact ⟨rfl, allIllegal_of_no_fields rfl rfl, fun s => ⟨exec_ord_of_out_of_range,
    fun ha _ hv => exec_ord_of_written ha hv⟩⟩

/-! ### DEC in terms of its walk -/

/-- DEC has no legal word with AUX above 1 or with SYM or RSV not 0 (R71, R176). -/
theorem allIllegal_dec : AllIllegal (fun w => w.extractLsb' 0 8 = 0x10 ∧
    (1 < (w.extractLsb' 16 8).toNat ∨ w.extractLsb' 8 8 ≠ 0 ∨ w.extractLsb' 24 8 ≠ 0)) := by
  refine allIllegal_of_not_legalWord ?_
  rintro w ⟨hopc, hbad⟩ hlegal
  have hopc' : fieldOpc w = 0x10 := hopc
  have hrange : auxInRange 0x10 (fieldAux w) = true := hopc' ▸ hlegal.range
  have hsym : usesSym 0x10 = true ∨ fieldSym w = 0 := hopc' ▸ hlegal.sym
  rcases hbad with haux | hne | hne
  · exact absurd (of_decide_eq_true hrange) (Nat.not_le.mpr haux)
  · exact hne (hsym.resolve_left (by decide))
  · exact hne hlegal.rsv

theorem phaseOk_dec (s : State) (aux : Byte) : phaseOk s (.dec aux) = (s.built && !s.encOpen) := rfl

section
variable {s : State} {budget : Nat} (i : Instr)

theorem decodeBits_of_over (h : 8 * s.params.pbufBytes < budget) : decodeBits i budget s =
    fail i .capacityExceeded (BitVec.ofNat 32 (min budget 0xFFFFFFFF)) s.beginDecode :=
  if_pos h

section
variable (h : budget ≤ 8 * s.params.pbufBytes)
include h

theorem decodeBits_of_decoded {out : List Byte} {cur : NodeId} (hw : walk s budget 0 s.root [] = .decoded out cur) :
    decodeBits i budget s = done (s.commitDecode budget out cur) := by
  rw [decodeBits, State.pbufBits, if_neg (Nat.not_lt.mpr h), hw]

theorem decodeBits_of_failed {e : ErrorCode} {pos : Nat} {cur : NodeId}
    (hw : walk s budget 0 s.root [] = .failed e pos cur) :
    decodeBits i budget s = fail i e (BitVec.ofNat 32 pos) (s.beginDecode.setWalk budget pos cur) := by
  rw [decodeBits, State.pbufBits, if_neg (Nat.not_lt.mpr h), hw]

theorem decodeBits_of_faulted {f : Fault} (hw : walk s budget 0 s.root [] = .faulted f) :
    decodeBits i budget s = .fault f := by
  rw [decodeBits, State.pbufBits, if_neg (Nat.not_lt.mpr h), hw]

end

end

/-- DEC past the frame's checks is its rule (R176). -/
theorem exec_dec_of_phaseOk {s : State} {aux : Byte} (hw : (Instr.dec aux).wellFormed = true)
    (hp : phaseOk s (.dec aux) = true) : exec (.dec aux) s = decodeBits (.dec aux) (decodeBudget aux s) s :=
  guarded_of_ok (i := .dec aux) _ hw hp

section
variable {s : State} {aux : Byte} (haux : aux.toNat ≤ 1) (hb : s.built = true) (hopen : s.encOpen = false)
include haux hb hopen

theorem exec_dec : exec (.dec aux) s = decodeBits (.dec aux) (decodeBudget aux s) s :=
  exec_dec_of_phaseOk (decide_eq_true haux) (by rw [phaseOk_dec, hb, hopen]; rfl)

theorem exec_dec_of_decoded (h : decodeBudget aux s ≤ 8 * s.params.pbufBytes) {out : List Byte} {cur : NodeId}
    (hw : walk s (decodeBudget aux s) 0 s.root [] = .decoded out cur) :
    exec (.dec aux) s = .next (s.commitDecode (decodeBudget aux s) out cur).ok :=
  (exec_dec haux hb hopen).trans (decodeBits_of_decoded _ h hw)

theorem exec_dec_of_failed (h : decodeBudget aux s ≤ 8 * s.params.pbufBytes) {e : ErrorCode} {pos : Nat} {cur : NodeId}
    (hw : walk s (decodeBudget aux s) 0 s.root [] = .failed e pos cur) :
    exec (.dec aux) s = fail (.dec aux) e (BitVec.ofNat 32 pos)
      (s.beginDecode.setWalk (decodeBudget aux s) pos cur) :=
  (exec_dec haux hb hopen).trans (decodeBits_of_failed _ h hw)

end

/-- The commit loop of R176 writes the output from OBUF address 0 on. -/
theorem read?_writeAll_zero (m : Memory) (out : List Byte) {i : Nat} (h : i < out.length) :
    (m.writeAll 0 out).read? i = some out[i] := by
  simp [Memory.read?_writeAll, h]

/-- It writes no byte past the output. -/
theorem read?_writeAll_zero_of_le (m : Memory) {out : List Byte} {a : Nat} (h : out.length ≤ a) :
    (m.writeAll 0 out).read? a = m.read? a := by
  simp [Memory.read?_writeAll, Nat.not_lt.mpr h]

/-- Settles O50: in phase and within PBUF the outcome of DEC is the walk's. -/
theorem decRunsTheWalk : Obligations.DecRunsTheWalk := by
  unfold Obligations.DecRunsTheWalk
  refine ⟨allIllegal_dec, fun aux s haux => ⟨rfl, fun h => ?_, fun hb hopen => ⟨fun hover => ?_, fun hfit => ?_⟩⟩⟩
  · exact failsWith_phaseError (decide_eq_true haux) (by rcases h with h | h <;> simp [phaseOk_dec, h])
  · exact (exec_dec haux hb hopen).trans (decodeBits_of_over _ hover)
  · split
    · next out cur hw =>
      exact ⟨_, cur, exec_dec_of_decoded haux hb hopen hfit hw, fun i hi => read?_writeAll_zero _ out hi,
        fun a ha => read?_writeAll_zero_of_le _ ha⟩
    · next e pos cur hw => exact ⟨cur, exec_dec_of_failed haux hb hopen hfit hw⟩
    · next f hw => exact (exec_dec haux hb hopen).trans (decodeBits_of_faulted _ hfit hw)

/-- Settles O51: a walk of no bits ends at the root, and in an EMPTY tree any other ends before its first bit. -/
theorem decOfNothingAndOfAnEmptyTree : Obligations.DecOfNothingAndOfAnEmptyTree := by
  unfold Obligations.DecOfNothingAndOfAnEmptyTree
  refine fun aux s haux hb hopen => ⟨fun hzero => ?_, fun hk hpos hfit => ?_⟩
  · have hw : walk s (decodeBudget aux s) 0 s.root [] = .decoded [] s.root := by
      rw [hzero, walk_zero, if_neg (not_not.mpr rfl)]
    rw [exec_dec_of_decoded haux hb hopen (by omega) hw, hzero]
    rfl
  · have hw : walk s (decodeBudget aux s) 0 s.root [] = .failed .malformedEncodedData 0 s.root := by
      rw [← Nat.succ_pred_eq_of_pos hpos, walk, if_pos hk]
    exact exec_dec_of_failed haux hb hopen hfit hw

/-- The outcome with another PBUF in its state. -/
def withPbuf (m : Memory) : Result → Result
  | .next t => .next { t with pbuf := m }
  | .fault f => .fault f
  | .refused r => .refused r

/-- The bits below the budget are all that the walk reads (R178), and the commit and the report do not read PBUF. -/
theorem decodeBits_withPbuf (i : Instr) {budget : Nat} {s : State} {m : Memory}
    (h : ∀ p, p < budget → bitRead m p = bitRead s.pbuf p) :
    decodeBits i budget { s with pbuf := m } = withPbuf m (decodeBits i budget s) := by
  have hwalk : walk { s with pbuf := m } budget 0 s.root [] = walk s budget 0 s.root [] :=
    walk_congr (s := s) (s' := { s with pbuf := m }) rfl rfl rfl rfl budget 0 s.root [] fun q _ hq => h q (by omega)
  rcases Nat.lt_or_ge (8 * s.params.pbufBytes) budget with hover | hfit
  · rw [decodeBits_of_over i hover, decodeBits_of_over i (s := { s with pbuf := m }) hover]
    rfl
  · cases hw : walk s budget 0 s.root [] with
    | decoded out cur =>
      rw [decodeBits_of_decoded i hfit hw, decodeBits_of_decoded i (s := { s with pbuf := m }) hfit (hwalk.trans hw)]
      rfl
    | failed e pos cur =>
      rw [decodeBits_of_failed i hfit hw, decodeBits_of_failed i (s := { s with pbuf := m }) hfit (hwalk.trans hw)]
      rfl
    | faulted f =>
      rw [decodeBits_of_faulted i hfit hw, decodeBits_of_faulted i (s := { s with pbuf := m }) hfit (hwalk.trans hw)]
      rfl

/-- PBUF but for the bits below the budget does not matter to DEC (R178). -/
theorem exec_dec_withPbuf {aux : Byte} {s : State} {m : Memory}
    (h : ∀ p, p < decodeBudget aux s → bitRead m p = bitRead s.pbuf p) :
    exec (.dec aux) { s with pbuf := m } = withPbuf m (exec (.dec aux) s) := by
  cases hw : (Instr.dec aux).wellFormed with
  | false =>
    rw [exec_of_illegal hw, exec_of_illegal hw]
    rfl
  | true =>
    cases hp : phaseOk s (.dec aux) with
    | false =>
      rw [exec_of_phase hw hp, exec_of_phase (s := { s with pbuf := m }) hw hp]
      rfl
    | true =>
      rw [exec_dec_of_phaseOk hw hp, exec_dec_of_phaseOk (s := { s with pbuf := m }) hw hp]
      exact decodeBits_withPbuf _ h

/-- Settles O55: another PBUF shows in the next state only. -/
theorem decReadsOnlyBitsBelowTheBudget : Obligations.DecReadsOnlyBitsBelowTheBudget := by
  unfold Obligations.DecReadsOnlyBitsBelowTheBudget
  intro aux s m h
  rw [exec_dec_withPbuf h]
  split <;> next he => rw [he, withPbuf]

/-- Settles O56: only a success writes OBUF, and its output is what the walk had room for. -/
theorem decWritesObufOnlyOnSuccess : Obligations.DecWritesObufOnlyOnSuccess := by
  unfold Obligations.DecWritesObufOnlyOnSuccess
  intro aux s t h
  rcases exec_next_cases h with ⟨u, -, -, hs, rfl⟩ | ⟨e, info, u, hf, rfl⟩
  · refine ⟨nofun, fun _ => ?_⟩
    cases hs with
    | dec _ _ out cur _ hw =>
      obtain ⟨-, hlen, -⟩ := walk_decoded hw (Nat.zero_le _)
      exact ⟨rfl, (toNat_ofNat_le 32 _).trans hlen⟩
  · refine ⟨fun _ => ?_, nofun⟩
    cases hf with
    | illegal _ _ hw => exact ⟨rfl, fun _ _ haux => absurd (decide_eq_true haux) (Bool.eq_false_iff.mp hw)⟩
    | phase _ _ _ hp => exact ⟨rfl, fun hb hopen _ => by rw [phaseOk_dec, hb, hopen] at hp; cases hp⟩
    | decRange => exact ⟨rfl, fun _ _ _ => ⟨rfl, rfl⟩⟩
    | decWalk => exact ⟨rfl, fun _ _ _ => ⟨rfl, rfl⟩⟩

/-! ### The bits a walk reads -/

/-- The stream bits from `p` on begin with `bits`. -/
def BitsAt (m : Memory) (p : Nat) (bits : List Bool) : Prop :=
  ∀ j (h : j < bits.length), bitRead m (p + j) = .ok bits[j]

theorem bitsAt_zero_iff {m : Memory} {bits : List Bool} : BitsAt m 0 bits ↔ StreamHolds m bits := by
  simp only [BitsAt, StreamHolds, Nat.zero_add]

theorem bitsAt_nil (m : Memory) (p : Nat) : BitsAt m p [] := nofun

theorem bitsAt_cons {m : Memory} {p : Nat} {b : Bool} {bits : List Bool} :
    BitsAt m p (b :: bits) ↔ bitRead m p = .ok b ∧ BitsAt m (p + 1) bits := by
  constructor
  · refine fun h => ⟨h 0 (Nat.zero_lt_succ _), fun j hj => ?_⟩
    rw [Nat.add_right_comm]
    exact h (j + 1) (Nat.succ_lt_succ hj)
  · rintro ⟨h0, h⟩ (_ | j) hj
    · exact h0
    · have hbit := h j (Nat.lt_of_succ_lt_succ hj)
      rwa [Nat.add_right_comm] at hbit

theorem bitsAt_append {m : Memory} {p : Nat} {bits bits' : List Bool} :
    BitsAt m p (bits ++ bits') ↔ BitsAt m p bits ∧ BitsAt m (p + bits.length) bits' := by
  induction bits generalizing p with
  | nil => exact (and_iff_right (bitsAt_nil m p)).symm
  | cons b bits ih =>
    rw [List.cons_append, bitsAt_cons, bitsAt_cons, ih, and_assoc, List.length_cons, Nat.add_assoc, Nat.add_comm 1]

theorem bitsAt_replicate {m : Memory} {n : Nat} {b : Bool} (h : ∀ p, p < n → bitRead m p = .ok b) :
    BitsAt m 0 (List.replicate n b) := by
  intro p hp
  rw [Nat.zero_add, h p (by simpa using hp), List.getElem_replicate]

/-! ### The walk of a DEGENERATE tree -/

section
variable {s : State} (hk : s.kind = .degenerate) {n p : Nat} {cur : NodeId} {out : List Byte}
include hk

theorem walk_degenerate_zero (hbit : bitRead s.pbuf p = .ok false) (hroom : out.length ≠ s.params.obufBytes) :
    walk s (n + 1) p cur out = walk s n (p + 1) cur (out ++ [(nodeAt s.node 0).sym]) := by
  simp [walk, hbit, hk, hroom]

theorem walk_degenerate_one (hbit : bitRead s.pbuf p = .ok true) :
    walk s (n + 1) p cur out = .failed .malformedEncodedData (p + 1) cur := by
  simp [walk, hbit, hk]

theorem walk_degenerate_full (hbit : bitRead s.pbuf p = .ok false) (hfull : out.length = s.params.obufBytes) :
    walk s (n + 1) p cur out = .failed .capacityExceeded (p + 1) cur := by
  simp [walk, hbit, hk, hfull]

/-- Bits 0 that OBUF has room for are as many copies of the symbol. -/
theorem walk_degenerate_zeros (k : Nat) (hbits : BitsAt s.pbuf p (List.replicate k false))
    (hroom : out.length + k ≤ s.params.obufBytes) :
    walk s (k + n) p cur out = walk s n (p + k) cur (out ++ List.replicate k (nodeAt s.node 0).sym) := by
  induction k generalizing p out with
  | zero => simp
  | succ k ih =>
    rw [List.replicate_succ, bitsAt_cons] at hbits
    obtain ⟨hbit, hbits⟩ := hbits
    rw [Nat.add_right_comm, walk_degenerate_zero hk hbit (by omega),
      ih hbits (by rw [List.length_append, List.length_singleton]; omega), List.append_assoc, List.singleton_append,
      ← List.replicate_succ, Nat.add_assoc, Nat.add_comm 1]

theorem walk_degenerate_zeros_from_root (k n : Nat) (hbits : ∀ p, p < k → bitRead s.pbuf p = .ok false)
    (hroom : k ≤ s.params.obufBytes) :
    walk s (k + n) 0 s.root [] = walk s n k s.root (List.replicate k (nodeAt s.node 0).sym) := by
  simpa using walk_degenerate_zeros hk (n := n) (cur := s.root) (out := []) k (bitsAt_replicate hbits)
    (by simpa using hroom)

end

/-- Settles O52: the walk is at the root with one byte of output a bit until it ends or meets the bit it fails at. -/
theorem decOfADegenerateTree : Obligations.DecOfADegenerateTree := by
  unfold Obligations.DecOfADegenerateTree
  intro aux s haux hb hopen hk hfit
  refine ⟨fun hbits hroom => ?_, fun p hp hroom hbits hone => ?_, fun hover hbits => ?_⟩
  · have hw : walk s (decodeBudget aux s) 0 s.root [] =
        .decoded (List.replicate (decodeBudget aux s) (nodeAt s.node 0).sym) s.root := by
      have hzeros := walk_degenerate_zeros_from_root hk _ 0 hbits hroom
      rwa [walk_zero, if_neg (not_not.mpr rfl)] at hzeros
    refine ⟨s.obuf.writeAll 0 (List.replicate (decodeBudget aux s) (nodeAt s.node 0).sym), ?_, fun i hi => ?_,
      fun a ha => read?_writeAll_zero_of_le _ (by rwa [List.length_replicate])⟩
    · rw [exec_dec_of_decoded haux hb hopen hfit hw, State.commitDecode, List.length_replicate]
      rfl
    · rw [read?_writeAll_zero _ _ (by rwa [List.length_replicate]), List.getElem_replicate]
  · have hw : walk s (decodeBudget aux s) 0 s.root [] = .failed .malformedEncodedData (p + 1) s.root := by
      obtain ⟨n, hn⟩ := Nat.exists_eq_add_of_lt hp
      rw [hn, Nat.add_assoc, walk_degenerate_zeros_from_root hk p _ hbits hroom, walk_degenerate_one hk hone]
    exact exec_dec_of_failed haux hb hopen hfit hw
  · have hw : walk s (decodeBudget aux s) 0 s.root [] =
        .failed .capacityExceeded (s.params.obufBytes + 1) s.root := by
      obtain ⟨n, hn⟩ := Nat.exists_eq_add_of_lt hover
      rw [hn, Nat.add_assoc, walk_degenerate_zeros_from_root hk _ _ (fun q hq => hbits q hq.le) le_rfl,
        walk_degenerate_full hk (hbits _ le_rfl) List.length_replicate]
    exact exec_dec_of_failed haux hb hopen hfit hw

/-! ### The walk of a GENERAL tree -/

section
variable {s : State} (hk : s.kind = .general) {n p : Nat} {cur : NodeId} {out : List Byte} {b : Bool}
include hk

theorem walk_general_leaf (hbit : bitRead s.pbuf p = .ok b)
    (hleaf : (nodeAt s.node (childOf (nodeAt s.node cur.toNat) b).toNat).leaf = true)
    (hroom : out.length ≠ s.params.obufBytes) :
    walk s (n + 1) p cur out = walk s n (p + 1) s.root
      (out ++ [(nodeAt s.node (childOf (nodeAt s.node cur.toNat) b).toNat).sym]) := by
  simp [walk, hbit, hk, hleaf, hroom]

theorem walk_general_internal (hbit : bitRead s.pbuf p = .ok b)
    (hleaf : (nodeAt s.node (childOf (nodeAt s.node cur.toNat) b).toNat).leaf = false) :
    walk s (n + 1) p cur out = walk s n (p + 1) (childOf (nodeAt s.node cur.toNat) b) out := by
  simp [walk, hbit, hk, hleaf]

/-- The bits that lead from the walk's node to a leaf output its symbol and bring the walk back to the root. -/
theorem walk_general_path {bits : List Bool} {x : Byte} (hto : LeadsTo s.node cur bits x) (hne : bits ≠ [])
    (hbits : BitsAt s.pbuf p bits) (hroom : out.length ≠ s.params.obufBytes) :
    walk s (bits.length + n) p cur out = walk s n (p + bits.length) s.root (out ++ [x]) := by
  induction bits generalizing p cur with
  | nil => exact absurd rfl hne
  | cons b bits ih =>
    obtain ⟨hbit, hbits⟩ := bitsAt_cons.mp hbits
    obtain ⟨-, hto⟩ := leadsTo_cons.mp hto
    rw [List.length_cons, Nat.add_right_comm]
    cases bits with
    | nil =>
      obtain ⟨hleaf, rfl⟩ := leadsTo_nil.mp hto
      rw [List.length_nil, Nat.zero_add, walk_general_leaf hk hbit hleaf hroom]
    | cons b' bits =>
      obtain ⟨hleaf, -⟩ := leadsTo_cons.mp hto
      rw [walk_general_internal hk hbit hleaf, ih hto (List.cons_ne_nil _ _) hbits, Nat.add_assoc, Nat.add_comm 1]

end

/-! ### The walk of codes -/

theorem codeOf_ne_nil {s : State} {x : Byte} (hx : s.hasCode x) : s.codeOf x ≠ [] :=
  List.ne_nil_of_length_pos (by rw [length_codeOf]; exact Nat.pos_of_ne_zero (hasCode_iff_len.mp hx))

section
variable {s : State} (h : TableInvariant s) (hb : s.built = true)
  (hk : ∀ x, s.hasCode x → s.kind = .general ∨ s.kind = .degenerate) {n p : Nat} {out : List Byte}
include h hb hk

/-- The bits of a code output its symbol. -/
theorem walk_code {x : Byte} (hx : s.hasCode x) (hbits : BitsAt s.pbuf p (s.codeOf x))
    (hroom : out.length ≠ s.params.obufBytes) :
    walk s ((s.codeOf x).length + n) p s.root out = walk s n (p + (s.codeOf x).length) s.root (out ++ [x]) := by
  rcases hk x hx with hk | hk
  · exact walk_general_path hk ((h.paths hb hk x _).mpr ⟨hx, rfl⟩) (codeOf_ne_nil hx) hbits hroom
  · obtain ⟨hcode, hsym⟩ := h.single hb hk x hx
    rw [hcode, bitsAt_cons] at hbits
    obtain ⟨hbit, -⟩ := hbits
    rw [hcode, List.length_singleton, Nat.add_comm 1, walk_degenerate_zero hk hbit hroom, hsym]

/-- The bits of a sequence of codes output the sequence of their symbols. -/
theorem walk_codes {xs : List Byte} (hxs : ∀ x ∈ xs, s.hasCode x) (hbits : BitsAt s.pbuf p (xs.flatMap s.codeOf))
    (hroom : out.length + xs.length ≤ s.params.obufBytes) :
    walk s (xs.flatMap s.codeOf).length p s.root out = .decoded (out ++ xs) s.root := by
  induction xs generalizing p out with
  | nil => rw [List.flatMap_nil, List.length_nil, walk_zero, if_neg (not_not.mpr rfl), List.append_nil]
  | cons x xs ih =>
    obtain ⟨hx, hxs⟩ := List.forall_mem_cons.mp hxs
    rw [List.flatMap_cons, bitsAt_append] at hbits
    obtain ⟨hcode, hbits⟩ := hbits
    rw [List.length_cons] at hroom
    rw [List.flatMap_cons, List.length_append, walk_code h hb hk hx hcode (by omega),
      ih hxs hbits (by rw [List.length_append, List.length_singleton]; omega), List.append_assoc, List.singleton_append]

theorem exec_dec_of_codes {aux : Byte} {xs : List Byte} (haux : aux.toNat ≤ 1) (hopen : s.encOpen = false)
    (hxs : ∀ x ∈ xs, s.hasCode x) (hroom : xs.length ≤ s.params.obufBytes)
    (hfit : decodeBudget aux s ≤ 8 * s.params.pbufBytes) (hbudget : decodeBudget aux s = (xs.flatMap s.codeOf).length)
    (hbits : StreamHolds s.pbuf (xs.flatMap s.codeOf)) :
    exec (.dec aux) s = .next (s.commitDecode (decodeBudget aux s) xs s.root).ok := by
  refine exec_dec_of_decoded haux hb hopen hfit ?_
  rw [hbudget]
  exact walk_codes h hb hk hxs (bitsAt_zero_iff.mpr hbits) (by simpa using hroom)

end

/-- Settles O53: the walk is at the root after each code. -/
theorem decInvertsConcatenatedCodes : Obligations.DecInvertsConcatenatedCodes := by
  unfold Obligations.DecInvertsConcatenatedCodes
  intro aux s xs haux hb hopen hnone hempty h hxs hroom hfit hbudget hbits
  have hk : s.kind = .general ∨ s.kind = .degenerate := by
    cases hkind : s.kind with
    | none => exact absurd hkind hnone
    | empty => exact absurd hkind hempty
    | degenerate => exact .inr rfl
    | general => exact .inl rfl
  exact ⟨_, exec_dec_of_codes h hb (fun _ _ => hk) haux hopen hxs hroom hfit hbudget hbits,
    fun i hi => read?_writeAll_zero _ xs hi, fun a ha => read?_writeAll_zero_of_le _ ha⟩

/-! ### The walk of any bits in a GENERAL tree -/

theorem follow_nil (node : Vector Node 511) (n : NodeId) : follow node n [] = n := rfl

/-- Each step of a path lowers the node id, so only the empty path leads back to its node (R117). -/
theorem Descends.follow_add_length_le {node : Vector Node 511} {k next : Nat} (h : Descends node k next) {n : NodeId}
    {bits : List Bool} (hn : n.toNat < next) (hpath : InternalPath node n bits) :
    (follow node n bits).toNat + bits.length ≤ n.toNat := by
  induction bits generalizing n with
  | nil => exact le_rfl
  | cons b bits ih =>
    obtain ⟨hleaf, hpath⟩ := internalPath_cons.mp hpath
    have hlt := h.childOf_lt hn hleaf b
    have hrest := ih (hlt.trans hn) hpath
    rw [follow, List.length_cons]
    omega

section
variable {s : State} (h : TableInvariant s) (hb : s.built = true) (hk : s.kind = .general)
include h hb hk

/-- A leaf at the root would have a code of no bits. -/
theorem TableInvariant.leaf_root : (nodeAt s.node s.root.toNat).leaf = false := by
  by_contra hleaf
  have hto := leadsTo_nil.mpr ⟨Bool.not_eq_false _ ▸ hleaf, rfl⟩
  obtain ⟨hcode, hnil⟩ := (h.paths hb hk _ []).mp hto
  exact codeOf_ne_nil hcode hnil.symm

theorem TableInvariant.eq_nil_of_follow_eq_root {bits : List Bool} (hpath : InternalPath s.node s.root bits)
    (hroot : follow s.node s.root bits = s.root) : bits = [] := by
  obtain ⟨hlt, hdesc⟩ := h.descends hb hk
  have hdesc' : Descends s.node 0 s.nnode.toNat := fun n hn hleaf => ⟨Nat.zero_le n, hdesc n hn hleaf⟩
  have hle := hdesc'.follow_add_length_le hlt hpath
  rw [hroot] at hle
  exact List.length_eq_zero_iff.mp (by omega)

/-- A walk that has room reads its bits as whole codes and then a rest that stays inside the tree. `pre` is what it has
read of the code it is in. -/
theorem walk_general_parse {bits pre : List Bool} {p : Nat} {out : List Byte} (hbits : BitsAt s.pbuf p bits)
    (hroom : out.length + bits.length ≤ s.params.obufBytes) (hpath : InternalPath s.node s.root pre)
    (hleaf : (nodeAt s.node (follow s.node s.root pre).toNat).leaf = false) :
    ∃ xs rest, (∀ x ∈ xs, s.hasCode x) ∧ pre ++ bits = xs.flatMap s.codeOf ++ rest ∧
      InternalPath s.node s.root rest ∧ walk s bits.length p (follow s.node s.root pre) out =
        walk s 0 (p + bits.length) (follow s.node s.root rest) (out ++ xs) := by
  induction bits generalizing pre p out with
  | nil => exact ⟨[], pre, nofun, by simp, hpath, by simp⟩
  | cons b bits ih =>
    obtain ⟨hbit, hbits⟩ := bitsAt_cons.mp hbits
    have hpath' := internalPath_concat (b := b) |>.mpr ⟨hpath, hleaf⟩
    have hfollow := follow_concat (node := s.node) s.root pre b
    rw [List.length_cons] at hroom
    cases hchild : (nodeAt s.node (follow s.node s.root (pre ++ [b])).toNat).leaf with
    | true =>
      obtain ⟨hcode, hpre⟩ := (h.paths hb hk _ _).mp ⟨hpath', hchild, rfl⟩
      obtain ⟨xs, rest, hxs, hparse, hrest, hwalk⟩ := ih (pre := []) hbits
        (out := out ++ [(nodeAt s.node (follow s.node s.root (pre ++ [b])).toNat).sym])
        (by rw [List.length_append, List.length_singleton]; omega) (internalPath_nil _) (h.leaf_root hb hk)
      refine ⟨_ :: xs, rest, List.forall_mem_cons.mpr ⟨hcode, hxs⟩, ?_, hrest, ?_⟩
      · rw [List.flatMap_cons, ← hpre, List.append_assoc, ← hparse]
        simp
      · rw [hfollow] at hchild hwalk ⊢
        rw [follow_nil] at hwalk
        rw [List.length_cons, walk_general_leaf hk hbit hchild (by omega), hwalk]
        simp [Nat.add_assoc, Nat.add_comm 1]
    | false =>
      obtain ⟨xs, rest, hxs, hparse, hrest, hwalk⟩ := ih (out := out) hbits (by omega) hpath' hchild
      refine ⟨xs, rest, hxs, by simpa using hparse, hrest, ?_⟩
      rw [hfollow] at hchild hwalk
      rw [List.length_cons, walk_general_internal hk hbit hchild, hwalk, Nat.add_assoc, Nat.add_comm 1]

/-- The two ends of a walk that has room in a GENERAL tree. -/
theorem walk_general_cases {bits : List Bool} (hbits : StreamHolds s.pbuf bits)
    (hroom : bits.length ≤ s.params.obufBytes) :
    (∃ xs, (∀ x ∈ xs, s.hasCode x) ∧ bits = xs.flatMap s.codeOf ∧
        walk s bits.length 0 s.root [] = .decoded xs s.root) ∨
      ∃ cur, walk s bits.length 0 s.root [] = .failed .malformedEncodedData bits.length cur := by
  obtain ⟨xs, rest, hxs, hparse, hrest, hwalk⟩ := walk_general_parse h hb hk (pre := []) (out := [])
    (bitsAt_zero_iff.mpr hbits) (by simpa using hroom) (internalPath_nil _) (h.leaf_root hb hk)
  rw [Nat.zero_add, follow_nil, walk_zero] at hwalk
  by_cases hroot : follow s.node s.root rest = s.root
  · have hnil := h.eq_nil_of_follow_eq_root hb hk hrest hroot
    rw [if_neg (not_not.mpr hroot), hroot] at hwalk
    exact .inl ⟨xs, hxs, by simpa [hnil] using hparse, hwalk⟩
  · rw [if_pos hroot] at hwalk
    exact .inr ⟨_, hwalk⟩

end

/-- A sequence of symbols is not longer than its codes. -/
theorem length_le_length_flatMap_codeOf {s : State} {xs : List Byte} (hxs : ∀ x ∈ xs, s.hasCode x) :
    xs.length ≤ (xs.flatMap s.codeOf).length := by
  induction xs with
  | nil => exact Nat.zero_le _
  | cons x xs ih =>
    obtain ⟨hx, hxs⟩ := List.forall_mem_cons.mp hxs
    have hpos := List.length_pos_of_ne_nil (codeOf_ne_nil hx)
    have hle := ih hxs
    rw [List.flatMap_cons, List.length_append, List.length_cons]
    omega

/-- Settles O54: the walk ends at the root or inside a code, and bits that are whole codes bring it to the root. -/
theorem decFailsExactlyInsideACode : Obligations.DecFailsExactlyInsideACode := by
  unfold Obligations.DecFailsExactlyInsideACode
  intro aux s t bits haux hb hopen hk h hbudget hfit hroom hbits hexec
  rcases walk_general_cases h hb hk hbits hroom with ⟨xs, hxs, hcodes, hw⟩ | ⟨cur, hw⟩
  · rw [exec_dec_of_decoded haux hb hopen (hbudget ▸ hfit) (hbudget ▸ hw)] at hexec
    cases hexec
    exact ⟨iff_of_true ⟨xs, hxs, hcodes⟩ rfl, nofun⟩
  · have hno : ¬∃ xs : List Byte, (∀ x ∈ xs, s.hasCode x) ∧ bits = xs.flatMap s.codeOf := by
      rintro ⟨xs, hxs, rfl⟩
      have hlen := (length_le_length_flatMap_codeOf hxs).trans hroom
      have hdecoded := walk_codes h hb (fun _ _ => .inl hk) hxs (bitsAt_zero_iff.mpr hbits) (out := [])
        (by simpa using hlen)
      cases hw.symm.trans hdecoded
    rw [exec_dec_of_failed haux hb hopen (hbudget ▸ hfit) (hbudget ▸ hw)] at hexec
    cases hexec
    rw [hbudget]
    refine ⟨iff_of_false hno nofun, fun _ => ⟨?_, rfl, rfl⟩⟩
    exact extractLsb'_errWord_code _ _

/-! ### What BUILDFROM leaves -/

/-- With MAX_CODE_LEN 255 a BUILD in phase succeeds (R139). -/
theorem exec_build_of_max {s : State} (hb : s.built = false) (hopen : s.encOpen = false)
    (hmax : s.params.maxCodeLen = 255) : ∃ u, Succeeds .build s u ∧ exec .build s = .next u.ok := by
  rcases exec_cases .build s with ⟨u, -, -, hu, hexec⟩ | ⟨e, info, u, hf, -⟩ | ⟨f, -, -, hf, -⟩
  · exact ⟨u, hu, hexec⟩
  · cases hf with
    | illegal _ _ hw => cases hw
    | phase _ _ _ hp => cases hp.symm.trans (phaseOk_build hb hopen)
    | tooLong _ sym hk hm =>
      rw [hmax, firstTooLong_eq_none_iff.mpr (len_table_buildTree_le_255 hk)] at hm
      cases hm
  · cases hf

theorem Succeeds.encOpen_of_build {s u : State} (h : Succeeds .build s u) : u.encOpen = s.encOpen := by
  cases h <;> rfl

/-- Only an EMPTY tree has neither of the two shapes with codes. -/
theorem kind_of_hasCode {s t : State} (h : exec .build s = .next t) (hf : t.lastFail = false) {x : Byte}
    (hx : t.hasCode x) : t.kind = .general ∨ t.kind = .degenerate := by
  rcases exec_build_cases h hf with hbuilt | hbuilt | ⟨hk, -⟩
  · exact absurd (by rw [hbuilt.ct, entry_replicate]; rfl) hx
  · exact .inr hbuilt.kind
  · exact .inl hk

/-- A sum over the symbols with the number of times each stands in `xs` is a sum over `xs`. -/
theorem sum_count_mul (xs : List Byte) (f : Byte → Nat) :
    ((List.range 256).map fun i => xs.count (BitVec.ofNat 8 i) * f (BitVec.ofNat 8 i)).sum = (xs.map f).sum := by
  show (∑ i ∈ Finset.range 256, xs.count (BitVec.ofNat 8 i) * f (BitVec.ofNat 8 i)) = (xs.map f).sum
  induction xs with
  | nil => simp only [List.count_nil, Nat.zero_mul, Finset.sum_const_zero, List.map_nil, List.sum_nil]
  | cons x xs ih =>
    have hone : (∑ i ∈ Finset.range 256, (if x == BitVec.ofNat 8 i then 1 else 0) * f (BitVec.ofNat 8 i)) = f x := by
      rw [Finset.sum_eq_single_of_mem x.toNat (Finset.mem_range.mpr x.isLt)]
      · simp
      · intro i hi hne
        have hx : x ≠ BitVec.ofNat 8 i := by
          rintro rfl
          exact hne (toNat_ofNat_of_lt (Finset.mem_range.mp hi)).symm
        simp [hx]
    simp only [List.count_cons, Nat.add_mul, Finset.sum_add_distrib, ih, hone, List.map_cons, List.sum_cons,
      Nat.add_comm]

/-- The frequencies count the symbols of `xs`, in a session with no tree and no report; the host inputs that wait are
`rest`. -/
structure Counted (p : Params) (xs : List Byte) (rest : List HostInput) (t : State) : Prop where
  params : t.params = p
  built : t.built = false
  encOpen : t.encOpen = false
  errValid : t.errValid = false
  pending : t.pending = rest
  freq : ∀ sym, (entry t.freq sym).toNat = xs.count sym

/-- The tree of the counts of `xs` is built, with codes for the symbols of `xs`. -/
structure BuiltFrom (p : Params) (xs : List Byte) (t : State) : Prop where
  params : t.params = p
  built : t.built = true
  encOpen : t.encOpen = false
  errValid : t.errValid = false
  lastFail : t.lastFail = false
  table : TableInvariant t
  kind : ∀ x, t.hasCode x → t.kind = .general ∨ t.kind = .degenerate
  hasCode : ∀ x ∈ xs, t.hasCode x
  totalBits : t.totalBits.toNat = (xs.flatMap t.codeOf).length

section
variable {s t : State} {p : Params} {xs : List Byte} {rest : List HostInput}

theorem step_clear (hp : s.pending = issue s.params .clear :: rest) :
    ∃ t, step s = .next t ∧ Counted s.params [] rest t := by
  refine ⟨_, (step_of_issue rfl hp).trans (exec_clear _), ?_⟩
  exact {
    params := rfl
    built := rfl
    encOpen := rfl
    errValid := rfl
    pending := rfl
    freq := fun sym => congrArg BitVec.toNat (entry_replicate 0 sym) }

theorem Counted.step_cnt {x : Byte} (h : Counted p xs (issue p (.cnt x) :: rest) t) (hlen : xs.length < 2 ^ 32 - 1) :
    ∃ u, step t = .next u ∧ Counted p (xs ++ [x]) rest u := by
  have hfreq : (entry t.freq x).toNat ≠ 2 ^ 32 - 1 := by
    have hle := xs.count_le_length (a := x)
    rw [h.freq]
    omega
  have hne : entry t.freq x ≠ 0xFFFFFFFF := (eq_maxWord_iff _).not.mpr hfreq
  have hstep := (step_of_issue rfl (h.params ▸ h.pending)).trans (exec_cnt_of_ne_max h.built hne)
  refine ⟨_, hstep, { h with pending := rfl, freq := fun sym => ?_ }⟩
  rw [List.count_append, List.count_singleton, ← h.freq]
  by_cases hsym : sym = x
  · subst hsym
    simpa using toNat_add_one_of_ne_max hfreq
  · simp [entry_setEntry_other _ _ hsym, Ne.symm hsym]

theorem Counted.run_cnts (ys : List Byte) (h : Counted p xs ((ys.map fun y => issue p (.cnt y)) ++ rest) t)
    (hlen : (xs ++ ys).length < 2 ^ 32) :
    ∃ u, core.run ys.length t = .next u ∧ Counted p (xs ++ ys) rest u := by
  induction ys generalizing xs t with
  | nil => exact ⟨t, rfl, by simpa using h⟩
  | cons y ys ih =>
    rw [List.append_cons] at hlen ⊢
    obtain ⟨u, hstep, hu⟩ := h.step_cnt (by simp at hlen; omega)
    obtain ⟨v, hrun, hv⟩ := ih hu hlen
    exact ⟨v, (run_succ_of_next (M := core) hstep ys.length).trans hrun, hv⟩

theorem Counted.step_build (h : Counted p xs [issue p .build] t) (hmax : p.maxCodeLen = 255) :
    ∃ u, step t = .next u ∧ BuiltFrom p xs u := by
  obtain ⟨u, hu, hexec⟩ := exec_build_of_max (s := { t with pending := [], cmd := encode .build }) h.built h.encOpen
    (h.params ▸ hmax)
  obtain ⟨hb, hfreq, -⟩ := registers_of_build hexec rfl
  obtain ⟨-, -, hparams, -⟩ := hu.hostKept
  obtain ⟨-, -, hvalid, -⟩ := hu.reportKept nofun nofun
  have htable := tableInvariant_of_build hexec rfl
  refine ⟨_, (step_of_issue rfl (h.params ▸ h.pending)).trans hexec, ?_⟩
  exact {
    params := hparams.trans h.params
    built := hb
    encOpen := hu.encOpen_of_build.trans h.encOpen
    errValid := hvalid.trans h.errValid
    lastFail := rfl
    table := htable
    kind := fun _ => kind_of_hasCode hexec rfl
    hasCode := fun x hx => by
      rw [htable.present hb x, hfreq, ne_eq, ← BitVec.toNat_inj]
      exact (h.freq x).trans_ne (List.count_pos_iff.mpr hx).ne'
    totalBits := by
      rw [totalBitsIsTheExactSum _ _ hexec rfl, List.length_flatMap]
      simp only [h.freq, length_codeOf]
      exact sum_count_mul xs fun x => (entry u.ok.ct x).len.toNat }

/-- BUILDFROM of bytes that OBUF can hold counts them and builds their tree (R83, R179). -/
theorem run_buildFrom (xs : List Byte) (hp : s.pending = (Macro.buildFrom xs).expand s.params)
    (hmax : s.params.maxCodeLen = 255) (hlen : xs.length < 2 ^ 32) :
    ∃ u, core.run (xs.length + 2) s = .next u ∧ BuiltFrom s.params xs u := by
  obtain ⟨t, hclear, ht⟩ := step_clear hp
  obtain ⟨t', hrun, ht'⟩ := ht.run_cnts xs hlen
  obtain ⟨u, hbuild, hu⟩ := ht'.step_build hmax
  refine ⟨u, ?_, hu⟩
  calc core.run (xs.length + 2) s
      = core.run (xs.length + 1) t := run_succ_of_next (M := core) hclear _
    _ = core.run 1 t' := run_add_of_next hrun 1
    _ = .next u := run_succ_of_next (M := core) hbuild 0

/-- What waits does not matter. -/
theorem BuiltFrom.setPending (h : BuiltFrom p xs t) (pending : List HostInput) :
    BuiltFrom p xs { t with pending := pending } :=
  { h with table := h.table.host pending t.reads t.cmd t.opa }

/-! ### The round trip -/

/-- OUT_LEN holds every length that an OBUF in R9's range has room for (R10). -/
theorem obufBytes_lt {p : Params} (hv : p.valid) : p.obufBytes < 2 ^ 32 := by
  obtain ⟨-, ⟨-, hsize⟩, -⟩ := hv
  omega

/-- What DEC.T leaves after an ENCODE that packed `xs` in `bits` bits. -/
structure Decoded (xs : List Byte) (bits : Nat) (t : State) : Prop where
  lastFail : t.lastFail = false
  errValid : t.errValid = false
  encDone : t.encDone = true
  encBits : t.encBits.toNat = bits
  decDone : t.decDone = true
  outLen : t.outLen.toNat = xs.length
  obuf : ∀ i (h : i < xs.length), t.obuf.read? i = some xs[i]

/-- The stream that ENCODE packed is the concatenation of the codes, and TOTAL_BITS is its length. -/
theorem BuiltFrom.step_dec {u : State} (hu : BuiltFrom p xs u) (hv : p.valid) (hlen : xs.length ≤ p.obufBytes)
    (hfit : u.totalBits.toNat ≤ 8 * p.pbufBytes) (ht : Encoded u (xs.flatMap u.codeOf) [issue p (.dec 0)] t) :
    ∃ v, step t = .next v ∧ Decoded xs u.totalBits.toNat v := by
  obtain rfl := hu.params
  obtain ⟨-, -, -, -, htotal, -, -, -, hkind⟩ := ht.tree
  have hcode : t.codeOf = u.codeOf := funext ht.codeOf_eq
  have htable := (hu.table.of_treeKept ht.tree).host [] t.reads (encode (.dec 0)) t.opa
  have hshape : ∀ x, t.hasCode x → t.kind = .general ∨ t.kind = .degenerate := fun x hx =>
    hkind ▸ hu.kind x ((ht.hasCode_iff x).mp hx)
  have hcodes : ∀ x ∈ xs, t.hasCode x := fun x hx => (ht.hasCode_iff x).mpr (hu.hasCode x hx)
  have hbudget : t.totalBits.toNat = (xs.flatMap t.codeOf).length := by rw [htotal, hu.totalBits, hcode]
  have hexec := exec_dec_of_codes (aux := 0) htable (ht.built_eq.trans hu.built) hshape (by decide) ht.encOpen hcodes
    (ht.params ▸ hlen) (ht.params ▸ htotal ▸ hfit) hbudget (hcode ▸ ht.stream)
  refine ⟨_, (step_of_issue rfl (ht.params ▸ ht.pending)).trans hexec, ?_⟩
  exact {
    lastFail := rfl
    errValid := ht.errValid.trans hu.errValid
    encDone := ht.encDone
    encBits := ht.encBits.trans hu.totalBits.symm
    decDone := rfl
    outLen := toNat_ofNat_of_lt (hlen.trans_lt (obufBytes_lt hv))
    obuf := fun i hi => read?_writeAll_zero _ xs hi }

/-- ENCODE and DEC.T give back the bytes whose tree BUILDFROM built, where their codes fit PBUF (R179). -/
theorem BuiltFrom.run_encode_dec {u : State} (hu : BuiltFrom p xs u) (hv : p.valid) (hlen : xs.length ≤ p.obufBytes)
    (hp : u.pending = (Macro.encode xs).expand p ++ Macro.decT.expand p) (hfit : u.totalBits.toNat ≤ 8 * p.pbufBytes) :
    ∃ t, core.run (xs.length + 3) u = .next t ∧ Decoded xs u.totalBits.toNat t := by
  obtain rfl := hu.params
  obtain ⟨t, hrun, ht⟩ := run_encode hv hu.built xs hu.encOpen hp hu.hasCode (hu.totalBits ▸ hfit)
  obtain ⟨v, hstep, hv'⟩ := hu.step_dec hv hlen hfit ht
  exact ⟨v, (run_add_of_next hrun 1).trans (run_succ_of_next (M := core) hstep 0), hv'⟩

end

/-- Settles O59: BUILDFROM builds the tree of the counts, TOTAL_BITS is the length of the stream that ENCODE packs, and
DEC inverts the stream. -/
theorem roundTripGivesTheInputBack : Obligations.RoundTripGivesTheInputBack := by
  unfold Obligations.RoundTripGivesTheInputBack
  intro s x hv hmax hlen
  obtain ⟨u, hrun, hu⟩ := run_buildFrom (s := { s with pending := (Macro.buildFrom x).expand s.params }) x rfl hmax
    (hlen.trans_lt (obufBytes_lt hv))
  refine ⟨u, hrun, hu.lastFail, hu.errValid, hu.built, fun hfit => ?_⟩
  obtain ⟨t, hrun', ht⟩ := (hu.setPending _).run_encode_dec hv hlen rfl hfit
  exact ⟨t, hrun', ht.lastFail, ht.errValid, ht.encDone, ht.encBits, ht.decDone, ht.outLen, ht.obuf⟩

end Sys2Proof.Machine
end

section
/-! PROOFS. The statements of the family 60_exceptions: the idle and the reset step, what `raise` writes, the abort
effect of each error, and that a command does not depend on the report. -/

namespace Sys2Proof.Machine

open Sys2Proof

/-! ### Idle, reset and raise -/

/-- Settles O10. -/
theorem idleHoldsAndResetRestores : Obligations.IdleHoldsAndResetRestores := by
  unfold Obligations.IdleHoldsAndResetRestores
  refine fun s => ⟨fun hidle => ?_, fun rest hreset => ?_⟩
  · rw [step, hidle]
  · rw [step, hreset]
    rfl

/-- Settles O12: the code in ERR is `errorNumber`, and ERR_LOST records that a report was there. -/
theorem raiseWritesTheReport : Obligations.RaiseWritesTheReport := by
  unfold Obligations.RaiseWritesTheReport
  intro w info e s
  have hlost : (s.errLost || s.errValid) = if s.errValid then true else s.errLost := by
    cases s.errValid <;> simp
  rw [State.raise, hlost]
  cases e <;> rfl

/-! ### Abort effects -/

/-- Settles O18: a success has LAST_FAIL = 0, and each way to fail has its error's abort effect; a walk fails only with
the two errors that end a DEC. -/
theorem failureLeavesOnlyItsAbortEffect : Obligations.FailureLeavesOnlyItsAbortEffect := by
  unfold Obligations.FailureLeavesOnlyItsAbortEffect
  intro i s t h hfail
  rcases exec_next_cases h with ⟨u, -, -, -, rfl⟩ | ⟨e, info, u, hf, rfl⟩
  · cases hfail
  refine ⟨e, info, u, rfl, ?_⟩
  cases hf with
  | illegal | phase | overflow | rdnodeRange | pbwrRange | pbrdRange | ordRange => rfl
  | tooLong => exact ⟨rfl, rfl⟩
  | unknown sym => exact ⟨⟨sym, rfl⟩, rfl⟩
  | encsFull sym => exact .inl ⟨.inl ⟨sym, rfl⟩, rfl⟩
  | encpFull aux => exact .inl ⟨.inr ⟨aux, rfl⟩, rfl⟩
  | decRange aux => exact .inr ⟨⟨aux, rfl⟩, rfl⟩
  | decWalk aux _ _ _ _ _ hw =>
    rcases (walk_failed hw).1 with rfl | rfl
    · exact ⟨⟨aux, rfl⟩, rfl⟩
    · exact .inr ⟨⟨aux, rfl⟩, rfl⟩

/-! ### Commands do not depend on the report -/

/-- `s` with the error report and LAST_FAIL of `r`. -/
def State.withReportOf (s r : State) : State :=
  { s with lastFail := r.lastFail, errValid := r.errValid, errLost := r.errLost, err := r.err, errInfo := r.errInfo }

/-- The outcome without the error report of its state; LAST_FAIL, which says whether the command failed, stays. -/
def eraseReport : Result → Result
  | .next t => .next t.clearReport
  | .fault f => .fault f
  | .refused r => .refused r

/-- States that agree once the report is cleared differ in the report only. -/
theorem eq_of_clearReport_eq {t t' : State} (h : t'.clearReport = t.clearReport) :
    t' = { t with errValid := t'.errValid, errLost := t'.errLost, err := t'.err, errInfo := t'.errInfo } := by
  calc t'
      = { t'.clearReport with
          errValid := t'.errValid, errLost := t'.errLost, err := t'.err, errInfo := t'.errInfo } := rfl
    _ = { t.clearReport with
          errValid := t'.errValid, errLost := t'.errLost, err := t'.err, errInfo := t'.errInfo } := by rw [h]

theorem exists_next_of_eraseReport_eq {o : Result} {t : State} (h : eraseReport o = eraseReport (.next t)) :
    ∃ t', o = .next t' ∧ t'.clearReport = t.clearReport := by
  cases o with
  | next t' => exact ⟨t', rfl, Host.Outcome.next.inj h⟩
  | fault | refused => cases h

theorem eraseReport_ite {c : Prop} [Decidable c] {o o' p p' : Result} (ho : eraseReport o = eraseReport o')
    (hp : eraseReport p = eraseReport p') :
    eraseReport (if c then o else p) = eraseReport (if c then o' else p') := by
  split
  · exact ho
  · exact hp

section
variable (s r : State)

theorem phaseOk_withReportOf (i : Instr) : phaseOk (s.withReportOf r) i = phaseOk s i := by
  cases i <;> rfl

theorem walk_withReportOf (n p : Nat) (cur : NodeId) (out : List Byte) :
    walk (s.withReportOf r) n p cur out = walk s n p cur out :=
  walk_congr (s := s) (s' := s.withReportOf r) rfl rfl rfl rfl n p cur out fun _ _ _ => rfl

/-- The checks in front of a command do not read the report; STATUS at issue shows it, in ERRINFO only. -/
theorem eraseReport_guarded (i : Instr) {rule : State → Result}
    (h : eraseReport (rule (s.withReportOf r)) = eraseReport (rule s)) :
    eraseReport (guarded i (s.withReportOf r) rule) = eraseReport (guarded i s rule) := by
  rw [guarded, guarded, phaseOk_withReportOf]
  exact eraseReport_ite rfl (eraseReport_ite rfl h)

theorem eraseReport_finishBuild (b : Builder) :
    eraseReport (finishBuild b (s.withReportOf r)) = eraseReport (finishBuild b s) := by
  cases h : firstTooLong s.params.maxCodeLen b.table with
  | some sym =>
    rw [finishBuild_of_tooLong h, finishBuild_of_tooLong (s := s.withReportOf r) h]
    rfl
  | none =>
    rw [finishBuild_of_fits h, finishBuild_of_fits (s := s.withReportOf r) h]
    rfl

theorem eraseReport_packBits (i : Instr) (bits : List Bool) :
    eraseReport (packBits i bits (s.withReportOf r)) = eraseReport (packBits i bits s) := by
  have hstream : appendBits (s.withReportOf r).pbuf (s.withReportOf r).encBits.toNat bits =
      appendBits s.pbuf s.encBits.toNat bits := rfl
  rw [packBits, packBits, hstream]
  refine eraseReport_ite rfl ?_
  cases appendBits s.pbuf s.encBits.toNat bits <;> rfl

theorem eraseReport_decodeBits (i : Instr) (budget : Nat) :
    eraseReport (decodeBits i budget (s.withReportOf r)) = eraseReport (decodeBits i budget s) := by
  have hroot : (s.withReportOf r).root = s.root := rfl
  rw [decodeBits, decodeBits, hroot, walk_withReportOf]
  refine eraseReport_ite rfl ?_
  cases walk s budget 0 s.root [] <;> rfl

theorem eraseReport_execPbrd : eraseReport (execPbrd (s.withReportOf r)) = eraseReport (execPbrd s) := by
  refine eraseReport_guarded s r .pbrd (eraseReport_ite rfl ?_)
  have hread : memRead .pbuf (s.withReportOf r).pbuf (s.withReportOf r).opaIndex =
      memRead .pbuf s.pbuf s.opaIndex := rfl
  rw [hread]
  cases memRead .pbuf s.pbuf s.opaIndex <;> rfl

theorem eraseReport_execOrd : eraseReport (execOrd (s.withReportOf r)) = eraseReport (execOrd s) := by
  refine eraseReport_guarded s r .ord (eraseReport_ite rfl ?_)
  have hread : memRead .obuf (s.withReportOf r).obuf (s.withReportOf r).opaIndex =
      memRead .obuf s.obuf s.opaIndex := rfl
  rw [hread]
  cases memRead .obuf s.obuf s.opaIndex <;> rfl

/-- No command reads the report or LAST_FAIL but to write the report (R192). -/
theorem eraseReport_exec (i : Instr) : eraseReport (exec i (s.withReportOf r)) = eraseReport (exec i s) := by
  unfold exec
  cases i with
  | nop | clear | errclr | setf | rdfreq | rdlen | rdcode | encb | ence => exact eraseReport_guarded s r _ rfl
  | cnt | rdnode | pbwr => exact eraseReport_guarded s r _ (eraseReport_ite rfl rfl)
  | build =>
    refine eraseReport_guarded s r _ (eraseReport_ite rfl (eraseReport_ite rfl ?_))
    exact eraseReport_finishBuild s r (buildTree s)
  | encs => exact eraseReport_guarded s r _ (eraseReport_ite rfl (eraseReport_packBits s r _ _))
  | encp => exact eraseReport_guarded s r _ (eraseReport_packBits s r _ _)
  | pbrd => exact eraseReport_execPbrd s r
  | dec => exact eraseReport_guarded s r _ (eraseReport_decodeBits s r _ _)
  | ord => exact eraseReport_execOrd s r

end

/-- Settles O19: the two outcomes are the same without the report, and so is their LAST_FAIL. -/
theorem errorsDoNotBlockCommands : Obligations.ErrorsDoNotBlockCommands := by
  unfold Obligations.ErrorsDoNotBlockCommands
  intro i s t lf ev el e info h
  have hexec := eraseReport_exec s
    { s with lastFail := lf, errValid := ev, errLost := el, err := e, errInfo := info } i
  rw [h] at hexec
  obtain ⟨t', ht', hreport⟩ := exists_next_of_eraseReport_eq hexec
  have hlast : t'.lastFail = t.lastFail := by simpa using congrArg State.lastFail hreport
  exact ⟨t', ht', hlast, eq_of_clearReport_eq hreport⟩

end Sys2Proof.Machine
end
